-- ==== Sys2Proof/Word.lean ====
section
/-! DEFINITION. The three word widths of the spec (`00_scope.md` rule R8): a byte, the 32-bit register and
command word (`REG_BITS`, rule R7), and the 64-bit SHA-512 word (`SHA_WORD_BITS`, rule R7). -/

namespace Sys2Proof

/-- A byte: an unsigned integer 0 to 255 (rule R8). -/
abbrev Byte := BitVec 8

/-- A control or operand register, or a command word (rules R7, R60). -/
abbrev Word := BitVec 32

/-- A SHA-512 word (rules R7, R17). -/
abbrev DWord := BitVec 64

end Sys2Proof
end

