-- ==== Sys2Proof/Config.lean ====
section
/-! DEFINITION. The OPEN parameters of rule R7 (`00_scope.md`; `92_eei_decisions.md` "Open parameters in one
place"), and the two free values of the host's side. The parameters are arguments of the step relation, not state
(rule R15); the model carries one value of them in the constant field `params` of `State`, which no step writes, so that
a statement about every state is a statement for every value of them (log entry 1). The hardware itself has no free
value: no rule leaves a result undefined while a command runs (log entry 2 says what is done with unwritten memory). -/

namespace Sys2Proof

/-- The open parameters (rule R7). -/
structure Params where
  /-- `OPMEM_BYTES`, the size of the operand memory: default 65536, at least 256 (D3). -/
  opmemBytes : Nat
  /-- `CORE_BASE`, where the platform places the register block (D4; no default). -/
  coreBase : Nat
  /-- `MAC_KEY_OFFSET`: default 32, legal 32 to 40 (D23). -/
  macKeyOffset : Nat
  /-- `CHUNK_BYTES`, the pipeline's chunk size: a positive multiple of 16, at most `OPMEM_BYTES` less the space the host
  reserves for its other buffers (D24; no default). -/
  chunkBytes : Nat
  /-- The space the host reserves in OPMEM for the keys, the counter block and whatever other buffers it keeps beside
  the chunk (rule R7, `CHUNK_BYTES`; D24). The host chooses it. -/
  reservedBytes : Nat
deriving DecidableEq, Repr

/-- The defaults of rule R7. `CORE_BASE`, `CHUNK_BYTES` and the reserved space have none: 0, 16 and 194 are DESIGN
CHOICES (log entry 1); 194 holds a password of 10 bytes, the 64 derived bytes, header, tag and counter block side by
side. -/
def Params.default : Params :=
  { opmemBytes := 65536, coreBase := 0, macKeyOffset := 32, chunkBytes := 16, reservedBytes := 194 }

/-- The constraints of rule R7 on the parameters. The reserved space holds at least the keys, which are the 64 derived
bytes, and the 16-byte counter block; the chunk buffer fits in OPMEM beside it. -/
abbrev Params.Legal (p : Params) : Prop :=
  256 ≤ p.opmemBytes ∧ 32 ≤ p.macKeyOffset ∧ p.macKeyOffset ≤ 40 ∧
    0 < p.chunkBytes ∧ p.chunkBytes % 16 = 0 ∧ 64 + 16 ≤ p.reservedBytes ∧
    p.chunkBytes + p.reservedBytes ≤ p.opmemBytes

/-- `(bytes_processed, bytes_total)` of one call of the progress callback (rule R178). -/
structure Progress where
  processed : Nat
  total : Nat
deriving DecidableEq, Repr, Inhabited

/-- FREE VALUE: the counts a file operation on `length` bytes passes in its call number `call`. The spec does not state
which passes count toward `bytes_processed`, nor what `bytes_total` is (rule R178, N13, U25; log entry 15). -/
opaque Config.progressCounts (length call : Nat) : Progress

/-- FREE VALUE: whether a path lacks an extension. The source puts path handling out of scope (rule R175 step 10, N12,
U25; log entry 15). -/
opaque Config.pathLacksExtension (path : List Byte) : Bool

/-- FREE VALUE: the extension of a `format` field without a NUL. The spec takes the bytes before the first NUL and does not
say what the extension is where there is none (rule R175 step 10; log entry 15). -/
opaque Config.extensionWithoutNul (format : List Byte) : List Byte

end Sys2Proof
end

