-- ==== Sys2Proof/Syntax.lean ====
section
/-! DEFINITION. The thirteen commands of rule R62 (`30_encoding.md`), one constructor per row of
`spec/opcode_table.json`. Only SET_KEY has an operand in its word (rule R61): every other operand comes from the
operand registers. -/

namespace Sys2Proof

/-- A command of the core (rule R62). -/
inductive Instr where
  /-- SET_KEY, opcode 0x01; `keyBits` is `ARG`, the key size in bits as a number (rules R61, R88). -/
  | setKey (keyBits : Nat)
  /-- ENCRYPT_BLOCK, opcode 0x02 (rule R89). -/
  | encryptBlock
  /-- DECRYPT_BLOCK, opcode 0x03 (rule R90). -/
  | decryptBlock
  /-- CTR_CRYPT, opcode 0x04 (rule R102). -/
  | ctrCrypt
  /-- SHA_INIT, opcode 0x10 (rule R118). -/
  | shaInit
  /-- SHA_UPDATE, opcode 0x11 (rule R119). -/
  | shaUpdate
  /-- SHA_FINAL, opcode 0x12 (rule R120). -/
  | shaFinal
  /-- HMAC, opcode 0x20 (rule R127). -/
  | hmac
  /-- HMAC_INIT, opcode 0x21 (rule R128). -/
  | hmacInit
  /-- HMAC_UPDATE, opcode 0x22 (rule R129). -/
  | hmacUpdate
  /-- HMAC_FINAL, opcode 0x23 (rule R130). -/
  | hmacFinal
  /-- PBKDF2, opcode 0x30 (rule R136). -/
  | pbkdf2
  /-- ZEROIZE, opcode 0x40 (rule R140). -/
  | zeroize
deriving DecidableEq, Repr

end Sys2Proof
end

