-- ==== Sys2Proof/WellFormed.lean ====
section
/-! DEFINITION. Which terms of `Instr` stand for a command word: `ARG` is a 16-bit unsigned field (rules R60,
R61), so a SET_KEY whose `keyBits` is 65536 or more is no command word at all. Every 16-bit value IS a SET_KEY,
also one that is no key size: that is the execution error `InvalidKeyLength`, not a decode error (rule R62). -/

namespace Sys2Proof

/-- The check on the one field a command word carries (rule R61): SET_KEY's key size fits `ARG`. -/
def Instr.wellFormed : Instr → Bool
  | .setKey keyBits => keyBits < 2 ^ 16
  | .encryptBlock => true
  | .decryptBlock => true
  | .ctrCrypt => true
  | .shaInit => true
  | .shaUpdate => true
  | .shaFinal => true
  | .hmac => true
  | .hmacInit => true
  | .hmacUpdate => true
  | .hmacFinal => true
  | .pbkdf2 => true
  | .zeroize => true

end Sys2Proof
end

