-- ==== Sys2Proof/Decode.lean ====
section
/-! DEFINITION. Command words (`30_encoding.md`): the fields of format `C` (rules R60, R61), the total decoder of
rule R63, the match and mask of every row (rule R62), and after them the encoder. -/

namespace Sys2Proof

/-- Why a command word is illegal: the three cases of rule R63. -/
inductive DecodeError where
  /-- `RSV != 0`, with any `OPC`. -/
  | reservedNonzero
  /-- `ARG != 0` with an `OPC` other than 0x01. -/
  | argumentNonzero
  /-- `OPC` is none of the thirteen listed values. -/
  | unknownOpcode
deriving DecidableEq, Repr

/-- `OPC`, bits 7:0 (rule R60). -/
def opcField (c : Word) : BitVec 8 := c.extractLsb' 0 8

/-- `RSV`, bits 15:8 (rule R60). -/
def rsvField (c : Word) : BitVec 8 := c.extractLsb' 8 8

/-- `ARG`, bits 31:16 (rule R60). -/
def argField (c : Word) : BitVec 16 := c.extractLsb' 16 16

/-- The opcode map for the twelve commands that take no argument (rule R62). -/
def decodeOpcode (opc : BitVec 8) : Except DecodeError Instr :=
  match opc with
  | 0x02#8 => .ok .encryptBlock
  | 0x03#8 => .ok .decryptBlock
  | 0x04#8 => .ok .ctrCrypt
  | 0x10#8 => .ok .shaInit
  | 0x11#8 => .ok .shaUpdate
  | 0x12#8 => .ok .shaFinal
  | 0x20#8 => .ok .hmac
  | 0x21#8 => .ok .hmacInit
  | 0x22#8 => .ok .hmacUpdate
  | 0x23#8 => .ok .hmacFinal
  | 0x30#8 => .ok .pbkdf2
  | 0x40#8 => .ok .zeroize
  | _ => .error .unknownOpcode

/-- The total decoder of rule R63, its tests in the order of the rule's pseudocode. -/
def decode (c : Word) : Except DecodeError Instr :=
  if rsvField c ≠ 0 then .error .reservedNonzero
  else if opcField c = 0x01#8 then .ok (.setKey (argField c).toNat)
  else if argField c ≠ 0 then .error .argumentNonzero
  else decodeOpcode (opcField c)

/-- The host's question about one opcode-table row: a command word is one 32-bit value (rule R60), so bit `k` of
the row is bit `k` of the word, and the bits above `nbits` are 0. -/
def decodeTableWord (nbits w : Nat) : Option Instr :=
  if w % 2 ^ nbits < 2 ^ 32 then
    match decode (BitVec.ofNat 32 (w % 2 ^ nbits)) with
    | .ok i => some i
    | .error _ => none
  else none

/-- `OPC` of each command (rule R62). -/
def Instr.opcode : Instr → BitVec 8
  | .setKey _ => 0x01#8
  | .encryptBlock => 0x02#8
  | .decryptBlock => 0x03#8
  | .ctrCrypt => 0x04#8
  | .shaInit => 0x10#8
  | .shaUpdate => 0x11#8
  | .shaFinal => 0x12#8
  | .hmac => 0x20#8
  | .hmacInit => 0x21#8
  | .hmacUpdate => 0x22#8
  | .hmacFinal => 0x23#8
  | .pbkdf2 => 0x30#8
  | .zeroize => 0x40#8

/-- `ARG` of each command: the key size for SET_KEY, 0 for every other command (rules R60, R61). -/
def Instr.argument : Instr → BitVec 16
  | .setKey keyBits => BitVec.ofNat 16 keyBits
  | .encryptBlock => 0#16
  | .decryptBlock => 0#16
  | .ctrCrypt => 0#16
  | .shaInit => 0#16
  | .shaUpdate => 0#16
  | .shaFinal => 0#16
  | .hmac => 0#16
  | .hmacInit => 0#16
  | .hmacUpdate => 0#16
  | .hmacFinal => 0#16
  | .pbkdf2 => 0#16
  | .zeroize => 0#16

/-- The command word of a command: `ARG`, `RSV = 0`, `OPC` from bit 31 down (rule R60). -/
def encode (i : Instr) : Word := i.argument ++ 0x00#8 ++ i.opcode

/-- A row's `match` column (rule R62). -/
def Instr.matchWord : Instr → Word
  | .setKey _ => 0x00000001#32
  | .encryptBlock => 0x00000002#32
  | .decryptBlock => 0x00000003#32
  | .ctrCrypt => 0x00000004#32
  | .shaInit => 0x00000010#32
  | .shaUpdate => 0x00000011#32
  | .shaFinal => 0x00000012#32
  | .hmac => 0x00000020#32
  | .hmacInit => 0x00000021#32
  | .hmacUpdate => 0x00000022#32
  | .hmacFinal => 0x00000023#32
  | .pbkdf2 => 0x00000030#32
  | .zeroize => 0x00000040#32

/-- A row's `mask` column (rule R62): SET_KEY leaves `ARG` free, every other command fixes all 32 bits. -/
def Instr.maskWord : Instr → Word
  | .setKey _ => 0x0000FFFF#32
  | .encryptBlock => 0xFFFFFFFF#32
  | .decryptBlock => 0xFFFFFFFF#32
  | .ctrCrypt => 0xFFFFFFFF#32
  | .shaInit => 0xFFFFFFFF#32
  | .shaUpdate => 0xFFFFFFFF#32
  | .shaFinal => 0xFFFFFFFF#32
  | .hmac => 0xFFFFFFFF#32
  | .hmacInit => 0xFFFFFFFF#32
  | .hmacUpdate => 0xFFFFFFFF#32
  | .hmacFinal => 0xFFFFFFFF#32
  | .pbkdf2 => 0xFFFFFFFF#32
  | .zeroize => 0xFFFFFFFF#32

end Sys2Proof
end

