-- ==== Sys2Proof/Machine/State.lean ====
section
/-! DEFINITION. The state of the machine: exactly the list of rule R15 (`10_state.md`), plus three fields of the
model's own: the open parameters `params` (log entry 1), the turns to come `turns` and what the host has read
`replies` (log entry 3: the second agent of rule R46, the host). -/

namespace Sys2Proof.Machine

/-- OPMEM as data (rule R26): pairs of an address and a byte, addresses strictly rising. An address that is not
listed holds no value: neither the host nor a command has written it since reset (rules R30, R55). -/
abbrev Memory := List Host.Cell

/-- The phase of a hash or HMAC context (rules R17, R18); the value 3 of the STATUS field never occurs (rule R23). -/
inductive Phase where
  /-- Never initialised since reset or ZEROIZE; 0 in STATUS. -/
  | idle
  /-- Initialised, not finalised; 1 in STATUS. -/
  | active
  /-- Finalised; 2 in STATUS. -/
  | consumed
deriving DecidableEq, Repr

/-- The AES context `AES` (rule R16). -/
structure AesContext where
  /-- `AES.rk`: 240 bytes of round keys; round key `r` is bytes `16*r` to `16*r+15`. -/
  rk : Vector Byte 240
  /-- `AES.Nr`, the round count: 10, 12 or 14 once a key is loaded. -/
  nr : Nat
  /-- `AES.Nk`, the key-word count: 4, 6 or 8 once a key is loaded. -/
  nk : Nat
  /-- `AES.bits`, the key size in bits. -/
  bits : Nat
  /-- `AES.valid`: a key schedule has been derived since reset or ZEROIZE. -/
  valid : Bool
deriving DecidableEq, Repr

/-- A hash state `(H, buf, n, len_hi, len_lo)` (rules R17, R110). -/
structure HashState where
  /-- The running digest, `H[0..7]`. -/
  h : Vector DWord 8
  /-- The 128-byte block buffer. -/
  buf : Vector Byte 128
  /-- The count of buffered bytes, 0 to 127 between operations. -/
  n : Nat
  /-- The high half of the 128-bit count of message bits. -/
  lenHi : DWord
  /-- The low half of the 128-bit count of message bits. -/
  lenLo : DWord
deriving DecidableEq, Repr

/-- The SHA context `SHA` (rule R17): a hash state and its phase. -/
structure ShaContext where
  /-- `SHA.H`, `SHA.buf`, `SHA.n`, `SHA.len_hi`, `SHA.len_lo`. -/
  hash : HashState
  /-- `SHA.st`. -/
  st : Phase
deriving DecidableEq, Repr

/-- The HMAC context `HM` (rule R18). -/
structure HmacContext where
  /-- `HM.inner`, the instance that hashes `(key ^ ipad) || data`. -/
  inner : HashState
  /-- `HM.outer`, the instance that hashes `(key ^ opad) || inner digest`. -/
  outer : HashState
  /-- `HM.st`. -/
  st : Phase
deriving DecidableEq, Repr

/-- The names of the eight operand registers (rule R20). -/
inductive OperandReg where
  | keyAddr
  | keyLen
  | srcAddr
  | srcLen
  | dstAddr
  | dstLen
  | ctrAddr
  | iter
deriving DecidableEq, Repr

/-- The eight operand registers (rule R20). -/
structure OperandRegs where
  /-- `KEY_ADDR`, offset 0x10. -/
  keyAddr : Word
  /-- `KEY_LEN`, offset 0x14. -/
  keyLen : Word
  /-- `SRC_ADDR`, offset 0x18. -/
  srcAddr : Word
  /-- `SRC_LEN`, offset 0x1C. -/
  srcLen : Word
  /-- `DST_ADDR`, offset 0x20. -/
  dstAddr : Word
  /-- `DST_LEN`, offset 0x24. -/
  dstLen : Word
  /-- `CTR_ADDR`, offset 0x28. -/
  ctrAddr : Word
  /-- `ITER`, offset 0x2C. -/
  iter : Word
deriving DecidableEq, Repr

/-- The four bits of `STATUS` that mirror nothing (rule R23). Its fields `KEY_VALID`, `SHA_ST` and `HMAC_ST` equal
`AES.valid`, `SHA.st` and `HM.st`, which have their one home in the contexts; `statusWord` (Machine/Flags.lean)
puts the whole register together. -/
structure StatusFlags where
  /-- `BUSY`, bit 0. -/
  busy : Bool
  /-- `DONE`, bit 1. -/
  done : Bool
  /-- `ERR`, bit 2. -/
  err : Bool
  /-- `ESTICKY`, bit 3. -/
  esticky : Bool
deriving DecidableEq, Repr

/-- The three fields of `ERRINFO` (rule R24); bits 31:24 read as 0. -/
structure ErrInfo where
  /-- `CODE`, bits 7:0. -/
  code : Byte
  /-- `DETAIL`, bits 15:8. -/
  detail : Byte
  /-- `OPC`, bits 23:16. -/
  opc : Byte
deriving DecidableEq, Repr

/-- The ways a command completes with `ERR = 1` (rule R150). -/
inductive CommandError where
  /-- `InvalidKeyLength`: SET_KEY with a key size that is not 128, 192 or 256. -/
  | invalidKeyLength
  /-- `ContextError`, `NO_KEY`: no key schedule is valid. -/
  | noKey
  /-- `ContextError`, `NO_HASH`: the SHA context is not ACTIVE. -/
  | noHash
  /-- `ContextError`, `NO_HMAC`: the HMAC context is not ACTIVE. -/
  | noHmac
  /-- `ContextError`, `BAD_RANGE`: an operand is not inside OPMEM. -/
  | badRange
  /-- `IllegalCommand`: the word does not decode. -/
  | illegalCommand
  /-- `InvalidParameter`: PBKDF2 with `ITER = 0`. -/
  | invalidParameter
deriving DecidableEq, Repr

/-- The four architectural host accesses (rule R45). An offset is counted from `CORE_BASE`, `k` in OPMEM. -/
inductive Access where
  /-- `RegRead(off)`. -/
  | regRead (off : Nat)
  /-- `RegWrite(off, v)`. -/
  | regWrite (off : Nat) (v : Word)
  /-- `MemReadByte(k)`. -/
  | memReadByte (k : Nat)
  /-- `MemWriteByte(k, b)`. -/
  | memWriteByte (k : Nat) (b : Byte)
deriving DecidableEq, Repr

/-- An access as it stands on the platform's bus (rules R40, R45): a host address and a width in bytes, or the
bytes to write, the one at the lowest address first. -/
inductive BusAccess where
  | read (addr width : Nat)
  | write (addr : Nat) (bytes : List Byte)
deriving DecidableEq, Repr

/-- One step of the single total order of rule R50: whose turn it is. -/
inductive Turn where
  /-- An architectural access of the host. -/
  | host (a : Access)
  /-- A bus access of the host, which stands for the architectural accesses it is made of. -/
  | bus (b : BusAccess)
  /-- The core's turn: it completes the command in flight, if there is one (rule R46). -/
  | core
  /-- The platform's reset, the one asynchronous event (rules R30, R157). -/
  | reset
deriving DecidableEq, Repr

/-- What a read gave the host. -/
inductive Reply where
  /-- The 32-bit value of a register read at this offset. -/
  | reg (off : Nat) (v : Word)
  /-- The byte of OPMEM read at `k`; `none` where the cell holds an unknown value (rules R30, R55). -/
  | byte (k : Nat) (b : Option Byte)
deriving DecidableEq, Repr

/-- The machine (rule R15). -/
structure State where
  /-- The open parameters of rule R7: constant, no step writes them (the model's own field, log entry 1). -/
  params : Params
  /-- The operand registers (rule R20). -/
  regs : OperandRegs
  /-- `STATUS` less its mirrored fields (rule R23). -/
  flags : StatusFlags
  /-- `ERRINFO` (rule R24). -/
  errInfo : ErrInfo
  /-- `OPMEM` (rule R26). -/
  opmem : Memory
  /-- `AES` (rule R16). -/
  aes : AesContext
  /-- `SHA` (rule R17). -/
  sha : ShaContext
  /-- `HM` (rule R18). -/
  hm : HmacContext
  /-- `LATCH`, the command word of the command in flight (rules R15, R29). -/
  latch : Word
  /-- The turns to come, the next one first: the host's program (the model's own field, log entry 3). -/
  turns : List Turn
  /-- What the host has read, the latest first (the model's own field, log entry 3). -/
  replies : List Reply
deriving DecidableEq, Repr

/-- Why the machine stops with a fault: never. What `93_implementation_defined.md` calls a fault is a defined error, a
command that completes with `ERR = 1` and goes on (rule R152); every access outside the host contract is refused (U1,
U3, U5). -/
inductive Fault where
deriving DecidableEq, Repr

/-- Why a step has no meaning. -/
inductive Refusal where
  /-- Raised by `exec` for a command that has no meaning yet (none is left). Safe. -/
  | notModelled (mnemonic : String)
  /-- Raised by a command one of whose input operands holds an OPMEM byte that nothing has written since reset: the
  model gives it no value and refuses (rules R30, R55, U3). Safe. -/
  | unwrittenByte (addr : Nat)
  /-- Raised by any host access but a STATUS read while `BUSY = 1` (rules R46, R196, U1). Safe. -/
  | accessWhileBusy
  /-- Raised by a register access that is not 32 bits wide or not 4-byte aligned (rules R32, R45, U5). Safe. -/
  | badRegisterAccess (off : Nat)
  /-- Raised by a host access (Machine/HostPort.lean) to an address the hardware does not have: in the window at or
  beyond `OPMEM_BYTES`, below `CORE_BASE`, or above the block (rules R32, R40, R45, U5). Safe. -/
  | noSuchAddress (addr : Nat)
deriving DecidableEq, Repr

/-- The all-zero hash state (rules R30, R120, R140). -/
def HashState.zero : HashState :=
  { h := Vector.replicate 8 0, buf := Vector.replicate 128 0, n := 0, lenHi := 0, lenLo := 0 }

/-- The cleared AES context (rules R30, R140). -/
def AesContext.cleared : AesContext :=
  { rk := Vector.replicate 240 0, nr := 0, nk := 0, bits := 0, valid := false }

/-- The cleared SHA context (rules R30, R140). -/
def ShaContext.cleared : ShaContext := { hash := HashState.zero, st := .idle }

/-- The cleared HMAC context (rules R30, R140). -/
def HmacContext.cleared : HmacContext :=
  { inner := HashState.zero, outer := HashState.zero, st := .idle }

/-- The operand registers, all 0 (rules R20, R30, R140). -/
def OperandRegs.zero : OperandRegs :=
  { keyAddr := 0, keyLen := 0, srcAddr := 0, srcLen := 0, dstAddr := 0, dstLen := 0, ctrAddr := 0, iter := 0 }

/-- `ERRINFO` with no error to report (rules R24, R30). -/
def ErrInfo.zero : ErrInfo := { code := 0, detail := 0, opc := 0 }

/-- The machine right after reset (rule R30), with the default parameters of rule R7, no turn to come and nothing
read yet. -/
def State.reset : State :=
  { params := Params.default
    regs := OperandRegs.zero
    flags := { busy := false, done := false, err := false, esticky := false }
    errInfo := ErrInfo.zero
    opmem := []
    aes := AesContext.cleared
    sha := ShaContext.cleared
    hm := HmacContext.cleared
    latch := 0
    turns := []
    replies := [] }

end Sys2Proof.Machine
end

