-- ==== Sys2Proof/Machine/Flags.lean ====
section
/-! DEFINITION. `STATUS` and `ERRINFO` as the host reads them (`10_state.md` rules R23, R24, R25) and the numbers of
the errors (`60_exceptions.md` rule R150). No operation of this hardware has an arithmetic condition code
(rule R25). -/

namespace Sys2Proof.Machine

/-- The two-bit value of a phase field (rule R23): 0 IDLE, 1 ACTIVE, 2 CONSUMED. -/
def Phase.code : Phase → BitVec 2
  | .idle => 0#2
  | .active => 1#2
  | .consumed => 2#2

/-- The value of `STATUS` (rule R23), from bit 31 down: reserved, `HMAC_ST`, `SHA_ST`, `KEY_VALID`, `ESTICKY`,
`ERR`, `DONE`, `BUSY`. -/
def statusWord (s : State) : Word :=
  0#23 ++ s.hm.st.code ++ s.sha.st.code ++ BitVec.ofBool s.aes.valid ++ BitVec.ofBool s.flags.esticky ++
    BitVec.ofBool s.flags.err ++ BitVec.ofBool s.flags.done ++ BitVec.ofBool s.flags.busy

/-- The value of `ERRINFO` (rule R24), from bit 31 down: reserved, `OPC`, `DETAIL`, `CODE`. -/
def errInfoWord (s : State) : Word := 0#8 ++ s.errInfo.opc ++ s.errInfo.detail ++ s.errInfo.code

/-- `CODE` of an error (rule R150). -/
def CommandError.code : CommandError → Byte
  | .invalidKeyLength => 1#8
  | .noKey => 6#8
  | .noHash => 6#8
  | .noHmac => 6#8
  | .badRange => 6#8
  | .illegalCommand => 7#8
  | .invalidParameter => 8#8

/-- `DETAIL` of an error (rule R150): 0 for every code but 6. -/
def CommandError.detail : CommandError → Byte
  | .invalidKeyLength => 0#8
  | .noKey => 1#8
  | .noHash => 2#8
  | .noHmac => 3#8
  | .badRange => 4#8
  | .illegalCommand => 0#8
  | .invalidParameter => 0#8

end Sys2Proof.Machine
end

