-- ==== Sys2Proof/Machine/Memory.lean ====
section
/-! DEFINITION. OPMEM as data (`10_state.md` rule R26; `20_memory.md` rules R43, R44, R55): one byte read and
written, and byte strings made of them in ascending address order. -/

namespace Sys2Proof.Machine

/-- The byte at an address; `none` where nothing has been written since reset (rule R55). -/
def Memory.byteAt : Memory → Nat → Option Byte
  | [], _ => none
  | (a, b) :: m, k => if a = k then some b else Memory.byteAt m k

/-- `OPMEM[k] <- b`, the list kept in rising order of address. -/
def Memory.write : Memory → Nat → Byte → Memory
  | [], k, b => [(k, b)]
  | (a, x) :: m, k, b =>
    if k < a then (k, b) :: (a, x) :: m
    else if k = a then (k, b) :: m
    else (a, x) :: Memory.write m k b

/-- `MemRead(addr, n)` (rule R9), or the first address of the operand that nothing has written (rule R55). -/
def Memory.read (m : Memory) (addr : Nat) : Nat → Except Nat (List Byte)
  | 0 => .ok []
  | n + 1 =>
    match m.byteAt addr with
    | none => .error addr
    | some b =>
      match Memory.read m (addr + 1) n with
      | .ok bs => .ok (b :: bs)
      | .error k => .error k

/-- `MemWrite(addr, n, v)` with `n = len(v)` (rule R9). -/
def Memory.writeBytes (m : Memory) (addr : Nat) : List Byte → Memory
  | [] => m
  | b :: bs => Memory.writeBytes (m.write addr b) (addr + 1) bs

/-- `OPMEM[k] <- 0x00` for every `k` below the size (rule R140). -/
def Memory.zeroed (size : Nat) : Memory := (List.range size).map fun k => (k, 0x00#8)

/-- The canonical form: addresses strictly rising, and all of them inside OPMEM (rule R26). -/
abbrev Memory.wf (m : Memory) (size : Nat) : Prop :=
  List.Pairwise (fun c d => c.1 < d.1) m ∧ ∀ c ∈ m, c.1 < size

end Sys2Proof.Machine
end

