-- ==== Sys2Proof/Machine/Operands.lean ====
section
/-! DEFINITION. Operand assembly (`30_encoding.md` rule R61; `20_memory.md` rules R41, R42): an operand is an OPMEM
address and a byte count; the address is the value of its register, unchanged (the one addressing mode). The
registers by name (`10_state.md` rule R20). -/

namespace Sys2Proof.Machine

/-- An operand `(addr, n)` (rule R41). -/
structure Operand where
  addr : Nat
  len : Nat
deriving DecidableEq, Repr

/-- `x[NAME]` (rules R9, R20). -/
def OperandRegs.get (r : OperandRegs) : OperandReg → Word
  | .keyAddr => r.keyAddr
  | .keyLen => r.keyLen
  | .srcAddr => r.srcAddr
  | .srcLen => r.srcLen
  | .dstAddr => r.dstAddr
  | .dstLen => r.dstLen
  | .ctrAddr => r.ctrAddr
  | .iter => r.iter

/-- `x[NAME] <- v` (rules R9, R20). -/
def OperandRegs.set (r : OperandRegs) (name : OperandReg) (v : Word) : OperandRegs :=
  match name with
  | .keyAddr => { r with keyAddr := v }
  | .keyLen => { r with keyLen := v }
  | .srcAddr => { r with srcAddr := v }
  | .srcLen => { r with srcLen := v }
  | .dstAddr => { r with dstAddr := v }
  | .dstLen => { r with dstLen := v }
  | .ctrAddr => { r with ctrAddr := v }
  | .iter => { r with iter := v }

/-- The offset of an operand register from `CORE_BASE` (rule R20). -/
def OperandReg.offset : OperandReg → Nat
  | .keyAddr => 0x10
  | .keyLen => 0x14
  | .srcAddr => 0x18
  | .srcLen => 0x1C
  | .dstAddr => 0x20
  | .dstLen => 0x24
  | .ctrAddr => 0x28
  | .iter => 0x2C

/-- The operand registers in the order of their offsets (rule R20). -/
def operandRegNames : List OperandReg :=
  [.keyAddr, .keyLen, .srcAddr, .srcLen, .dstAddr, .dstLen, .ctrAddr, .iter]

/-- The operand register at an offset, if there is one (rule R20). -/
def operandRegAt (off : Nat) : Option OperandReg := operandRegNames.find? fun r => r.offset == off

/-- The value of an operand register as the unsigned integer the rules compute with (rule R61). -/
def State.reg (s : State) (r : OperandReg) : Nat := (s.regs.get r).toNat

/-- An AES key of `bits` bits: (`KEY_ADDR`, `ARG/8`) (rule R61). -/
def aesKeyOperand (bits : Nat) (s : State) : Operand := { addr := s.reg .keyAddr, len := bits / 8 }

/-- A MAC key or password: (`KEY_ADDR`, `KEY_LEN`) (rule R61). -/
def keyOperand (s : State) : Operand := { addr := s.reg .keyAddr, len := s.reg .keyLen }

/-- One input block: (`SRC_ADDR`, 16) (rule R61). -/
def srcBlockOperand (s : State) : Operand := { addr := s.reg .srcAddr, len := 16 }

/-- Input data or a salt: (`SRC_ADDR`, `SRC_LEN`) (rule R61). -/
def srcOperand (s : State) : Operand := { addr := s.reg .srcAddr, len := s.reg .srcLen }

/-- The counter block: (`CTR_ADDR`, 16) (rules R27, R61). -/
def ctrOperand (s : State) : Operand := { addr := s.reg .ctrAddr, len := 16 }

/-- An output of `len` bytes: (`DST_ADDR`, `len`); 16 for a block, 64 for a digest or tag, `SRC_LEN` for
CTR_CRYPT, `DST_LEN` for PBKDF2 (rule R61). -/
def dstOperand (len : Nat) (s : State) : Operand := { addr := s.reg .dstAddr, len := len }

/-- The operand range rule (rule R41): `addr + n <= OPMEM_BYTES` in the natural numbers. -/
def Operand.valid (o : Operand) (s : State) : Bool := o.addr + o.len ≤ s.params.opmemBytes

/-- The input operands of a command, in the order its rule lists them (rule R61). -/
def inputOperands (i : Instr) (s : State) : List Operand :=
  match i with
  | .setKey keyBits => [aesKeyOperand keyBits s]
  | .encryptBlock => [srcBlockOperand s]
  | .decryptBlock => [srcBlockOperand s]
  | .ctrCrypt => [srcOperand s, ctrOperand s]
  | .shaInit => []
  | .shaUpdate => [srcOperand s]
  | .shaFinal => []
  | .hmac => [keyOperand s, srcOperand s]
  | .hmacInit => [keyOperand s]
  | .hmacUpdate => [srcOperand s]
  | .hmacFinal => []
  | .pbkdf2 => [keyOperand s, srcOperand s]
  | .zeroize => []

/-- The output operands of a command, in the order they are written (rules R43, R61); ZEROIZE names no operand and
writes all of OPMEM (rule R140). -/
def outputOperands (i : Instr) (s : State) : List Operand :=
  match i with
  | .setKey _ => []
  | .encryptBlock => [dstOperand 16 s]
  | .decryptBlock => [dstOperand 16 s]
  | .ctrCrypt => [dstOperand (s.reg .srcLen) s, ctrOperand s]
  | .shaInit => []
  | .shaUpdate => []
  | .shaFinal => [dstOperand 64 s]
  | .hmac => [dstOperand 64 s]
  | .hmacInit => []
  | .hmacUpdate => []
  | .hmacFinal => [dstOperand 64 s]
  | .pbkdf2 => [dstOperand (s.reg .dstLen) s]
  | .zeroize => []

/-- The operand registers a command reads (rules R20, R61). -/
def registersRead (i : Instr) : List OperandReg :=
  match i with
  | .setKey _ => [.keyAddr]
  | .encryptBlock => [.srcAddr, .dstAddr]
  | .decryptBlock => [.srcAddr, .dstAddr]
  | .ctrCrypt => [.srcAddr, .srcLen, .dstAddr, .ctrAddr]
  | .shaInit => []
  | .shaUpdate => [.srcAddr, .srcLen]
  | .shaFinal => [.dstAddr]
  | .hmac => [.keyAddr, .keyLen, .srcAddr, .srcLen, .dstAddr]
  | .hmacInit => [.keyAddr, .keyLen]
  | .hmacUpdate => [.srcAddr, .srcLen]
  | .hmacFinal => [.dstAddr]
  | .pbkdf2 => [.keyAddr, .keyLen, .srcAddr, .srcLen, .dstAddr, .dstLen, .iter]
  | .zeroize => []

end Sys2Proof.Machine
end

