-- ==== Sys2Proof/Machine/Ops.lean ====
section
/-! DEFINITION. The named operations every command is made of: issue (rule R22), the two completions
(`60_exceptions.md` rules R151, R152: a failed completion is this hardware's trap entry), the clearing of `ESTICKY`
that stands in the place of a return from trap (rule R154), reading an input operand and writing an output operand
(`00_scope.md` rule R9), and the reset event (rule R30). -/

namespace Sys2Proof.Machine

/-- The outcome of a step of this machine. -/
abbrev Result := Host.Outcome State Fault Refusal

/-- Issue of the command word `c` (rule R22). -/
def issue (c : Word) (s : State) : State :=
  { s with
    latch := c
    flags := { s.flags with busy := true, done := false, err := false }
    errInfo := ErrInfo.zero }

/-- Successful completion (rule R151). `KEY_VALID`, `SHA_ST` and `HMAC_ST` mirror the contexts by construction. -/
def complete (s : State) : State :=
  { s with
    flags := { s.flags with busy := false, done := true, err := false }
    errInfo := ErrInfo.zero }

/-- Failed completion, the hardware's trap entry (rule R152): the cause and bits 7:0 of the latched command word go
to `ERRINFO`; nothing else is saved, and control stays with the host. -/
def raise (e : CommandError) (s : State) : State :=
  { s with
    flags := { busy := false, done := true, err := true, esticky := true }
    errInfo := { code := e.code, detail := e.detail, opc := opcField s.latch } }

/-- `CLRERR`: the one thing that outlives a failure, `ESTICKY`, is cleared (rules R23, R154). -/
def clearSticky (s : State) : State := { s with flags := { s.flags with esticky := false } }

/-- The command ends without error. -/
def succeed (s : State) : Result := .next (complete s)

/-- The command ends with `raise e` (rules R9, R152). -/
def failed (e : CommandError) (s : State) : Result := .next (raise e s)

/-- Whether every operand a command names is valid (rule R41). -/
def allValid (os : List Operand) (s : State) : Bool := os.all fun o => o.valid s

/-- `MemRead` of an input operand (rule R9); refused where the operand holds an unwritten byte (rule R55). -/
def withInput (o : Operand) (s : State) (go : List Byte → Result) : Result :=
  match s.opmem.read o.addr o.len with
  | .ok bs => go bs
  | .error k => .refused (.unwrittenByte k)

/-- `MemWrite` of an output operand (rule R9). -/
def store (o : Operand) (bs : List Byte) (s : State) : State :=
  { s with opmem := s.opmem.writeBytes o.addr bs }

/-- `HM.inner <- all zero ; HM.outer <- all zero ; HM.st <- CONSUMED` (rules R127, R130, R136). -/
def consumeHmac (s : State) : State :=
  { s with hm := { inner := HashState.zero, outer := HashState.zero, st := .consumed } }

/-- The reset event (rules R30, R190): every register, flag and context takes its reset value and OPMEM becomes
unspecified, also when a command is in flight. The parameters are the platform's, and what the host does next and
has read already is the host's: neither is reset. -/
def applyReset (s : State) : State :=
  { State.reset with params := s.params, turns := s.turns, replies := s.replies }

end Sys2Proof.Machine
end

