-- ==== Sys2Proof/Machine/Control.lean ====
section
/-! DEFINITION. The control command (`45_control.md` rule R140). The other system-level operations of rule R141 do not
exist on this hardware. -/

namespace Sys2Proof.Machine

/-- The clearing of rule R140: the three contexts, the operand registers, every byte of OPMEM, and `LATCH`, which like
all the rest is in its reset state afterwards (rule R140 "Corner cases", rule R30). `ESTICKY` is not touched. -/
def zeroizeAll (s : State) : State :=
  { s with
    aes := AesContext.cleared
    sha := ShaContext.cleared
    hm := HmacContext.cleared
    regs := OperandRegs.zero
    opmem := Memory.zeroed s.params.opmemBytes
    latch := 0 }

/-- ZEROIZE (rule R140): it cannot fail. -/
def execZeroize (s : State) : Result := succeed (zeroizeAll s)

end Sys2Proof.Machine
end

