-- ==== Sys2Proof/Machine/Bytes.lean ====
section
/-! DEFINITION. Byte strings (`00_scope.md` rule R8; `20_memory.md` rule R44): a byte string is a list of bytes,
index 0 first; the multi-byte quantities inside the algorithms are big-endian. -/

namespace Sys2Proof.Machine

/-- `zeros(n)` (rule R8). -/
def zeros (n : Nat) : List Byte := List.replicate n 0x00#8

/-- `rep(v, n)` (rule R8). -/
def rep (v : Byte) (n : Nat) : List Byte := List.replicate n v

/-- The substring of `n` bytes from index `a`: `B[a..a+n)` (rule R8). -/
def slice (l : List Byte) (a n : Nat) : List Byte := (l.drop a).take n

/-- `A ^ B`, byte by byte (rule R8); for byte strings of unequal length, up to the end of the shorter. -/
def xorBytes (a b : List Byte) : List Byte := List.zipWith (fun x y => x ^^^ y) a b

/-- The `k`-byte big-endian encoding of `v mod 256^k` (rule R8). -/
def beBytes : Nat → Nat → List Byte
  | 0, _ => []
  | k + 1, v => beBytes k (v / 256) ++ [BitVec.ofNat 8 v]

/-- `be32(n)` (rule R8). -/
def be32 (v : Nat) : List Byte := beBytes 4 v

/-- `be64(n)` (rule R8). -/
def be64 (v : DWord) : List Byte := beBytes 8 v.toNat

/-- `be128(n)` (rule R8). -/
def be128 (v : Nat) : List Byte := beBytes 16 v

/-- `frombe(B)` (rule R8). -/
def frombe (l : List Byte) : Nat := l.foldl (fun acc b => 256 * acc + b.toNat) 0

/-- The unsigned integer of bytes in ascending address order, the lowest byte least significant: the byte lanes of
rule R45, used by the bus alone. -/
def fromLanes : List Byte → Nat
  | [] => 0
  | b :: l => b.toNat + 256 * fromLanes l

/-- A byte string stored in an array of `n` bytes: cut at `n`, and followed by zeros up to `n` (rules R16, R88). -/
def fixed (n : Nat) (l : List Byte) : Vector Byte n := Vector.ofFn fun i => l.getD i.val 0x00#8

end Sys2Proof.Machine
end

