-- ==== Sys2Proof/Machine/AesCipher.lean ====
section
/-! DEFINITION. The Block Cipher Engine as pure functions (`40_aes_block.md` rules R80 to R87): the field, the S-box,
the key schedule, the four steps on the state, and the block functions. -/

namespace Sys2Proof.Machine

/-- A 16-byte block, byte `r + 4c` being row `r`, column `c` of the matrix (rule R83). -/
abbrev Block := Vector Byte 16

/-- The round-key storage `rk` (rule R16). -/
abbrev RoundKeys := Vector Byte 240

/-- Multiplication by x (rule R80). -/
def xtime (a : Byte) : Byte := (a <<< 1) ^^^ (if a.getLsbD 7 then 0x1B#8 else 0x00#8)

/-- `xtime^i(a)` (rule R80). -/
def xtimes : Nat → Byte → Byte
  | 0, a => a
  | i + 1, a => xtime (xtimes i a)

/-- Multiplication in GF(2^8) (rule R80): the exclusive-or of `xtime^i(a)` over the set bits `i` of `b`. -/
def gmul (a b : Byte) : Byte :=
  (List.range 8).foldl (fun acc i => if b.getLsbD i then acc ^^^ xtimes i a else acc) 0x00#8

/-- `SBOX` (rule R81): sixteen rows by the high nibble of the index, sixteen columns by the low nibble. -/
def sboxRows : List (List Byte) :=
  [
   [0x63, 0x7c, 0x77, 0x7b, 0xf2, 0x6b, 0x6f, 0xc5, 0x30, 0x01, 0x67, 0x2b, 0xfe, 0xd7, 0xab, 0x76],
   [0xca, 0x82, 0xc9, 0x7d, 0xfa, 0x59, 0x47, 0xf0, 0xad, 0xd4, 0xa2, 0xaf, 0x9c, 0xa4, 0x72, 0xc0],
   [0xb7, 0xfd, 0x93, 0x26, 0x36, 0x3f, 0xf7, 0xcc, 0x34, 0xa5, 0xe5, 0xf1, 0x71, 0xd8, 0x31, 0x15],
   [0x04, 0xc7, 0x23, 0xc3, 0x18, 0x96, 0x05, 0x9a, 0x07, 0x12, 0x80, 0xe2, 0xeb, 0x27, 0xb2, 0x75],
   [0x09, 0x83, 0x2c, 0x1a, 0x1b, 0x6e, 0x5a, 0xa0, 0x52, 0x3b, 0xd6, 0xb3, 0x29, 0xe3, 0x2f, 0x84],
   [0x53, 0xd1, 0x00, 0xed, 0x20, 0xfc, 0xb1, 0x5b, 0x6a, 0xcb, 0xbe, 0x39, 0x4a, 0x4c, 0x58, 0xcf],
   [0xd0, 0xef, 0xaa, 0xfb, 0x43, 0x4d, 0x33, 0x85, 0x45, 0xf9, 0x02, 0x7f, 0x50, 0x3c, 0x9f, 0xa8],
   [0x51, 0xa3, 0x40, 0x8f, 0x92, 0x9d, 0x38, 0xf5, 0xbc, 0xb6, 0xda, 0x21, 0x10, 0xff, 0xf3, 0xd2]] ++ [
   [0xcd, 0x0c, 0x13, 0xec, 0x5f, 0x97, 0x44, 0x17, 0xc4, 0xa7, 0x7e, 0x3d, 0x64, 0x5d, 0x19, 0x73],
   [0x60, 0x81, 0x4f, 0xdc, 0x22, 0x2a, 0x90, 0x88, 0x46, 0xee, 0xb8, 0x14, 0xde, 0x5e, 0x0b, 0xdb],
   [0xe0, 0x32, 0x3a, 0x0a, 0x49, 0x06, 0x24, 0x5c, 0xc2, 0xd3, 0xac, 0x62, 0x91, 0x95, 0xe4, 0x79],
   [0xe7, 0xc8, 0x37, 0x6d, 0x8d, 0xd5, 0x4e, 0xa9, 0x6c, 0x56, 0xf4, 0xea, 0x65, 0x7a, 0xae, 0x08],
   [0xba, 0x78, 0x25, 0x2e, 0x1c, 0xa6, 0xb4, 0xc6, 0xe8, 0xdd, 0x74, 0x1f, 0x4b, 0xbd, 0x8b, 0x8a],
   [0x70, 0x3e, 0xb5, 0x66, 0x48, 0x03, 0xf6, 0x0e, 0x61, 0x35, 0x57, 0xb9, 0x86, 0xc1, 0x1d, 0x9e],
   [0xe1, 0xf8, 0x98, 0x11, 0x69, 0xd9, 0x8e, 0x94, 0x9b, 0x1e, 0x87, 0xe9, 0xce, 0x55, 0x28, 0xdf],
   [0x8c, 0xa1, 0x89, 0x0d, 0xbf, 0xe6, 0x42, 0x68, 0x41, 0x99, 0x2d, 0x0f, 0xb0, 0x54, 0xbb, 0x16]]

/-- `INVSBOX` (rule R81), laid out like `SBOX`. -/
def invSboxRows : List (List Byte) :=
  [
   [0x52, 0x09, 0x6a, 0xd5, 0x30, 0x36, 0xa5, 0x38, 0xbf, 0x40, 0xa3, 0x9e, 0x81, 0xf3, 0xd7, 0xfb],
   [0x7c, 0xe3, 0x39, 0x82, 0x9b, 0x2f, 0xff, 0x87, 0x34, 0x8e, 0x43, 0x44, 0xc4, 0xde, 0xe9, 0xcb],
   [0x54, 0x7b, 0x94, 0x32, 0xa6, 0xc2, 0x23, 0x3d, 0xee, 0x4c, 0x95, 0x0b, 0x42, 0xfa, 0xc3, 0x4e],
   [0x08, 0x2e, 0xa1, 0x66, 0x28, 0xd9, 0x24, 0xb2, 0x76, 0x5b, 0xa2, 0x49, 0x6d, 0x8b, 0xd1, 0x25],
   [0x72, 0xf8, 0xf6, 0x64, 0x86, 0x68, 0x98, 0x16, 0xd4, 0xa4, 0x5c, 0xcc, 0x5d, 0x65, 0xb6, 0x92],
   [0x6c, 0x70, 0x48, 0x50, 0xfd, 0xed, 0xb9, 0xda, 0x5e, 0x15, 0x46, 0x57, 0xa7, 0x8d, 0x9d, 0x84],
   [0x90, 0xd8, 0xab, 0x00, 0x8c, 0xbc, 0xd3, 0x0a, 0xf7, 0xe4, 0x58, 0x05, 0xb8, 0xb3, 0x45, 0x06],
   [0xd0, 0x2c, 0x1e, 0x8f, 0xca, 0x3f, 0x0f, 0x02, 0xc1, 0xaf, 0xbd, 0x03, 0x01, 0x13, 0x8a, 0x6b]] ++ [
   [0x3a, 0x91, 0x11, 0x41, 0x4f, 0x67, 0xdc, 0xea, 0x97, 0xf2, 0xcf, 0xce, 0xf0, 0xb4, 0xe6, 0x73],
   [0x96, 0xac, 0x74, 0x22, 0xe7, 0xad, 0x35, 0x85, 0xe2, 0xf9, 0x37, 0xe8, 0x1c, 0x75, 0xdf, 0x6e],
   [0x47, 0xf1, 0x1a, 0x71, 0x1d, 0x29, 0xc5, 0x89, 0x6f, 0xb7, 0x62, 0x0e, 0xaa, 0x18, 0xbe, 0x1b],
   [0xfc, 0x56, 0x3e, 0x4b, 0xc6, 0xd2, 0x79, 0x20, 0x9a, 0xdb, 0xc0, 0xfe, 0x78, 0xcd, 0x5a, 0xf4],
   [0x1f, 0xdd, 0xa8, 0x33, 0x88, 0x07, 0xc7, 0x31, 0xb1, 0x12, 0x10, 0x59, 0x27, 0x80, 0xec, 0x5f],
   [0x60, 0x51, 0x7f, 0xa9, 0x19, 0xb5, 0x4a, 0x0d, 0x2d, 0xe5, 0x7a, 0x9f, 0x93, 0xc9, 0x9c, 0xef],
   [0xa0, 0xe0, 0x3b, 0x4d, 0xae, 0x2a, 0xf5, 0xb0, 0xc8, 0xeb, 0xbb, 0x3c, 0x83, 0x53, 0x99, 0x61],
   [0x17, 0x2b, 0x04, 0x7e, 0xba, 0x77, 0xd6, 0x26, 0xe1, 0x69, 0x14, 0x63, 0x55, 0x21, 0x0c, 0x7d]]

/-- The entry of a table of sixteen rows at an index (rule R81). -/
def tableEntry (rows : List (List Byte)) (a : Byte) : Byte :=
  (rows.getD (a.toNat / 16) []).getD (a.toNat % 16) 0x00#8

/-- `SBOX[a]` (rule R81). -/
def sbox (a : Byte) : Byte := tableEntry sboxRows a

/-- `INVSBOX[a]` (rule R81). -/
def invSbox (a : Byte) : Byte := tableEntry invSboxRows a

/-- `RotWord` on a word of 4 bytes (rule R82). -/
def rotWord (w : List Byte) : List Byte := w.drop 1 ++ w.take 1

/-- `SubWord` on a word of 4 bytes (rule R82). -/
def subWord (w : List Byte) : List Byte := w.map sbox

/-- `Rcon(j) = [rc(j), 0, 0, 0]`, `rc(1) = 0x01`, `rc(j+1) = xtime(rc(j))` (rule R82). -/
def rcon (j : Nat) : List Byte := [xtimes (j - 1) 0x01#8, 0x00#8, 0x00#8, 0x00#8]

/-- The word `t` that the schedule combines with `w[i-Nk]`, made from `w[i-1]` (rule R82; conflict C8: the AES-256
extra substitution is at `i mod 8 = 4`). -/
def scheduleTemp (nk i : Nat) (prev : List Byte) : List Byte :=
  if i % nk = 0 then xorBytes (subWord (rotWord prev)) (rcon (i / nk))
  else if nk = 8 ∧ i % 8 = 4 then subWord prev
  else prev

/-- The words `w[0..i-1]` followed by `w[i]` (rule R82). -/
def appendKeyWord (nk : Nat) (w : List (List Byte)) (i : Nat) : List (List Byte) :=
  w ++ [xorBytes (w.getD (i - nk) []) (scheduleTemp nk i (w.getD (i - 1) []))]

/-- The first `Nk` words: `w[i] = key[4i .. 4i+4)` (rule R82). -/
def masterKeyWords (key : List Byte) (nk : Nat) : List (List Byte) :=
  (List.range nk).map fun i => slice key (4 * i) 4

/-- `Nk` (rule R82). -/
def keyWordCount (bits : Nat) : Nat := bits / 32

/-- `Nr` (rule R82). -/
def roundCount (bits : Nat) : Nat := keyWordCount bits + 6

/-- `KeyExpand`: the words `w[0 .. 4*(Nr+1)-1]` (rule R82). -/
def keyExpand (key : List Byte) (bits : Nat) : List (List Byte) :=
  let nk := keyWordCount bits
  (List.range' nk (4 * (roundCount bits + 1) - nk)).foldl (appendKeyWord nk) (masterKeyWords key nk)

/-- The AES context a successful SET_KEY leaves: `w[0] || ... || zeros(240 - 16*(Nr+1))` (rules R16, R88). -/
def AesContext.ofKey (key : List Byte) (bits : Nat) : AesContext :=
  { rk := fixed 240 (keyExpand key bits).flatten
    nr := roundCount bits
    nk := keyWordCount bits
    bits := bits
    valid := true }

/-- `AddRoundKey(S, rk, r)[i] = S[i] ^ rk[16r + i]` (rule R83). -/
def addRoundKey (S : Block) (rk : RoundKeys) (r : Nat) : Block :=
  Vector.ofFn fun i => S[i] ^^^ rk.toList.getD (16 * r + i.val) 0x00#8

/-- `SubBytes` (rule R84). -/
def subBytes (S : Block) : Block := S.map sbox

/-- `InvSubBytes` (rule R84). -/
def invSubBytes (S : Block) : Block := S.map invSbox

/-- `ShiftRows(S)[r + 4c] = S[r + 4*((c + r) mod 4)]` (rule R85), at index `i = r + 4c`. -/
def shiftRows (S : Block) : Block :=
  Vector.ofFn fun i => S[i.val % 4 + 4 * ((i.val / 4 + i.val % 4) % 4)]'(by omega)

/-- `InvShiftRows(S)[r + 4*((c + r) mod 4)] = S[r + 4c]` (rule R85), read at index `i = r + 4c'` with
`c' = (c + r) mod 4`, so `c = (c' - r) mod 4`. -/
def invShiftRows (S : Block) : Block :=
  Vector.ofFn fun i => S[i.val % 4 + 4 * ((i.val / 4 + 4 - i.val % 4) % 4)]'(by omega)

/-- Row `r` of column `c` of the matrix, `r` taken mod 4 (rule R83). -/
def cell (S : Block) (c : Fin 4) (r : Nat) : Byte := S[r % 4 + 4 * c.val]'(by omega)

/-- `MixColumns` (rule R86): the matrix is circulant, so row `r` is `2*a(r) ^ 3*a(r+1) ^ a(r+2) ^ a(r+3)` with the
indices mod 4. -/
def mixColumns (S : Block) : Block :=
  Vector.ofFn fun i =>
    let c : Fin 4 := ⟨i.val / 4, by omega⟩
    let r := i.val % 4
    gmul 0x02#8 (cell S c r) ^^^ gmul 0x03#8 (cell S c (r + 1)) ^^^ cell S c (r + 2) ^^^ cell S c (r + 3)

/-- `InvMixColumns` (rule R86): row `r` is `14*a(r) ^ 11*a(r+1) ^ 13*a(r+2) ^ 9*a(r+3)`. -/
def invMixColumns (S : Block) : Block :=
  Vector.ofFn fun i =>
    let c : Fin 4 := ⟨i.val / 4, by omega⟩
    let r := i.val % 4
    gmul 0x0E#8 (cell S c r) ^^^ gmul 0x0B#8 (cell S c (r + 1)) ^^^ gmul 0x0D#8 (cell S c (r + 2)) ^^^
      gmul 0x09#8 (cell S c (r + 3))

/-- One full round of `AES_ENC` (rule R87). -/
def encryptRound (rk : RoundKeys) (S : Block) (r : Nat) : Block :=
  addRoundKey (mixColumns (shiftRows (subBytes S))) rk r

/-- One full round of `AES_DEC` (rule R87). -/
def decryptRound (rk : RoundKeys) (S : Block) (r : Nat) : Block :=
  invMixColumns (addRoundKey (invSubBytes (invShiftRows S)) rk r)

/-- `AES_ENC(ks, B)` (rule R87): the initial key-add, the rounds `1 .. Nr-1`, the last round without column mixing. -/
def aesEnc (rk : RoundKeys) (nr : Nat) (B : Block) : Block :=
  let S := (List.range' 1 (nr - 1)).foldl (encryptRound rk) (addRoundKey B rk 0)
  addRoundKey (shiftRows (subBytes S)) rk nr

/-- `AES_DEC(ks, B)` (rule R87): the rounds `Nr-1` down to `1`. -/
def aesDec (rk : RoundKeys) (nr : Nat) (B : Block) : Block :=
  let S := (List.range' 1 (nr - 1)).reverse.foldl (decryptRound rk) (addRoundKey B rk nr)
  addRoundKey (invSubBytes (invShiftRows S)) rk 0

end Sys2Proof.Machine
end

