-- ==== Sys2Proof/Machine/AesBlock.lean ====
section
/-! DEFINITION. The commands of the Block Cipher Engine (`40_aes_block.md` rules R88 to R90). -/

namespace Sys2Proof.Machine

/-- The legal key sizes `KEY_BITS_SET` (rules R7, R88). -/
def legalKeyBits (bits : Nat) : Bool := bits == 128 || bits == 192 || bits == 256

/-- Replace the AES context whole (rules R16, R88). -/
def setAes (c : AesContext) (s : State) : State := { s with aes := c }

/-- SET_KEY (rule R88). -/
def execSetKey (keyBits : Nat) (s : State) : Result :=
  if !legalKeyBits keyBits then failed .invalidKeyLength s
  else if !allValid [aesKeyOperand keyBits s] s then failed .badRange s
  else withInput (aesKeyOperand keyBits s) s fun key => succeed (setAes (AesContext.ofKey key keyBits) s)

/-- ENCRYPT_BLOCK (rule R89). -/
def execEncryptBlock (s : State) : Result :=
  if !s.aes.valid then failed .noKey s
  else if !allValid [srcBlockOperand s, dstOperand 16 s] s then failed .badRange s
  else
    withInput (srcBlockOperand s) s fun b =>
      succeed (store (dstOperand 16 s) (aesEnc s.aes.rk s.aes.nr (fixed 16 b)).toList s)

/-- DECRYPT_BLOCK (rule R90). -/
def execDecryptBlock (s : State) : Result :=
  if !s.aes.valid then failed .noKey s
  else if !allValid [srcBlockOperand s, dstOperand 16 s] s then failed .badRange s
  else
    withInput (srcBlockOperand s) s fun b =>
      succeed (store (dstOperand 16 s) (aesDec s.aes.rk s.aes.nr (fixed 16 b)).toList s)

end Sys2Proof.Machine
end

