-- ==== Sys2Proof/Machine/Ctr.lean ====
section
/-! DEFINITION. The Stream Cipher Mode (`41_ctr.md` rules R100 to R103). -/

namespace Sys2Proof.Machine

/-- `CtrInc(CB)` (rule R101; conflict C1: the increment is of all 128 bits). -/
def ctrInc (cb : Block) : Block := fixed 16 (be128 ((frombe cb.toList + 1) % 2 ^ 128))

/-- The loop of rule R102 over `nseg` segments, with `ks` the block cipher under the loaded key: the output bytes and
the counter block after the last segment. -/
def ctrSegments (ks : Block → Block) : Nat → Block → List Byte → List Byte × Block
  | 0, cb, _ => ([], cb)
  | nseg + 1, cb, inp =>
    let seg := inp.take 16
    let rest := ctrSegments ks nseg (ctrInc cb) (inp.drop 16)
    (xorBytes seg ((ks cb).toList.take seg.length) ++ rest.1, rest.2)

/-- `nseg = ceil(L / 16)` (rule R102). -/
def segmentCount (L : Nat) : Nat := (L + 15) / 16

/-- The keystream applied to an input, and the counter block written back (rule R102). -/
def ctrStream (ks : Block → Block) (cb : Block) (inp : List Byte) : List Byte × Block :=
  ctrSegments ks (segmentCount inp.length) cb inp

/-- CTR_CRYPT (rule R102): the output is written first, the counter block second (rule R43). -/
def execCtrCrypt (s : State) : Result :=
  if !s.aes.valid then failed .noKey s
  else if !allValid [srcOperand s, dstOperand (s.reg .srcLen) s, ctrOperand s] s then failed .badRange s
  else
    withInput (srcOperand s) s fun inp =>
      withInput (ctrOperand s) s fun cb =>
        let r := ctrStream (aesEnc s.aes.rk s.aes.nr) (fixed 16 cb) inp
        succeed (store (ctrOperand s) r.2.toList (store (dstOperand (s.reg .srcLen) s) r.1 s))

end Sys2Proof.Machine
end

