-- ==== Sys2Proof/Machine/ShaHash.lean ====
section
/-! DEFINITION. The Hash Engine as pure functions (`42_sha512.md` rules R110 to R117): the word functions and
constants, the compression function, and init, update and final on a hash state. -/

namespace Sys2Proof.Machine

/-- "choice" (rule R111). -/
def ch (x y z : DWord) : DWord := (x &&& y) ^^^ (~~~x &&& z)

/-- "majority" (rule R111). -/
def maj (x y z : DWord) : DWord := (x &&& y) ^^^ (x &&& z) ^^^ (y &&& z)

/-- `BSIG0` (rule R111). -/
def bsig0 (x : DWord) : DWord := x.rotateRight 28 ^^^ x.rotateRight 34 ^^^ x.rotateRight 39

/-- `BSIG1` (rule R111). -/
def bsig1 (x : DWord) : DWord := x.rotateRight 14 ^^^ x.rotateRight 18 ^^^ x.rotateRight 41

/-- `SSIG0` (rule R111). -/
def ssig0 (x : DWord) : DWord := x.rotateRight 1 ^^^ x.rotateRight 8 ^^^ (x >>> 7)

/-- `SSIG1` (rule R111). -/
def ssig1 (x : DWord) : DWord := x.rotateRight 19 ^^^ x.rotateRight 61 ^^^ (x >>> 6)

/-- `IV[0..7]` (rule R112). -/
def initialHash : Vector DWord 8 :=
  #v[0x6a09e667f3bcc908, 0xbb67ae8584caa73b, 0x3c6ef372fe94f82b, 0xa54ff53a5f1d36f1,
     0x510e527fade682d1, 0x9b05688c2b3e6c1f, 0x1f83d9abfb41bd6b, 0x5be0cd19137e2179]

/-- The table of `K` in the rows the spec prints: row `t / 4`, four entries to a row (rule R113). -/
def roundConstantRows : List (List DWord) :=
  [[0x428a2f98d728ae22, 0x7137449123ef65cd, 0xb5c0fbcfec4d3b2f, 0xe9b5dba58189dbbc],
   [0x3956c25bf348b538, 0x59f111f1b605d019, 0x923f82a4af194f9b, 0xab1c5ed5da6d8118],
   [0xd807aa98a3030242, 0x12835b0145706fbe, 0x243185be4ee4b28c, 0x550c7dc3d5ffb4e2],
   [0x72be5d74f27b896f, 0x80deb1fe3b1696b1, 0x9bdc06a725c71235, 0xc19bf174cf692694],
   [0xe49b69c19ef14ad2, 0xefbe4786384f25e3, 0x0fc19dc68b8cd5b5, 0x240ca1cc77ac9c65],
   [0x2de92c6f592b0275, 0x4a7484aa6ea6e483, 0x5cb0a9dcbd41fbd4, 0x76f988da831153b5],
   [0x983e5152ee66dfab, 0xa831c66d2db43210, 0xb00327c898fb213f, 0xbf597fc7beef0ee4],
   [0xc6e00bf33da88fc2, 0xd5a79147930aa725, 0x06ca6351e003826f, 0x142929670a0e6e70],
   [0x27b70a8546d22ffc, 0x2e1b21385c26c926, 0x4d2c6dfc5ac42aed, 0x53380d139d95b3df],
   [0x650a73548baf63de, 0x766a0abb3c77b2a8, 0x81c2c92e47edaee6, 0x92722c851482353b]] ++
  [[0xa2bfe8a14cf10364, 0xa81a664bbc423001, 0xc24b8b70d0f89791, 0xc76c51a30654be30],
   [0xd192e819d6ef5218, 0xd69906245565a910, 0xf40e35855771202a, 0x106aa07032bbd1b8],
   [0x19a4c116b8d2d0c8, 0x1e376c085141ab53, 0x2748774cdf8eeb99, 0x34b0bcb5e19b48a8],
   [0x391c0cb3c5c95a63, 0x4ed8aa4ae3418acb, 0x5b9cca4f7763e373, 0x682e6ff3d6b2b8a3],
   [0x748f82ee5defb2fc, 0x78a5636f43172f60, 0x84c87814a1f0ab72, 0x8cc702081a6439ec],
   [0x90befffa23631e28, 0xa4506cebde82bde9, 0xbef9a3f7b2c67915, 0xc67178f2e372532b],
   [0xca273eceea26619c, 0xd186b8c721c0c207, 0xeada7dd6cde0eb1e, 0xf57d4f7fee6ed178],
   [0x06f067aa72176fba, 0x0a637dc5a2c898a6, 0x113f9804bef90dae, 0x1b710b35131c471b],
   [0x28db77f523047d84, 0x32caab7b40c72493, 0x3c9ebe0a15c9bebc, 0x431d67c49c100d4c],
   [0x4cc5d4becb3e42b6, 0x597f299cfc657e2a, 0x5fcb6fab3ad6faec, 0x6c44198c4a475817]]

/-- `K[0..79]`, the rows one after the other (rule R113). -/
def roundConstants : List DWord := roundConstantRows.flatten

/-- `W[t]` for `t` in 0 to 15: the sixteen message words of a 128-byte block, big-endian (rules R113, R114). -/
def messageWords (M : List Byte) : List DWord :=
  (List.range 16).map fun t => BitVec.ofNat 64 (frombe (slice M (8 * t) 8))

/-- `W[0..t-1]` followed by `W[t]`, for `t` in 16 to 79 (rule R114). -/
def appendMessageWord (W : List DWord) (t : Nat) : List DWord :=
  W ++ [ssig1 (W.getD (t - 2) 0) + W.getD (t - 7) 0 + ssig0 (W.getD (t - 15) 0) + W.getD (t - 16) 0]

/-- `W[0..79]` (rule R114). -/
def messageSchedule (M : List Byte) : List DWord :=
  (List.range' 16 64).foldl appendMessageWord (messageWords M)

/-- The eight working variables of the compression function (rule R114). -/
structure Working where
  (a b c d e f g h : DWord)
deriving DecidableEq, Repr

/-- One of the 80 rounds, with `kw = (K[t], W[t])` (rule R114). -/
def shaRound (v : Working) (kw : DWord × DWord) : Working :=
  let t1 := v.h + bsig1 v.e + ch v.e v.f v.g + kw.1 + kw.2
  let t2 := bsig0 v.a + maj v.a v.b v.c
  { a := t1 + t2, b := v.a, c := v.b, d := v.c, e := v.d + t1, f := v.e, g := v.f, h := v.g }

/-- `Compress(H, M)` (rule R114). -/
def compress (H : Vector DWord 8) (M : List Byte) : Vector DWord 8 :=
  let start : Working := { a := H[0], b := H[1], c := H[2], d := H[3], e := H[4], f := H[5], g := H[6], h := H[7] }
  let v := (List.zip roundConstants (messageSchedule M)).foldl shaRound start
  #v[H[0] + v.a, H[1] + v.b, H[2] + v.c, H[3] + v.d, H[4] + v.e, H[5] + v.f, H[6] + v.g, H[7] + v.h]

/-- `ShaInit()` (rule R115). -/
def shaInit : HashState :=
  { h := initialHash, buf := Vector.replicate 128 0x00#8, n := 0, lenHi := 0, lenLo := 0 }

/-- One byte appended to the buffer; a full buffer is compressed at once and cleared (rule R115). -/
def feedByte (S : HashState) (d : Byte) : HashState :=
  let buf := S.buf.setIfInBounds S.n d
  if S.n + 1 = 128 then
    { S with h := compress S.h buf.toList, buf := Vector.replicate 128 0x00#8, n := 0 }
  else { S with buf := buf, n := S.n + 1 }

/-- The 128-bit length counter after `count` more bytes: two halves with explicit carry, wrapping modulo 2^128
(rules R115, R121). -/
def addLength (S : HashState) (count : Nat) : HashState :=
  let bits := 8 * count
  let lo := S.lenLo.toNat + bits % 2 ^ 64
  { S with
    lenHi := BitVec.ofNat 64 (S.lenHi.toNat + bits / 2 ^ 64 + lo / 2 ^ 64)
    lenLo := BitVec.ofNat 64 lo }

/-- `ShaUpdate(S, D)` (rule R115). -/
def shaUpdate (S : HashState) (D : List Byte) : HashState :=
  addLength (D.foldl feedByte S) D.length

/-- The eight words of a hash, serialised big-endian (rule R116). -/
def digestBytes (H : Vector DWord 8) : List Byte := H.toList.flatMap be64

/-- `ShaFinal(S)` (rule R116; conflict C7: the test for the extra block is made after the 0x80 is appended). -/
def shaFinal (S : HashState) : List Byte :=
  let B := slice S.buf.toList 0 S.n ++ [0x80#8]
  let len := be64 S.lenHi ++ be64 S.lenLo
  if B.length > 112 then
    digestBytes (compress (compress S.h (B ++ zeros (128 - B.length))) (zeros 112 ++ len))
  else digestBytes (compress S.h (B ++ zeros (112 - B.length) ++ len))

/-- `SHA512(M)` (rule R117). -/
def sha512 (M : List Byte) : List Byte := shaFinal (shaUpdate shaInit M)

end Sys2Proof.Machine
end

