-- ==== Sys2Proof/Machine/Hmac.lean ====
section
/-! DEFINITION. The MAC Engine (`43_hmac.md` rules R125 to R130). -/

namespace Sys2Proof.Machine

/-- `IPAD` (rules R7, R126). -/
def ipad : Byte := 0x36#8

/-- `OPAD` (rules R7, R126). -/
def opad : Byte := 0x5c#8

/-- `K0(key)` (rule R125): a key longer than 128 bytes is hashed first; either is zero-padded to 128 bytes. -/
def hmacKey (key : List Byte) : List Byte :=
  if key.length > 128 then sha512 key ++ zeros 64 else key ++ zeros (128 - key.length)

/-- `K0(key) ^ rep(pad, 128)` (rule R126). -/
def paddedKey (key : List Byte) (pad : Byte) : List Byte := xorBytes (hmacKey key) (rep pad 128)

/-- `HMAC(key, data)` (rule R126). -/
def hmacTag (key data : List Byte) : List Byte :=
  sha512 (paddedKey key opad ++ sha512 (paddedKey key ipad ++ data))

/-- `HmacInit(key)`: the inner and the outer hash state (rule R126). -/
def hmacInit (key : List Byte) : HashState × HashState :=
  (shaUpdate shaInit (paddedKey key ipad), shaUpdate shaInit (paddedKey key opad))

/-- `HmacUpdate((inner, outer), D)` (rule R126). -/
def hmacUpdate (io : HashState × HashState) (d : List Byte) : HashState × HashState :=
  (shaUpdate io.1 d, io.2)

/-- `HmacFinal((inner, outer))` (rule R126). -/
def hmacFinal (io : HashState × HashState) : List Byte := shaFinal (shaUpdate io.2 (shaFinal io.1))

/-- Replace the HMAC context (rule R18). -/
def setHmac (io : HashState × HashState) (st : Phase) (s : State) : State :=
  { s with hm := { inner := io.1, outer := io.2, st := st } }

/-- `HM.st = ACTIVE` (rules R129, R130). -/
def hmacActive (s : State) : Bool := s.hm.st == .active

/-- HMAC, one-shot (rule R127). -/
def execHmac (s : State) : Result :=
  if !allValid [keyOperand s, srcOperand s, dstOperand 64 s] s then failed .badRange s
  else
    withInput (keyOperand s) s fun key =>
      withInput (srcOperand s) s fun data =>
        succeed (consumeHmac (store (dstOperand 64 s) (hmacTag key data) s))

/-- HMAC_INIT (rule R128). -/
def execHmacInit (s : State) : Result :=
  if !allValid [keyOperand s] s then failed .badRange s
  else withInput (keyOperand s) s fun key => succeed (setHmac (hmacInit key) .active s)

/-- HMAC_UPDATE (rule R129). -/
def execHmacUpdate (s : State) : Result :=
  if !hmacActive s then failed .noHmac s
  else if !allValid [srcOperand s] s then failed .badRange s
  else
    withInput (srcOperand s) s fun d =>
      succeed (setHmac (hmacUpdate (s.hm.inner, s.hm.outer) d) s.hm.st s)

/-- HMAC_FINAL (rule R130). -/
def execHmacFinal (s : State) : Result :=
  if !hmacActive s then failed .noHmac s
  else if !allValid [dstOperand 64 s] s then failed .badRange s
  else succeed (consumeHmac (store (dstOperand 64 s) (hmacFinal (s.hm.inner, s.hm.outer)) s))

end Sys2Proof.Machine
end

