-- ==== Sys2Proof/Machine/Pbkdf2.lean ====
section
/-! DEFINITION. Key Derivation (`44_pbkdf2.md` rules R135, R136). -/

namespace Sys2Proof.Machine

/-- The further iterations of one block: `n` times `U = HMAC(P, U) ; T = T ^ U`; the result is `T` (rule R135). -/
def pbkdf2Iterate (P : List Byte) : Nat → List Byte → List Byte → List Byte
  | 0, _, T => T
  | n + 1, U, T =>
    let U' := hmacTag P U
    pbkdf2Iterate P n U' (xorBytes T U')

/-- `T_i`: the block of index `i`, which counts from 1, by `c` HMAC evaluations (rule R135). -/
def pbkdf2Block (P S : List Byte) (c i : Nat) : List Byte :=
  let U := hmacTag P (S ++ be32 i)
  pbkdf2Iterate P (c - 1) U U

/-- `nblk = ceil(dkLen / 64)` (rule R135). -/
def blockCount (dkLen : Nat) : Nat := (dkLen + 63) / 64

/-- `PBKDF2(P, S, c, dkLen)` (rule R135). -/
def pbkdf2 (P S : List Byte) (c dkLen : Nat) : List Byte :=
  ((List.range (blockCount dkLen)).flatMap fun k => pbkdf2Block P S c (k + 1)).take dkLen

/-- PBKDF2 (rule R136). -/
def execPbkdf2 (s : State) : Result :=
  if s.reg .iter = 0 then failed .invalidParameter s
  else if !allValid [keyOperand s, srcOperand s, dstOperand (s.reg .dstLen) s] s then failed .badRange s
  else
    withInput (keyOperand s) s fun P =>
      withInput (srcOperand s) s fun S =>
        succeed (consumeHmac
          (store (dstOperand (s.reg .dstLen) s) (pbkdf2 P S (s.reg .iter) (s.reg .dstLen)) s))

end Sys2Proof.Machine
end

