-- ==== Sys2Proof/Machine/Sha.lean ====
section
/-! DEFINITION. The commands of the Hash Engine (`42_sha512.md` rules R118 to R120). -/

namespace Sys2Proof.Machine

/-- Replace the SHA context (rule R17). -/
def setSha (h : HashState) (st : Phase) (s : State) : State := { s with sha := { hash := h, st := st } }

/-- `SHA.st = ACTIVE` (rules R119, R120). -/
def hashActive (s : State) : Bool := s.sha.st == .active

/-- SHA_INIT (rule R118). -/
def execShaInit (s : State) : Result := succeed (setSha shaInit .active s)

/-- SHA_UPDATE (rule R119). -/
def execShaUpdate (s : State) : Result :=
  if !hashActive s then failed .noHash s
  else if !allValid [srcOperand s] s then failed .badRange s
  else withInput (srcOperand s) s fun d => succeed (setSha (shaUpdate s.sha.hash d) s.sha.st s)

/-- SHA_FINAL (rule R120). -/
def execShaFinal (s : State) : Result :=
  if !hashActive s then failed .noHash s
  else if !allValid [dstOperand 64 s] s then failed .badRange s
  else succeed (setSha HashState.zero .consumed (store (dstOperand 64 s) (shaFinal s.sha.hash) s))

end Sys2Proof.Machine
end

