-- ==== Sys2Proof/Machine/Dispatch.lean ====
section
/-! DEFINITION. One arm per command of rule R62: the whole of the command's pseudocode and its completion. -/

namespace Sys2Proof.Machine

def exec (i : Instr) (s : State) : Host.Outcome State Fault Refusal :=
  match i with
  | .setKey keyBits => Sys2Proof.Machine.execSetKey keyBits s
  | .encryptBlock => Sys2Proof.Machine.execEncryptBlock s
  | .decryptBlock => Sys2Proof.Machine.execDecryptBlock s
  | .ctrCrypt => Sys2Proof.Machine.execCtrCrypt s
  | .shaInit => Sys2Proof.Machine.execShaInit s
  | .shaUpdate => Sys2Proof.Machine.execShaUpdate s
  | .shaFinal => Sys2Proof.Machine.execShaFinal s
  | .hmac => Sys2Proof.Machine.execHmac s
  | .hmacInit => Sys2Proof.Machine.execHmacInit s
  | .hmacUpdate => Sys2Proof.Machine.execHmacUpdate s
  | .hmacFinal => Sys2Proof.Machine.execHmacFinal s
  | .pbkdf2 => Sys2Proof.Machine.execPbkdf2 s
  | .zeroize => Sys2Proof.Machine.execZeroize s

end Sys2Proof.Machine
end

