-- ==== Sys2Proof/Machine/HostPort.lean ====
section
/-! DEFINITION. The host's side of the register block and of the OPMEM window (`10_state.md` rules R20 to R24, R32;
`20_memory.md` rules R40, R45, R46, R48, R55; `70_reset_and_hazards.md` rule R196). -/

namespace Sys2Proof.Machine

/-- Offset of `CMD` (rule R21). -/
def cmdOffset : Nat := 0x00

/-- Offset of `STATUS` (rule R21). -/
def statusOffset : Nat := 0x04

/-- Offset of `ERRINFO` (rule R21). -/
def errInfoOffset : Nat := 0x08

/-- Where the OPMEM window begins, which is where the register block ends (rule R40). -/
def windowOffset : Nat := 0x1000

/-- The value a register read gives (rules R20 to R24, R32): `CMD` and the reserved offsets read as 0. -/
def registerValue (s : State) (off : Nat) : Word :=
  if off = statusOffset then statusWord s
  else if off = errInfoOffset then errInfoWord s
  else
    match operandRegAt off with
    | some r => s.regs.get r
    | none => 0#32

/-- The effect of a register write (rules R20 to R24, R32): `CMD` starts a command, `STATUS` takes only a 1 in bit 3,
an operand register stores the value, and every other offset ignores the write. -/
def registerWrite (off : Nat) (v : Word) (s : State) : State :=
  if off = cmdOffset then issue v s
  else if off = statusOffset then (if v.getLsbD 3 then clearSticky s else s)
  else
    match operandRegAt off with
    | some r => { s with regs := s.regs.set r v }
    | none => s

/-- What a read gave goes to the host. -/
def reply (r : Reply) (s : State) : State := { s with replies := r :: s.replies }

/-- A register access is 4-byte aligned and inside the register block (rules R32, R45). -/
def withRegister (off : Nat) (t : State) : Result :=
  if off % 4 ≠ 0 then .refused (.badRegisterAccess off)
  else if windowOffset ≤ off then .refused (.noSuchAddress off)
  else .next t

/-- An access to the window is below `OPMEM_BYTES` (rule R45). -/
def withWindow (k : Nat) (s t : State) : Result :=
  if k < s.params.opmemBytes then .next t else .refused (.noSuchAddress (windowOffset + k))

/-- While `BUSY = 1` the host may read `STATUS` and do nothing else (rules R46, R196). -/
def allowedWhileBusy (a : Access) : Bool := a == .regRead statusOffset

/-- An access of the host, the core not being busy. A read has no side effect (rule R48); the byte of a cell that
nothing has written is unknown (rule R55). -/
def idleAccess (a : Access) (s : State) : Result :=
  match a with
  | .regRead off => withRegister off (reply (.reg off (registerValue s off)) s)
  | .regWrite off v => withRegister off (registerWrite off v s)
  | .memReadByte k => withWindow k s (reply (.byte k (s.opmem.byteAt k)) s)
  | .memWriteByte k b => withWindow k s { s with opmem := s.opmem.write k b }

/-- An access of the host (rules R45, R46, R196). -/
def hostAccess (a : Access) (s : State) : Result :=
  if s.flags.busy && !allowedWhileBusy a then .refused .accessWhileBusy else idleAccess a s

/-- What a host address is (rule R40). -/
inductive BusTarget where
  /-- The register block, reserved offsets among it: 0x0000 to 0x0FFF. -/
  | register (off : Nat)
  /-- Byte `k` of the OPMEM window. -/
  | window (k : Nat)
  /-- Not part of the hardware. -/
  | outside
deriving DecidableEq, Repr

/-- The address map (rule R40). -/
def busTarget (p : Params) (addr : Nat) : BusTarget :=
  if addr < p.coreBase then .outside
  else if addr - p.coreBase < windowOffset then .register (addr - p.coreBase)
  else if addr - p.coreBase < windowOffset + p.opmemBytes then .window (addr - p.coreBase - windowOffset)
  else .outside

/-- The architectural accesses a bus access stands for become the host's next turns; while `BUSY = 1` none of them but a
STATUS read is then allowed. -/
def expand (as : List Access) (s : State) : Result := .next { s with turns := as.map Turn.host ++ s.turns }

/-- A bus read of `width` bytes: one aligned 32-bit register read, or the byte reads of the window in ascending order
(rule R45). -/
def busRead (addr width : Nat) (s : State) : Result :=
  match busTarget s.params addr with
  | .register off => if width = 4 then expand [.regRead off] s else .refused (.badRegisterAccess off)
  | .window k => expand ((List.range width).map fun j => .memReadByte (k + j)) s
  | .outside => .refused (.noSuchAddress addr)

/-- A bus write: bits 7:0 of a register at its lowest byte address (rule R45). -/
def busWrite (addr : Nat) (bytes : List Byte) (s : State) : Result :=
  match busTarget s.params addr with
  | .register off =>
    if bytes.length = 4 then expand [.regWrite off (BitVec.ofNat 32 (fromLanes bytes))] s
    else .refused (.badRegisterAccess off)
  | .window k =>
    expand ((List.range bytes.length).map fun j => .memWriteByte (k + j) (bytes.getD j 0x00#8)) s
  | .outside => .refused (.noSuchAddress addr)

/-- A bus access of the host (rule R45). -/
def hostBus (b : BusAccess) (s : State) : Result :=
  match b with
  | .read addr width => busRead addr width s
  | .write addr bytes => busWrite addr bytes s

end Sys2Proof.Machine
end

