-- ==== Sys2Proof/Machine/Fetch.lean ====
section
/-! DEFINITION. The core's turn (`20_memory.md` rules R46, R53): there is no instruction fetch; the command in flight is
the word latched by the CMD write, and the core completes it in one indivisible step. -/

namespace Sys2Proof.Machine

/-- The command in flight, decoded and run to its completion; a word that does not decode fails with `IllegalCommand`
and changes nothing else (rules R46, R63, R153). -/
def runLatched (s : State) : Result :=
  match decode s.latch with
  | .ok i => exec i s
  | .error _ => .next (raise .illegalCommand s)

/-- The core's turn: an idle core does nothing (rule R166). -/
def coreTurn (s : State) : Result := if s.flags.busy then runLatched s else .next s

end Sys2Proof.Machine
end

