-- ==== Sys2Proof/Machine/Step.lean ====
section
/-! DEFINITION. One step of the machine: one turn of the single total order of host accesses and command completions
(`20_memory.md` rules R46, R50), or the reset event (rule R157). With no turn listed the core has the turn. -/

namespace Sys2Proof.Machine

/-- One step (rule R50). -/
def step (s : State) : Host.Outcome State Fault Refusal :=
  match s.turns with
  | [] => coreTurn s
  | .core :: rest => coreTurn { s with turns := rest }
  | .host a :: rest => hostAccess a { s with turns := rest }
  | .bus b :: rest => hostBus b { s with turns := rest }
  | .reset :: rest => .next (applyReset { s with turns := rest })

/-- `s` with the command word `w` just issued (rule R22) and the turn given to the core, so that the very next step
runs that command and nothing else. A command word is one 32-bit value (rule R60); the bits above `nbits` are 0. -/
def State.withFetchWord (s : State) (nbits w : Nat) : State :=
  { issue (BitVec.ofNat 32 (w % 2 ^ nbits)) s with turns := .core :: s.turns }

end Sys2Proof.Machine
end

