-- ==== Sys2Proof/Machine/Container.lean ====
section
/-! DEFINITION. The container format (`46_container_pipeline.md` rules R170, R171) and the password policy (rule R173):
host software, given as the functions on byte strings the spec settles. -/

namespace Sys2Proof.Machine

/-- The fields of the 40-byte container header (rule R170). -/
structure Header where
  /-- `signature`, offset 0, 4 bytes. -/
  signature : List Byte
  /-- `version`, offset 4. -/
  version : Byte
  /-- `key_length_code`, offset 5. -/
  keyLengthCode : Byte
  /-- `mode_code`, offset 6. -/
  modeCode : Byte
  /-- `hmac_enabled`, offset 7. -/
  hmacEnabled : Byte
  /-- `nonce`, offset 8, 8 bytes. -/
  nonce : List Byte
  /-- `format`, offset 16, 8 bytes. -/
  format : List Byte
  /-- `reserved`, offset 24, 16 bytes. -/
  reserved : List Byte
deriving DecidableEq, Repr

/-- `HEADER_BYTES` (rule R7). -/
def headerBytes : Nat := 40

/-- `TAG_BYTES` (rule R7). -/
def tagBytes : Nat := 64

/-- ASCII "AESC" (rule R170). -/
def containerSignature : List Byte := [0x41#8, 0x45#8, 0x53#8, 0x43#8]

/-- The container format version (rules R2, R170). -/
def containerVersion : Byte := 0x01#8

/-- The header as bytes (rule R170). -/
def Header.encode (h : Header) : List Byte :=
  h.signature ++ [h.version, h.keyLengthCode, h.modeCode, h.hmacEnabled] ++ h.nonce ++ h.format ++ h.reserved

/-- The header fields of a file; `none` where fewer than 40 bytes are there (rule R175 step 2). -/
def Header.decode (file : List Byte) : Option Header :=
  if file.length < headerBytes then none
  else some
    { signature := slice file 0 4
      version := file.getD 4 0x00#8
      keyLengthCode := file.getD 5 0x00#8
      modeCode := file.getD 6 0x00#8
      hmacEnabled := file.getD 7 0x00#8
      nonce := slice file 8 8
      format := slice file 16 8
      reserved := slice file 24 16 }

/-- `key_length_code` of a key size (rule R170). -/
def keyLengthCodeOf (keyBits : Nat) : Byte :=
  if keyBits = 128 then 0x01#8 else if keyBits = 192 then 0x02#8 else 0x03#8

/-- The key size of a `key_length_code`; any other value than 1, 2, 3 is unknown (rule R175 step 4). -/
def keyBitsOfCode (code : Byte) : Option Nat :=
  if code = 0x01#8 then some 128
  else if code = 0x02#8 then some 192
  else if code = 0x03#8 then some 256
  else none

/-- The `format` field: the extension truncated to 7 bytes, NUL-padded to 8 (rule R170). -/
def formatField (extension : List Byte) : List Byte :=
  extension.take 7 ++ zeros (8 - (extension.take 7).length)

/-- The extension of a `format` field: its bytes before the first NUL (rule R175 step 10). DESIGN CHOICE: the spec does not
say what it is where none of the bytes is NUL, as in a file another program wrote; there it is a free value (log
entry 15). -/
def extensionOf (format : List Byte) : List Byte :=
  if 0x00#8 ∈ format then format.takeWhile fun b => b != 0x00#8 else Config.extensionWithoutNul format

/-- The header `encrypt` builds (rule R174 step 5). -/
def newHeader (keyBits : Nat) (nonce extension : List Byte) : Header :=
  { signature := containerSignature
    version := containerVersion
    keyLengthCode := keyLengthCodeOf keyBits
    modeCode := 0x02#8
    hmacEnabled := 0x01#8
    nonce := nonce
    format := formatField extension
    reserved := zeros 16 }

/-- The signature and version check (rule R175 step 3; conflict C4). -/
def signatureOk (h : Header) : Bool := h.signature == containerSignature && h.version == containerVersion

/-- An ASCII letter or digit (rule R173). -/
def isAlphanumeric (b : Byte) : Bool :=
  (0x30 ≤ b.toNat && b.toNat ≤ 0x39) || (0x41 ≤ b.toNat && b.toNat ≤ 0x5a) || (0x61 ≤ b.toNat && b.toNat ≤ 0x7a)

/-- `validate_password` (rule R173). -/
def validatePassword (password : List Byte) : Bool :=
  1 ≤ password.length && password.length ≤ 10 && password.all isAlphanumeric

end Sys2Proof.Machine
end

