-- ==== Sys2Proof/Machine/Pipeline.lean ====
section
/-! DEFINITION. The encrypt and decrypt pipelines (`46_container_pipeline.md` rules R172, R174 to R179): the host's
procedures as functions of what the host brings (the file's bytes, the password, the nonce) and of the first thing that
goes wrong around them, if anything does. Machine/Driver.lean gives the same procedures in hardware terms. -/

namespace Sys2Proof.Machine

/-- The outcomes of a file operation other than success (rules R150, R159): the status of the structured outcome. DESIGN
CHOICE: rule R159 has a human-readable detail beside the status and leaves its wording open, and N22 leaves the shape of
the outcome open; the model holds the status alone, without a text, and for a hardware error the `CODE` and `DETAIL` of
`ERRINFO` (log entry 16). -/
inductive HostError where
  | invalidKeyLength
  | ioError
  | malformedContainer
  | authenticationFailure
  | passwordPolicyViolation
  /-- A hardware error met by the pipeline, a defect of the driver: the operation is aborted and the error reported under
  the hardware's own code and detail (rules R159, R174). -/
  | hardware (code detail : Byte)
deriving DecidableEq, Repr

/-- The numbers of the outcomes, in one list with the hardware's (rule R150). -/
def HostError.code : HostError → Nat
  | .invalidKeyLength => 1
  | .ioError => 2
  | .malformedContainer => 3
  | .authenticationFailure => 4
  | .passwordPolicyViolation => 5
  | .hardware code _ => code.toNat

/-- What can go wrong around the procedure itself: a file operation fails (`IoError`), or a command completes with an error
(rules R159, R174, R175). -/
inductive Mishap where
  | io
  | hardware (code detail : Byte)
deriving DecidableEq, Repr

/-- The outcome a mishap is reported as (rule R159). -/
def Mishap.error : Mishap → HostError
  | .io => .ioError
  | .hardware code detail => .hardware code detail

/-- The first mishap of a file operation, which aborts it (rule R179). -/
structure Failure (Stage : Type) where
  /-- The state of the procedure it happens in. -/
  stage : Stage
  /-- The chunks that the pass of this state had finished by then. -/
  chunksDone : Nat
  cause : Mishap
deriving DecidableEq, Repr

/-- `PROD_ITER` (rule R7). -/
def prodIter : Nat := 10000

/-- `PROD_DKLEN` (rule R7). -/
def prodDkLen : Nat := 64

/-- `MAC_KEY_BYTES` (rule R7). -/
def macKeyBytes : Nat := 24

/-- The two keys of one file operation (rule R172). -/
structure DerivedKeys where
  aesKey : List Byte
  macKey : List Byte
deriving DecidableEq, Repr

/-- The split of the 64 derived bytes (rules R28, R172). -/
def splitKeys (p : Params) (dk : List Byte) (keyBits : Nat) : DerivedKeys :=
  { aesKey := slice dk 0 (keyBits / 8), macKey := slice dk p.macKeyOffset macKeyBytes }

/-- `derive_keys(password, key_bits)` (rules R137, R172): the salt is empty. -/
def deriveKeys (p : Params) (password : List Byte) (keyBits : Nat) : DerivedKeys :=
  splitKeys p (pbkdf2 password [] prodIter prodDkLen) keyBits

/-- The starting counter block `nonce || zeros(8)` (rule R100). -/
def startBlock (nonce : List Byte) : Block := fixed 16 (nonce ++ zeros 8)

/-- `CTR(aes_key, CB, P)` (rules R102, R174 step 8). -/
def ctrWithKey (aesKey : List Byte) (keyBits : Nat) (cb : Block) (data : List Byte) : List Byte :=
  let ks := AesContext.ofKey aesKey keyBits
  (ctrStream (aesEnc ks.rk ks.nr) cb data).1

/-- The container file `[Header][tag][ciphertext]` of a plaintext (rules R171, R174 steps 5 to 8). -/
def containerOf (p : Params) (keyBits : Nat) (password nonce extension plaintext : List Byte) : List Byte :=
  let keys := deriveKeys p password keyBits
  let header := (newHeader keyBits nonce extension).encode
  header ++ hmacTag keys.macKey (header ++ plaintext) ++
    ctrWithKey keys.aesKey keyBits (startBlock nonce) plaintext

/-- The data in chunks of `CHUNK_BYTES`, the last one shorter (rules R174, R198). -/
def chunksOf (size : Nat) (data : List Byte) : List (List Byte) :=
  (List.range ((data.length + size - 1) / size)).map fun k => slice data (k * size) size

/-- The calls the progress callback has received after `calls` chunks of an operation on `length` bytes: one after each
chunk, and none where the caller supplied no callback (rule R178). -/
def progressCalls (callback : Bool) (length calls : Nat) : List Progress :=
  if callback then (List.range calls).map (Config.progressCounts length) else []

/-- What stands at the destination path after an operation (rules R174, R175, U21). -/
inductive Destination where
  /-- No file was created. -/
  | absent
  /-- The file holds exactly these bytes. -/
  | complete (bytes : List Byte)
  /-- An unusable file: what is there, if the file was created at all, is not specified. -/
  | unusable
deriving DecidableEq, Repr

/-- The states of `encrypt` (rule R174). -/
inductive EncryptStage where
  | openSource
  | deriveKeys
  | computeMacOverPlaintext
  | writeHeaderAndTag
  | streamCipherAndWrite
  | close
deriving DecidableEq, Repr

/-- Whether the nonce has been drawn by this state: it is drawn when the keys have been derived (rule R174 steps 3 to
6). -/
def EncryptStage.nonceDrawn : EncryptStage → Bool
  | .openSource | .deriveKeys => false
  | .computeMacOverPlaintext | .writeHeaderAndTag | .streamCipherAndWrite | .close => true

/-- Whether the output file is being written by this state (rule R174 steps 7 to 9). -/
def EncryptStage.writes : EncryptStage → Bool
  | .openSource | .deriveKeys | .computeMacOverPlaintext => false
  | .writeHeaderAndTag | .streamCipherAndWrite | .close => true

/-- The calls of the progress callback by a failure: the plaintext of `m` chunks goes through two passes, the MAC's and the
cipher's (rules R174, R178). -/
def Failure.encryptCalls (f : Failure EncryptStage) (m : Nat) : Nat :=
  match f.stage with
  | .openSource | .deriveKeys => 0
  | .computeMacOverPlaintext => min f.chunksDone m
  | .writeHeaderAndTag => m
  | .streamCipherAndWrite => m + min f.chunksDone m
  | .close => m + m

/-- What the host brings to `encrypt` (rule R174). -/
structure EncryptRequest where
  /-- The plaintext: the bytes of the input file. -/
  source : List Byte
  keyBits : Nat
  password : List Byte
  /-- The 8 nonce bytes the host draws. -/
  nonce : List Byte
  /-- Whether they come from a strong random source. -/
  nonceStrong : Bool
  /-- The original file's extension with its dot. -/
  extension : List Byte
  /-- Whether the caller supplied a progress callback (rules R177, R178). -/
  callback : Bool
  /-- The first mishap; `none` where every file operation and every command succeeds. -/
  failure : Option (Failure EncryptStage)
deriving DecidableEq, Repr

/-- The structured outcome of `encrypt` (rules R159, R174). Its shape is the model's choice (N22, log entry 16). -/
structure EncryptOutcome where
  /-- `none` on success. -/
  error : Option HostError
  destination : Destination
  /-- A nonce from a weak random source was drawn, which must be observable whatever comes after (rules R174 step 4,
  R179). -/
  weakNonce : Bool
  /-- The calls of the progress callback, the first one first. -/
  progress : List Progress
deriving DecidableEq, Repr

/-- The `bool` of the entry point: the success of the structured outcome (rule R177). -/
def EncryptOutcome.success (o : EncryptOutcome) : Bool := o.error.isNone

/-- An `encrypt` turned away by the eager checks, before any destructive action (rule R174 step 1). -/
def encryptRejected (e : HostError) : EncryptOutcome :=
  { error := some e, destination := .absent, weakNonce := false, progress := [] }

/-- An `encrypt` aborted by a mishap (rules R174, R179). -/
def encryptAborted (p : Params) (x : EncryptRequest) (f : Failure EncryptStage) : EncryptOutcome :=
  { error := some f.cause.error
    destination := if f.stage.writes then .unusable else .absent
    weakNonce := f.stage.nonceDrawn && !x.nonceStrong
    progress := progressCalls x.callback x.source.length (f.encryptCalls (chunksOf p.chunkBytes x.source).length) }

/-- `encrypt` (rule R174). -/
def encryptFile (p : Params) (x : EncryptRequest) : EncryptOutcome :=
  if !validatePassword x.password then encryptRejected .passwordPolicyViolation
  else if !legalKeyBits x.keyBits then encryptRejected .invalidKeyLength
  else
    match x.failure with
    | some f => encryptAborted p x f
    | none =>
      { error := none
        destination := .complete (containerOf p x.keyBits x.password x.nonce x.extension x.source)
        weakNonce := !x.nonceStrong
        progress := progressCalls x.callback x.source.length (2 * (chunksOf p.chunkBytes x.source).length) }

/-- The checks `decrypt` makes on the file before it derives a key: the key size and the header's fields, or
`MalformedContainer` (rule R175 steps 2 to 4). -/
def checkContainer (file : List Byte) : Except HostError (Nat × Header) :=
  match Header.decode file with
  | none => .error .malformedContainer
  | some h =>
    if !signatureOk h then .error .malformedContainer
    else
      match keyBitsOfCode h.keyLengthCode with
      | none => .error .malformedContainer
      | some keyBits =>
        if file.length ≤ headerBytes + tagBytes then .error .malformedContainer else .ok (keyBits, h)

/-- The states of `decrypt`, in the order of the prose (rule R175; conflict C11). -/
inductive DecryptStage where
  | openSource
  | readHeader
  | validateSignature
  | deriveKeys
  | streamDecipherToScratch
  | recomputeMac
  | compareTag
  | commitOutput
  | close
deriving DecidableEq, Repr

/-- The place of a state in that order. -/
def DecryptStage.index : DecryptStage → Nat
  | .openSource => 0
  | .readHeader => 1
  | .validateSignature => 2
  | .deriveKeys => 3
  | .streamDecipherToScratch => 4
  | .recomputeMac => 5
  | .compareTag => 6
  | .commitOutput => 7
  | .close => 8

/-- The calls of the progress callback by a failure: the ciphertext of `m` chunks goes through one pass (rules R175,
R178). -/
def Failure.decryptCalls (f : Failure DecryptStage) (m : Nat) : Nat :=
  if f.stage.index < DecryptStage.streamDecipherToScratch.index then 0
  else if f.stage = .streamDecipherToScratch then min f.chunksDone m
  else m

/-- What the host brings to `decrypt` (rule R175). -/
structure DecryptRequest where
  /-- The bytes of the container file. -/
  source : List Byte
  password : List Byte
  /-- The path the caller supplied for the output. -/
  outputPath : List Byte
  /-- Whether the caller supplied a progress callback (rules R177, R178). -/
  callback : Bool
  /-- The first mishap; `none` where every file operation and every command succeeds. -/
  failure : Option (Failure DecryptStage)
deriving DecidableEq, Repr

/-- The mishap of a request, where it comes no later than a state. -/
def DecryptRequest.failureBy (x : DecryptRequest) (stage : DecryptStage) : Option (Failure DecryptStage) :=
  x.failure.filter fun f => f.stage.index ≤ stage.index

/-- The structured outcome of `decrypt` (rules R159, R175). Its shape is the model's choice (N22, log entry 16). -/
structure DecryptOutcome where
  /-- `none` on success. -/
  error : Option HostError
  /-- What stands at the final path. -/
  destination : Destination
  /-- The path of the output file, reported on success (rules R175 "Outcome", R177). -/
  finalPath : Option (List Byte)
  /-- The original extension, reported on success (rules R175 step 10, R182). -/
  extension : List Byte
  /-- What stands in scratch storage; `none` where there is no scratch storage (rule R175 steps 7 and 11). -/
  scratch : Option (List Byte)
  /-- The calls of the progress callback, the first one first. -/
  progress : List Progress
deriving DecidableEq, Repr

/-- The `bool` of the entry point: the success of the structured outcome (rule R177). -/
def DecryptOutcome.success (o : DecryptOutcome) : Bool := o.error.isNone

/-- CLOSE, which every course comes to: the scratch storage is removed (rule R175 step 11). -/
def DecryptOutcome.closed (o : DecryptOutcome) : DecryptOutcome := { o with scratch := none }

/-- A `decrypt` that failed: no destination file exists (rule R175 "Outcome"). -/
def decryptFailed (e : HostError) (scratch : Option (List Byte)) (progress : List Progress) : DecryptOutcome :=
  { error := some e, destination := .absent, finalPath := none, extension := [], scratch := scratch, progress := progress }

/-- The final path: the original extension appended where the caller's path lacks one (rule R175 step 10). -/
def finalPathOf (outputPath extension : List Byte) : List Byte :=
  if Config.pathLacksExtension outputPath then outputPath ++ extension else outputPath

/-- The deciphered bytes `P'` of a container, whatever its tag (rule R175 steps 5 to 7). -/
def decipher (p : Params) (keyBits : Nat) (h : Header) (password file : List Byte) : List Byte :=
  ctrWithKey (deriveKeys p password keyBits).aesKey keyBits (startBlock h.nonce) (file.drop (headerBytes + tagBytes))

/-- What a failure leaves in scratch storage, where the chunks finished by then have gone (rule R175 step 7). -/
def Failure.scratch (f : Failure DecryptStage) (chunkBytes : Nat) (plaintext : List Byte) : Option (List Byte) :=
  if f.stage.index < DecryptStage.streamDecipherToScratch.index then none
  else if f.stage = .streamDecipherToScratch then some (plaintext.take (f.chunksDone * chunkBytes))
  else some plaintext

/-- The plaintext of a container, if its tag verifies (rule R175 steps 5 to 9). -/
def openContainer (p : Params) (keyBits : Nat) (h : Header) (password file : List Byte) : Option (List Byte) :=
  let keys := deriveKeys p password keyBits
  let plaintext := decipher p keyBits h password file
  if hmacTag keys.macKey (slice file 0 headerBytes ++ plaintext) = slice file headerBytes tagBytes then
    some plaintext
  else none

/-- The calls of the progress callback after `calls` chunks of the ciphertext of a container (rules R175, R178). -/
def DecryptRequest.progressAfter (x : DecryptRequest) (calls : Nat) : List Progress :=
  progressCalls x.callback x.source.length calls

/-- `decrypt` from DERIVE_KEYS to COMMIT_OUTPUT, of a container that has passed the header checks (rule R175 steps 5 to
10). -/
def decryptChecked (p : Params) (x : DecryptRequest) (keyBits : Nat) (h : Header) : DecryptOutcome :=
  let m := (chunksOf p.chunkBytes (x.source.drop (headerBytes + tagBytes))).length
  let deciphered := decipher p keyBits h x.password x.source
  match x.failureBy .compareTag with
  | some f => decryptFailed f.cause.error (f.scratch p.chunkBytes deciphered) (x.progressAfter (f.decryptCalls m))
  | none =>
    match openContainer p keyBits h x.password x.source with
    | none => decryptFailed .authenticationFailure (some deciphered) (x.progressAfter m)
    | some plaintext =>
      match x.failure with
      | some f => decryptFailed f.cause.error (some deciphered) (x.progressAfter m)
      | none =>
        { error := none
          destination := .complete plaintext
          finalPath := some (finalPathOf x.outputPath (extensionOf h.format))
          extension := extensionOf h.format
          scratch := some deciphered
          progress := x.progressAfter m }

/-- `decrypt` before CLOSE (rule R175 steps 1 to 10). -/
def decryptOpen (p : Params) (x : DecryptRequest) : DecryptOutcome :=
  if !validatePassword x.password then decryptFailed .passwordPolicyViolation none []
  else
    match x.failureBy .readHeader with
    | some f => decryptFailed f.cause.error none []
    | none =>
      match checkContainer x.source with
      | .error e => decryptFailed e none []
      | .ok (keyBits, h) => decryptChecked p x keyBits h

/-- `decrypt` (rule R175). -/
def decryptFile (p : Params) (x : DecryptRequest) : DecryptOutcome := (decryptOpen p x).closed

/-- `read_aes_key_length` (rule R176). -/
def readAesKeyLength (source : Option (List Byte)) : Nat :=
  match source with
  | none => 0
  | some file =>
    match Header.decode file with
    | none => 0
    | some h => if signatureOk h then (keyBitsOfCode h.keyLengthCode).getD 0 else 0

end Sys2Proof.Machine
end

