-- ==== Sys2Proof/Safety.lean ====
section
/-! DEFINITION. The terms the claims are stated in: the two completions written out (`60_exceptions.md` rules R151,
R152), the error a command must report (rule R153), what it takes for a command not to be refused (rule R55), and
the invariants of rule R31 (`10_state.md`) with the residue rules (U26) that make them inductive. -/

namespace Sys2Proof.Machine

/-- `s` with the flags and `ERRINFO` of a successful completion (rule R151). -/
def succeededFrom (s : State) : State :=
  { s with
    flags := { busy := false, done := true, err := false, esticky := s.flags.esticky }
    errInfo := { code := 0, detail := 0, opc := 0 } }

/-- `s` with the flags and `ERRINFO` of a failed completion and nothing else changed (rule R152). -/
def failedFrom (code detail : Byte) (s : State) : State :=
  { s with
    flags := { busy := false, done := true, err := true, esticky := true }
    errInfo := { code := code, detail := detail, opc := s.latch.extractLsb' 0 8 } }

/-- The operands a command names lie inside OPMEM (rule R41). -/
abbrev OperandsInRange (i : Instr) (s : State) : Prop :=
  ∀ o ∈ inputOperands i s ++ outputOperands i s, o.addr + o.len ≤ s.params.opmemBytes

/-- Class 2 of rule R153, the parameter errors: code and detail. -/
def parameterError (i : Instr) (s : State) : Option (Byte × Byte) :=
  match i with
  | .setKey keyBits => if keyBits = 128 ∨ keyBits = 192 ∨ keyBits = 256 then none else some (1#8, 0#8)
  | .pbkdf2 => if s.regs.iter = 0 then some (8#8, 0#8) else none
  | _ => none

/-- Class 3 of rule R153, the context-phase errors. -/
def contextError (i : Instr) (s : State) : Option (Byte × Byte) :=
  match i with
  | .encryptBlock | .decryptBlock | .ctrCrypt => if s.aes.valid then none else some (6#8, 1#8)
  | .shaUpdate | .shaFinal => if s.sha.st = .active then none else some (6#8, 2#8)
  | .hmacUpdate | .hmacFinal => if s.hm.st = .active then none else some (6#8, 3#8)
  | _ => none

/-- Class 4 of rule R153, `BAD_RANGE`. -/
def rangeError (i : Instr) (s : State) : Option (Byte × Byte) :=
  if OperandsInRange i s then none else some (6#8, 4#8)

/-- The one error a decoded command reports, the first in the order of rule R153. -/
def expectedError (i : Instr) (s : State) : Option (Byte × Byte) :=
  (parameterError i s).or ((contextError i s).or (rangeError i s))

/-- The errors a command can end with (rule R158): code and detail. -/
def errorsOf (i : Instr) : List (Byte × Byte) :=
  match i with
  | .setKey _ => [(1#8, 0#8), (6#8, 4#8)]
  | .encryptBlock => [(6#8, 1#8), (6#8, 4#8)]
  | .decryptBlock => [(6#8, 1#8), (6#8, 4#8)]
  | .ctrCrypt => [(6#8, 1#8), (6#8, 4#8)]
  | .shaInit => []
  | .shaUpdate => [(6#8, 2#8), (6#8, 4#8)]
  | .shaFinal => [(6#8, 2#8), (6#8, 4#8)]
  | .hmac => [(6#8, 4#8)]
  | .hmacInit => [(6#8, 4#8)]
  | .hmacUpdate => [(6#8, 3#8), (6#8, 4#8)]
  | .hmacFinal => [(6#8, 3#8), (6#8, 4#8)]
  | .pbkdf2 => [(8#8, 0#8), (6#8, 4#8)]
  | .zeroize => []

/-- Every OPMEM byte the command reads has been written (rules R55, R191). -/
abbrev InputsWritten (i : Instr) (s : State) : Prop :=
  ∀ o ∈ inputOperands i s, ∀ k < o.len, (s.opmem.byteAt (o.addr + k)).isSome

/-- The command belongs to the SHA family (rule R62). -/
def isShaCommand : Instr → Bool
  | .shaInit | .shaUpdate | .shaFinal => true
  | _ => false

/-- The command uses the HMAC context: the HMAC family and PBKDF2 (rule R18). -/
def usesHmac : Instr → Bool
  | .hmac | .hmacInit | .hmacUpdate | .hmacFinal | .pbkdf2 => true
  | _ => false

/-- The command is SET_KEY. -/
def isSetKey : Instr → Bool
  | .setKey _ => true
  | _ => false

/-- A hash state between operations: at most 127 buffered bytes, the rest of the buffer zero (rules R17, R31, U26). -/
abbrev HashState.Wf (h : HashState) : Prop :=
  h.n ≤ 127 ∧ ∀ i : Fin 128, h.n ≤ i.val → h.buf[i] = 0x00#8

/-- Rule R31 (3), with the schedule following from its leading bytes, and the cleared context otherwise. -/
abbrev AesContext.Wf (a : AesContext) : Prop :=
  (a.valid = true →
    (a.bits = 128 ∨ a.bits = 192 ∨ a.bits = 256) ∧ a.nk = a.bits / 32 ∧ a.nr = a.nk + 6 ∧
      a.rk = fixed 240 (keyExpand (slice a.rk.toList 0 (a.bits / 8)) a.bits).flatten) ∧
  (a.valid = false → a = AesContext.cleared)

/-- Rule R31 (2) for `SHA`; a context that is not ACTIVE is all zero (rules R30, R120, R140). -/
abbrev ShaContext.Wf (c : ShaContext) : Prop :=
  (c.st = .active → c.hash.Wf) ∧ (c.st ≠ .active → c.hash = HashState.zero)

/-- Rule R31 (2) for `HM`: while ACTIVE the outer instance has absorbed exactly one block. -/
abbrev HmacContext.Wf (c : HmacContext) : Prop :=
  (c.st = .active → c.inner.Wf ∧ c.outer.Wf ∧ c.outer.n = 0) ∧
  (c.st ≠ .active → c.inner = HashState.zero ∧ c.outer = HashState.zero)

/-- Rule R31 (4): what `ERR` says of `DONE` and `ERRINFO`. -/
abbrev ErrorsConsistent (s : State) : Prop :=
  (s.flags.err = true → s.flags.done = true ∧ s.errInfo.code ≠ 0) ∧ (s.flags.err = false → s.errInfo = ErrInfo.zero)

/-- While a command is in flight no completion is reported (rules R22, R46). -/
abbrev BusyConsistent (s : State) : Prop :=
  s.flags.busy = true → s.flags.done = false ∧ s.flags.err = false

/-- The invariant of the machine. -/
structure State.Inv (s : State) : Prop where
  opmem : s.opmem.wf s.params.opmemBytes
  aes : s.aes.Wf
  sha : s.sha.Wf
  hm : s.hm.Wf
  errors : ErrorsConsistent s
  busy : BusyConsistent s

/-- The machine after reset with any parameters and any host program: where every run begins (rules R15, R30). -/
def State.start (p : Params) (ts : List Turn) : State := { State.reset with params := p, turns := ts }

end Sys2Proof.Machine
end

