-- ==== Sys2Proof/Certificates/Slice0/Obligations.lean ====
section
/-! DEFINITION. The statements for the provers. They follow the numbered rules of the spec; each docstring names the
rule, or says that the statement rests on an inference or on a choice of the model. -/

open Sys2Proof Sys2Proof.Machine

/-! Encoding (`30_encoding.md`) -/

/-- Words written out field by field from rule R60 (`ARG`, `RSV`, `OPC`), one for every command, decode to it. -/
def Obligations.CommandWordsDecode : Prop :=
  decode (0x0080#16 ++ 0x00#8 ++ 0x01#8) = .ok (.setKey 128) ∧
  decode (0x00C0#16 ++ 0x00#8 ++ 0x01#8) = .ok (.setKey 192) ∧
  decode (0x0100#16 ++ 0x00#8 ++ 0x01#8) = .ok (.setKey 256) ∧
  decode (0x0000#16 ++ 0x00#8 ++ 0x02#8) = .ok .encryptBlock ∧
  decode (0x0000#16 ++ 0x00#8 ++ 0x03#8) = .ok .decryptBlock ∧
  decode (0x0000#16 ++ 0x00#8 ++ 0x04#8) = .ok .ctrCrypt ∧
  decode (0x0000#16 ++ 0x00#8 ++ 0x10#8) = .ok .shaInit ∧
  decode (0x0000#16 ++ 0x00#8 ++ 0x11#8) = .ok .shaUpdate ∧
  decode (0x0000#16 ++ 0x00#8 ++ 0x12#8) = .ok .shaFinal ∧
  decode (0x0000#16 ++ 0x00#8 ++ 0x20#8) = .ok .hmac ∧
  decode (0x0000#16 ++ 0x00#8 ++ 0x21#8) = .ok .hmacInit ∧
  decode (0x0000#16 ++ 0x00#8 ++ 0x22#8) = .ok .hmacUpdate ∧
  decode (0x0000#16 ++ 0x00#8 ++ 0x23#8) = .ok .hmacFinal ∧
  decode (0x0000#16 ++ 0x00#8 ++ 0x30#8) = .ok .pbkdf2 ∧
  decode (0x0000#16 ++ 0x00#8 ++ 0x40#8) = .ok .zeroize

/-- Rule R62: a word selects a row of the opcode map exactly when `word & mask = match`; SET_KEY leaves `ARG` free. -/
def Obligations.OpcodeTable : Prop :=
  ∀ c : Word,
    (∀ bits : Nat, decode c = .ok (.setKey bits) ↔
      c &&& 0x0000FFFF#32 = 0x00000001#32 ∧ bits = c.toNat / 2 ^ 16) ∧
    (decode c = .ok .encryptBlock ↔ c &&& 0xFFFFFFFF#32 = 0x00000002#32) ∧
    (decode c = .ok .decryptBlock ↔ c &&& 0xFFFFFFFF#32 = 0x00000003#32) ∧
    (decode c = .ok .ctrCrypt ↔ c &&& 0xFFFFFFFF#32 = 0x00000004#32) ∧
    (decode c = .ok .shaInit ↔ c &&& 0xFFFFFFFF#32 = 0x00000010#32) ∧
    (decode c = .ok .shaUpdate ↔ c &&& 0xFFFFFFFF#32 = 0x00000011#32) ∧
    (decode c = .ok .shaFinal ↔ c &&& 0xFFFFFFFF#32 = 0x00000012#32) ∧
    (decode c = .ok .hmac ↔ c &&& 0xFFFFFFFF#32 = 0x00000020#32) ∧
    (decode c = .ok .hmacInit ↔ c &&& 0xFFFFFFFF#32 = 0x00000021#32) ∧
    (decode c = .ok .hmacUpdate ↔ c &&& 0xFFFFFFFF#32 = 0x00000022#32) ∧
    (decode c = .ok .hmacFinal ↔ c &&& 0xFFFFFFFF#32 = 0x00000023#32) ∧
    (decode c = .ok .pbkdf2 ↔ c &&& 0xFFFFFFFF#32 = 0x00000030#32) ∧
    (decode c = .ok .zeroize ↔ c &&& 0xFFFFFFFF#32 = 0x00000040#32)

/-- Rule R63: which command words are illegal, and that writing one to `CMD` issues and completes like any command,
with `IllegalCommand` (code 7, detail 0) and no other effect than the flags and `LATCH`, which the issue wrote. -/
def Obligations.IllegalWordsFail : Prop :=
  ∀ c : Word,
    ((∀ i, decode c ≠ .ok i) ↔
      (c.extractLsb' 8 8 ≠ 0#8 ∨ (c.extractLsb' 16 16 ≠ 0#16 ∧ c.extractLsb' 0 8 ≠ 0x01#8) ∨
        c.extractLsb' 0 8 ∉ [0x01#8, 0x02#8, 0x03#8, 0x04#8, 0x10#8, 0x11#8, 0x12#8, 0x20#8, 0x21#8, 0x22#8,
          0x23#8, 0x30#8, 0x40#8])) ∧
    ((∀ i, decode c ≠ .ok i) → ∀ (s : State) (rest : List Turn), s.flags.busy = false →
      s.turns = .host (.regWrite 0x00 c) :: .core :: rest →
      Host.Core.run Sys2Proof.core 2 s = .next
        { s with
          turns := rest
          latch := c
          flags := { busy := false, done := true, err := true, esticky := true }
          errInfo := { code := 7#8, detail := 0#8, opc := c.extractLsb' 0 8 } })

/-- Decoding an encoded well-formed command gives it back, for every value of every field (rules R60, R61, R62). -/
def Obligations.EncodeThenDecode : Prop :=
  ∀ i : Instr, i.wellFormed = true → decode (encode i) = .ok i

/-- Every word that decodes is the encoding of what it decodes to, which is well formed: no word has two meanings and no
bit of a legal word is dropped (rules R60 to R63). -/
def Obligations.DecodeThenEncode : Prop :=
  ∀ (c : Word) (i : Instr), decode c = .ok i → i.wellFormed = true ∧ encode i = c

/-! The step: issue, completion, reset (`10_state.md`, `20_memory.md`) -/

/-- The core's turn runs the latched command: `step` is `exec` of the decoded word, once the turn is taken off the list;
with no turn listed the core has the turn. An idle core does nothing (rules R46, R166; the list of turns is the model's
own, log entry 3). -/
def Obligations.StepRunsLatchedCommand : Prop :=
  ∀ (s : State) (i : Instr) (rest : List Turn),
    (s.flags.busy = true → decode s.latch = .ok i →
      (s.turns = .core :: rest → step s = exec i { s with turns := rest }) ∧
      (s.turns = [] → step s = exec i s)) ∧
    (s.flags.busy = false →
      (s.turns = .core :: rest → step s = .next { s with turns := rest }) ∧ (s.turns = [] → step s = .next s))

/-- Rule R22: a `CMD` write while `BUSY = 0` latches the word, sets `BUSY`, clears `DONE`, `ERR` and `ERRINFO`, and
changes nothing else; the core then executes the word it decodes to; a read of `CMD` returns 0; a write while
`BUSY = 1` has no meaning. -/
def Obligations.CommandWriteIssues : Prop :=
  ∀ (s : State) (c : Word) (rest : List Turn),
    (s.flags.busy = false → s.turns = .host (.regWrite 0x00 c) :: rest →
      step s = .next
        { s with
          turns := rest
          latch := c
          flags := { busy := true, done := false, err := false, esticky := s.flags.esticky }
          errInfo := { code := 0#8, detail := 0#8, opc := 0#8 } }) ∧
    (s.flags.busy = false → s.turns = .host (.regWrite 0x00 c) :: .core :: rest → ∀ i, decode c = .ok i →
      ∀ t : State, Host.Core.run Sys2Proof.core 1 s = .next t → step t = exec i { t with turns := rest }) ∧
    (s.flags.busy = false → s.turns = .host (.regRead 0x00) :: rest →
      step s = .next { s with turns := rest, replies := .reg 0x00 0#32 :: s.replies }) ∧
    (s.flags.busy = true → s.turns = .host (.regWrite 0x00 c) :: rest → step s = .refused .accessWhileBusy)

/-- Rule R196: while `BUSY = 1` the host may read `STATUS`, which shows `BUSY = 1`, `DONE = 0`, `ERR = 0` and the other
fields as they are, and every other architectural access is refused. The premise on `DONE` and `ERR` is the invariant
`BusyConsistent`. -/
def Obligations.BusyHazard : Prop :=
  ∀ (s : State) (rest : List Turn), s.flags.busy = true →
    (s.flags.done = false ∧ s.flags.err = false → s.turns = .host (.regRead 0x04) :: rest →
      ∃ w : Word, step s = .next { s with turns := rest, replies := .reg 0x04 w :: s.replies } ∧
        w.extractLsb' 0 3 = 0b001#3 ∧ w.getLsbD 3 = s.flags.esticky ∧ w.getLsbD 4 = s.aes.valid ∧
        w.extractLsb' 5 2 = s.sha.st.code ∧ w.extractLsb' 7 2 = s.hm.st.code ∧ w.extractLsb' 9 23 = 0#23) ∧
    (∀ a : Access, a ≠ .regRead 0x04 → s.turns = .host a :: rest → step s = .refused .accessWhileBusy)

/-- Rule R30: the reset event gives every register, flag and context its reset value, in any state, also while a command
is in flight; no byte of OPMEM then has a value, and a command that reads one is refused. `State.reset` is that state,
but for the model's own fields `params`, `turns` and `replies`. -/
def Obligations.ResetEvent : Prop :=
  ∀ (s : State) (rest : List Turn), s.turns = .reset :: rest →
    ∃ t : State, step s = .next t ∧
      t.regs = { keyAddr := 0, keyLen := 0, srcAddr := 0, srcLen := 0, dstAddr := 0, dstLen := 0, ctrAddr := 0,
                 iter := 0 } ∧
      statusWord t = 0#32 ∧ errInfoWord t = 0#32 ∧ registerValue t 0x00 = 0#32 ∧ t.latch = 0#32 ∧
      t.aes = { rk := Vector.replicate 240 0#8, nr := 0, nk := 0, bits := 0, valid := false } ∧
      t.sha.hash.h = Vector.replicate 8 0#64 ∧ t.sha.hash.buf = Vector.replicate 128 0#8 ∧ t.sha.hash.n = 0 ∧
      t.sha.hash.lenHi = 0#64 ∧ t.sha.hash.lenLo = 0#64 ∧ t.sha.st = .idle ∧
      t.hm.inner = t.sha.hash ∧ t.hm.outer = t.sha.hash ∧ t.hm.st = .idle ∧
      (∀ k, t.opmem.byteAt k = none) ∧
      (t.params.Legal → ∀ bits, bits = 128 ∨ bits = 192 ∨ bits = 256 →
        exec (.setKey bits) t = .refused (.unwrittenByte 0)) ∧
      t = { State.reset with params := t.params, turns := t.turns, replies := t.replies }

/-- The machine after reset, with any parameters and any host program, meets the invariant, and so does the state the
reset event leads to. That the event keeps the parameters, the turns to come and the replies is the model's choice (log
entry 3). -/
def Obligations.ResetMeetsInvariant : Prop :=
  (∀ (p : Params) (ts : List Turn), (State.start p ts).Inv) ∧
  (∀ (s : State) (rest : List Turn), s.turns = .reset :: rest →
    ∃ t : State, step s = .next t ∧ t = { State.start s.params rest with replies := s.replies } ∧ t.Inv)

/-- Every step keeps the invariant: the canonical form of OPMEM, the well-formedness of the three contexts, and what
`BUSY`, `ERR` and `ERRINFO` say of each other (rules R17, R26, R31; the zero residue of U26). -/
def Obligations.StepKeepsInvariant : Prop :=
  ∀ s t : State, s.Inv → step s = .next t → t.Inv

/-- Rule R31, of every state a run from reset reaches with `BUSY = 0`, for all parameters and all host programs. In (3)
the master key is traced back to the step that loaded it: a step `j` runs SET_KEY on those bytes, and from then on the
AES context has not changed. -/
def Obligations.ReachableInvariants : Prop :=
  ∀ (p : Params) (ts : List Turn) (k : Nat) (t : State),
    Host.Core.run Sys2Proof.core k (State.start p ts) = .next t → t.flags.busy = false →
    ((statusWord t).getLsbD 4 = t.aes.valid ∧ (statusWord t).extractLsb' 5 2 = t.sha.st.code ∧
      (statusWord t).extractLsb' 7 2 = t.hm.st.code) ∧
    (t.sha.hash.n ≤ 127 ∧ (t.hm.st = .active → t.hm.inner.n ≤ 127 ∧ t.hm.outer.n = 0)) ∧
    (t.aes.valid = true →
      (t.aes.bits = 128 ∨ t.aes.bits = 192 ∨ t.aes.bits = 256) ∧ t.aes.nk = t.aes.bits / 32 ∧
      t.aes.nr = t.aes.nk + 6 ∧
      ∃ j < k, (∃ u : State, Host.Core.run Sys2Proof.core j (State.start p ts) = .next u ∧ u.flags.busy = true ∧
          (u.turns = [] ∨ u.turns.head? = some .core) ∧ decode u.latch = .ok (.setKey t.aes.bits) ∧
          u.opmem.read u.regs.keyAddr.toNat (t.aes.bits / 8) = .ok (slice t.aes.rk.toList 0 (t.aes.bits / 8))) ∧
        ∀ m, j < m → m ≤ k →
          ∃ v : State, Host.Core.run Sys2Proof.core m (State.start p ts) = .next v ∧ v.aes = t.aes) ∧
    ((t.flags.err = true → t.flags.done = true ∧ t.errInfo.code ≠ 0#8) ∧
      (t.flags.err = false → errInfoWord t = 0#32) ∧
      ∀ j < k, ∀ u v : State, Host.Core.run Sys2Proof.core j (State.start p ts) = .next u →
        Host.Core.run Sys2Proof.core (j + 1) (State.start p ts) = .next v →
        u.flags.err = false → v.flags.err = true → v.flags.esticky = true) ∧
    ((statusWord t).extractLsb' 9 23 = 0#23 ∧ (errInfoWord t).extractLsb' 24 8 = 0#8)

/-! The thirteen commands, one statement for each rule: the word, every error in check order, and the next state of a
command that runs to its end. A command whose input operand holds an unwritten byte is the subject of
`UnwrittenInputRefused`. That the completion of any command but ZEROIZE leaves `LATCH` as it is follows from no rule that writes it (log
entry 8). -/

/-- Rule R88. -/
def Obligations.SetKeyRule : Prop :=
  decode 0x00800001#32 = .ok (.setKey 128) ∧ decode 0x00C00001#32 = .ok (.setKey 192) ∧
  decode 0x01000001#32 = .ok (.setKey 256) ∧
  ∀ (s : State) (bits : Nat),
    (¬(bits = 128 ∨ bits = 192 ∨ bits = 256) → exec (.setKey bits) s = .next (failedFrom 1 0 s)) ∧
    ((bits = 128 ∨ bits = 192 ∨ bits = 256) →
      (s.params.opmemBytes < s.regs.keyAddr.toNat + bits / 8 →
        exec (.setKey bits) s = .next (failedFrom 6 4 s)) ∧
      (s.regs.keyAddr.toNat + bits / 8 ≤ s.params.opmemBytes →
        ∀ key, s.opmem.read s.regs.keyAddr.toNat (bits / 8) = .ok key →
          exec (.setKey bits) s = .next (succeededFrom
            { s with
              aes :=
                { rk := fixed 240 ((keyExpand key bits).flatten ++
                    zeros (240 - 16 * (bits / 32 + 6 + 1)))
                  nr := bits / 32 + 6
                  nk := bits / 32
                  bits := bits
                  valid := true } })))

/-- Rule R89. -/
def Obligations.EncryptBlockRule : Prop :=
  decode 0x00000002#32 = .ok .encryptBlock ∧
  ∀ s : State,
    (s.aes.valid = false → exec .encryptBlock s = .next (failedFrom 6 1 s)) ∧
    (s.aes.valid = true →
      (s.params.opmemBytes < s.regs.srcAddr.toNat + 16 ∨ s.params.opmemBytes < s.regs.dstAddr.toNat + 16 →
        exec .encryptBlock s = .next (failedFrom 6 4 s)) ∧
      (s.regs.srcAddr.toNat + 16 ≤ s.params.opmemBytes → s.regs.dstAddr.toNat + 16 ≤ s.params.opmemBytes →
        ∀ b, s.opmem.read s.regs.srcAddr.toNat 16 = .ok b →
          exec .encryptBlock s = .next (succeededFrom
            { s with
              opmem := s.opmem.writeBytes s.regs.dstAddr.toNat (aesEnc s.aes.rk s.aes.nr (fixed 16 b)).toList })))

/-- Rule R90. -/
def Obligations.DecryptBlockRule : Prop :=
  decode 0x00000003#32 = .ok .decryptBlock ∧
  ∀ s : State,
    (s.aes.valid = false → exec .decryptBlock s = .next (failedFrom 6 1 s)) ∧
    (s.aes.valid = true →
      (s.params.opmemBytes < s.regs.srcAddr.toNat + 16 ∨ s.params.opmemBytes < s.regs.dstAddr.toNat + 16 →
        exec .decryptBlock s = .next (failedFrom 6 4 s)) ∧
      (s.regs.srcAddr.toNat + 16 ≤ s.params.opmemBytes → s.regs.dstAddr.toNat + 16 ≤ s.params.opmemBytes →
        ∀ b, s.opmem.read s.regs.srcAddr.toNat 16 = .ok b →
          exec .decryptBlock s = .next (succeededFrom
            { s with
              opmem := s.opmem.writeBytes s.regs.dstAddr.toNat (aesDec s.aes.rk s.aes.nr (fixed 16 b)).toList })))

/-- Rule R102, the outputs in the rule's closed form; the counter block is written second. -/
def Obligations.CtrCryptRule : Prop :=
  decode 0x00000004#32 = .ok .ctrCrypt ∧
  ∀ s : State, let L := s.regs.srcLen.toNat
    (s.aes.valid = false → exec .ctrCrypt s = .next (failedFrom 6 1 s)) ∧
    (s.aes.valid = true →
      (s.params.opmemBytes < s.regs.srcAddr.toNat + L ∨ s.params.opmemBytes < s.regs.dstAddr.toNat + L ∨
          s.params.opmemBytes < s.regs.ctrAddr.toNat + 16 →
        exec .ctrCrypt s = .next (failedFrom 6 4 s)) ∧
      (s.regs.srcAddr.toNat + L ≤ s.params.opmemBytes → s.regs.dstAddr.toNat + L ≤ s.params.opmemBytes →
        s.regs.ctrAddr.toNat + 16 ≤ s.params.opmemBytes →
        ∀ inp cb, s.opmem.read s.regs.srcAddr.toNat L = .ok inp → s.opmem.read s.regs.ctrAddr.toNat 16 = .ok cb →
          exec .ctrCrypt s = .next (succeededFrom
            { s with
              opmem :=
                (s.opmem.writeBytes s.regs.dstAddr.toNat ((List.range L).map fun i =>
                    inp.getD i 0#8 ^^^
                      (aesEnc s.aes.rk s.aes.nr (fixed 16 (be128 ((frombe cb + i / 16) % 2 ^ 128)))).toList.getD
                        (i % 16) 0#8)).writeBytes
                  s.regs.ctrAddr.toNat (be128 ((frombe cb + (L + 15) / 16) % 2 ^ 128)) })))

/-- Rule R118. -/
def Obligations.ShaInitRule : Prop :=
  decode 0x00000010#32 = .ok .shaInit ∧
  ∀ s : State, exec .shaInit s = .next (succeededFrom
    { s with
      sha :=
        { hash := { h := initialHash, buf := Vector.replicate 128 0#8, n := 0, lenHi := 0, lenLo := 0 }
          st := .active } })

/-- Rule R119. -/
def Obligations.ShaUpdateRule : Prop :=
  decode 0x00000011#32 = .ok .shaUpdate ∧
  ∀ s : State,
    (s.sha.st ≠ .active → exec .shaUpdate s = .next (failedFrom 6 2 s)) ∧
    (s.sha.st = .active →
      (s.params.opmemBytes < s.regs.srcAddr.toNat + s.regs.srcLen.toNat →
        exec .shaUpdate s = .next (failedFrom 6 4 s)) ∧
      (s.regs.srcAddr.toNat + s.regs.srcLen.toNat ≤ s.params.opmemBytes →
        ∀ d, s.opmem.read s.regs.srcAddr.toNat s.regs.srcLen.toNat = .ok d →
          exec .shaUpdate s = .next (succeededFrom
            { s with sha := { hash := shaUpdate s.sha.hash d, st := .active } })))

/-- Rule R120. -/
def Obligations.ShaFinalRule : Prop :=
  decode 0x00000012#32 = .ok .shaFinal ∧
  ∀ s : State,
    (s.sha.st ≠ .active → exec .shaFinal s = .next (failedFrom 6 2 s)) ∧
    (s.sha.st = .active →
      (s.params.opmemBytes < s.regs.dstAddr.toNat + 64 → exec .shaFinal s = .next (failedFrom 6 4 s)) ∧
      (s.regs.dstAddr.toNat + 64 ≤ s.params.opmemBytes →
        exec .shaFinal s = .next (succeededFrom
          { s with
            opmem := s.opmem.writeBytes s.regs.dstAddr.toNat (shaFinal s.sha.hash)
            sha :=
              { hash := { h := Vector.replicate 8 0, buf := Vector.replicate 128 0, n := 0, lenHi := 0, lenLo := 0 }
                st := .consumed } })))

/-- Rule R127. -/
def Obligations.HmacRule : Prop :=
  decode 0x00000020#32 = .ok .hmac ∧
  ∀ s : State,
    (s.params.opmemBytes < s.regs.keyAddr.toNat + s.regs.keyLen.toNat ∨
        s.params.opmemBytes < s.regs.srcAddr.toNat + s.regs.srcLen.toNat ∨
        s.params.opmemBytes < s.regs.dstAddr.toNat + 64 →
      exec .hmac s = .next (failedFrom 6 4 s)) ∧
    (s.regs.keyAddr.toNat + s.regs.keyLen.toNat ≤ s.params.opmemBytes →
      s.regs.srcAddr.toNat + s.regs.srcLen.toNat ≤ s.params.opmemBytes →
      s.regs.dstAddr.toNat + 64 ≤ s.params.opmemBytes →
      ∀ key data, s.opmem.read s.regs.keyAddr.toNat s.regs.keyLen.toNat = .ok key →
        s.opmem.read s.regs.srcAddr.toNat s.regs.srcLen.toNat = .ok data →
        exec .hmac s = .next (succeededFrom
          { s with
            opmem := s.opmem.writeBytes s.regs.dstAddr.toNat (hmacTag key data)
            hm := { inner := HashState.zero, outer := HashState.zero, st := .consumed } }))

/-- Rule R128. -/
def Obligations.HmacInitRule : Prop :=
  decode 0x00000021#32 = .ok .hmacInit ∧
  ∀ s : State,
    (s.params.opmemBytes < s.regs.keyAddr.toNat + s.regs.keyLen.toNat →
      exec .hmacInit s = .next (failedFrom 6 4 s)) ∧
    (s.regs.keyAddr.toNat + s.regs.keyLen.toNat ≤ s.params.opmemBytes →
      ∀ key, s.opmem.read s.regs.keyAddr.toNat s.regs.keyLen.toNat = .ok key →
        exec .hmacInit s = .next (succeededFrom
          { s with
            hm :=
              { inner := shaUpdate shaInit (xorBytes (hmacKey key) (rep 0x36#8 128))
                outer := shaUpdate shaInit (xorBytes (hmacKey key) (rep 0x5c#8 128))
                st := .active } }))

/-- Rule R129. -/
def Obligations.HmacUpdateRule : Prop :=
  decode 0x00000022#32 = .ok .hmacUpdate ∧
  ∀ s : State,
    (s.hm.st ≠ .active → exec .hmacUpdate s = .next (failedFrom 6 3 s)) ∧
    (s.hm.st = .active →
      (s.params.opmemBytes < s.regs.srcAddr.toNat + s.regs.srcLen.toNat →
        exec .hmacUpdate s = .next (failedFrom 6 4 s)) ∧
      (s.regs.srcAddr.toNat + s.regs.srcLen.toNat ≤ s.params.opmemBytes →
        ∀ d, s.opmem.read s.regs.srcAddr.toNat s.regs.srcLen.toNat = .ok d →
          exec .hmacUpdate s = .next (succeededFrom
            { s with hm := { inner := shaUpdate s.hm.inner d, outer := s.hm.outer, st := .active } })))

/-- Rule R130. -/
def Obligations.HmacFinalRule : Prop :=
  decode 0x00000023#32 = .ok .hmacFinal ∧
  ∀ s : State,
    (s.hm.st ≠ .active → exec .hmacFinal s = .next (failedFrom 6 3 s)) ∧
    (s.hm.st = .active →
      (s.params.opmemBytes < s.regs.dstAddr.toNat + 64 → exec .hmacFinal s = .next (failedFrom 6 4 s)) ∧
      (s.regs.dstAddr.toNat + 64 ≤ s.params.opmemBytes →
        exec .hmacFinal s = .next (succeededFrom
          { s with
            opmem := s.opmem.writeBytes s.regs.dstAddr.toNat
              (shaFinal (shaUpdate s.hm.outer (shaFinal s.hm.inner)))
            hm := { inner := HashState.zero, outer := HashState.zero, st := .consumed } })))

/-- Rule R136. -/
def Obligations.Pbkdf2Rule : Prop :=
  decode 0x00000030#32 = .ok .pbkdf2 ∧
  ∀ s : State,
    (s.regs.iter = 0#32 → exec .pbkdf2 s = .next (failedFrom 8 0 s)) ∧
    (s.regs.iter ≠ 0#32 →
      (s.params.opmemBytes < s.regs.keyAddr.toNat + s.regs.keyLen.toNat ∨
          s.params.opmemBytes < s.regs.srcAddr.toNat + s.regs.srcLen.toNat ∨
          s.params.opmemBytes < s.regs.dstAddr.toNat + s.regs.dstLen.toNat →
        exec .pbkdf2 s = .next (failedFrom 6 4 s)) ∧
      (s.regs.keyAddr.toNat + s.regs.keyLen.toNat ≤ s.params.opmemBytes →
        s.regs.srcAddr.toNat + s.regs.srcLen.toNat ≤ s.params.opmemBytes →
        s.regs.dstAddr.toNat + s.regs.dstLen.toNat ≤ s.params.opmemBytes →
        ∀ P S, s.opmem.read s.regs.keyAddr.toNat s.regs.keyLen.toNat = .ok P →
          s.opmem.read s.regs.srcAddr.toNat s.regs.srcLen.toNat = .ok S →
          exec .pbkdf2 s = .next (succeededFrom
            { s with
              opmem := s.opmem.writeBytes s.regs.dstAddr.toNat
                (pbkdf2 P S s.regs.iter.toNat s.regs.dstLen.toNat)
              hm := { inner := HashState.zero, outer := HashState.zero, st := .consumed } })))

/-- Rule R140: afterwards the machine is in its reset state (`LATCH` too) except that every byte of OPMEM is written as
0x00 and `ESTICKY`, `DONE` keep their meaning; the model's own fields `params`, `turns` and `replies` are as before. -/
def Obligations.ZeroizeRule : Prop :=
  decode 0x00000040#32 = .ok .zeroize ∧
  ∀ s : State, ∃ m : Memory,
    exec .zeroize s = .next (succeededFrom
      { s with
        aes := { rk := Vector.replicate 240 0, nr := 0, nk := 0, bits := 0, valid := false }
        sha := { hash := HashState.zero, st := .idle }
        hm := { inner := HashState.zero, outer := HashState.zero, st := .idle }
        regs := { keyAddr := 0, keyLen := 0, srcAddr := 0, srcLen := 0, dstAddr := 0, dstLen := 0, ctrAddr := 0,
                  iter := 0 }
        latch := 0#32
        opmem := m }) ∧
    exec .zeroize s = .next
      { State.reset with
        params := s.params
        flags := { busy := false, done := true, err := false, esticky := s.flags.esticky }
        opmem := m
        turns := s.turns
        replies := s.replies } ∧
    (∀ k < s.params.opmemBytes, m.byteAt k = some 0x00#8) ∧ (∀ k ≥ s.params.opmemBytes, m.byteAt k = none)

/-! Rules about every command (`60_exceptions.md`, `20_memory.md`, `10_state.md`) -/

/-- The frame of every command: which registers, contexts and flags a command that answers a next state can have
changed (rules R16, R18, R20, R42; `ESTICKY` by rules R151, R152). Only ZEROIZE writes an operand register. ZEROIZE
clears `LATCH` (rule R140); that every other command leaves it is a deduction (log entry 8). -/
def Obligations.ExecStateFrame : Prop :=
  ∀ (i : Instr) (s t : State), exec i s = .next t →
    (i ≠ .zeroize → t.regs = s.regs) ∧
    (i ≠ .zeroize → (∀ bits, i ≠ .setKey bits) → t.aes = s.aes) ∧
    (i ≠ .zeroize → i ≠ .shaInit → i ≠ .shaUpdate → i ≠ .shaFinal → t.sha = s.sha) ∧
    (i ≠ .zeroize → i ≠ .hmac → i ≠ .hmacInit → i ≠ .hmacUpdate → i ≠ .hmacFinal → i ≠ .pbkdf2 → t.hm = s.hm) ∧
    (i = .shaUpdate → t.sha.st = s.sha.st) ∧
    (i = .hmacUpdate → t.hm.st = s.hm.st ∧ t.hm.outer = s.hm.outer) ∧
    t.flags.busy = false ∧ t.flags.done = true ∧ t.flags.esticky = (s.flags.esticky || t.flags.err) ∧
    (i ≠ .zeroize → t.latch = s.latch) ∧ (i = .zeroize → t.latch = 0#32) ∧
    t.params = s.params ∧ t.turns = s.turns ∧ t.replies = s.replies

/-- The frame of memory: every byte outside the operands a command stores to reads as before, for a command that answers
a next state, failed or not; the stored operands are computed by `outputOperands`, which the meanings store to. ZEROIZE
writes all of OPMEM and no byte beyond it (rules R43, R48, R61, R140). -/
def Obligations.ExecMemoryFrame : Prop :=
  ∀ (i : Instr) (s t : State), exec i s = .next t →
    (i ≠ .zeroize → ∀ a, (∀ o ∈ outputOperands i s, a < o.addr ∨ o.addr + o.len ≤ a) →
      t.opmem.byteAt a = s.opmem.byteAt a) ∧
    (i = .zeroize → ∀ a ≥ s.params.opmemBytes, t.opmem.byteAt a = none)

/-- Rules R151 and R152: the two completions. The core's turn on a latched word, legal or not, either completes without
error, or completes with an error and has changed nothing but `STATUS` and `ERRINFO` (`LATCH`: log entry 8); `STATUS`
mirrors the contexts. -/
def Obligations.Completion : Prop :=
  ∀ (s t : State), s.flags.busy = true → s.turns = [] ∨ s.turns.head? = some .core → step s = .next t →
    (t.flags.err = false →
      t.flags = { busy := false, done := true, err := false, esticky := s.flags.esticky } ∧
      errInfoWord t = 0#32) ∧
    (t.flags.err = true →
      ∃ code detail : Byte, code ≠ 0#8 ∧
        t = { s with
              turns := s.turns.tail
              flags := { busy := false, done := true, err := true, esticky := true }
              errInfo := { code := code, detail := detail, opc := s.latch.extractLsb' 0 8 } } ∧
        errInfoWord t = 0x00#8 ++ s.latch.extractLsb' 0 8 ++ detail ++ code) ∧
    (statusWord t).getLsbD 4 = t.aes.valid ∧ (statusWord t).extractLsb' 5 2 = t.sha.st.code ∧
      (statusWord t).extractLsb' 7 2 = t.hm.st.code

/-- Rule R153, with the table of rule R158 (derived in the spec's words): exactly one error is reported, the first in the order illegal word, parameter error,
context-phase error, `BAD_RANGE`; every error a command reports is one rule R158 lists for it, and a command none of
whose conditions holds completes without error wherever it answers a next state. `expectedError` and `errorsOf`
(Safety.lean) spell the classes and the table out. -/
def Obligations.FirstErrorReported : Prop :=
  (∀ (s : State), s.flags.busy = true → s.turns = [] ∨ s.turns.head? = some .core → (∀ i, decode s.latch ≠ .ok i) →
    step s = .next (failedFrom 7 0 { s with turns := s.turns.tail })) ∧
  ∀ (i : Instr) (s : State),
    (∀ e, parameterError i s = some e → exec i s = .next (failedFrom e.1 e.2 s) ∧ e ∈ errorsOf i) ∧
    (parameterError i s = none → ∀ e, contextError i s = some e →
      exec i s = .next (failedFrom e.1 e.2 s) ∧ e ∈ errorsOf i) ∧
    (parameterError i s = none → contextError i s = none → ∀ e, rangeError i s = some e →
      exec i s = .next (failedFrom e.1 e.2 s) ∧ e ∈ errorsOf i) ∧
    (parameterError i s = none → contextError i s = none → rangeError i s = none →
      ∀ t, exec i s = .next t → t.flags.err = false)

/-- A command whose input bytes have all been written completes, whatever they hold: without error where none of the
error conditions holds, with an error otherwise (the totality of rules R91 (4) and R158, the termination of R202). -/
def Obligations.CommandsComplete : Prop :=
  ∀ (i : Instr) (s : State), InputsWritten i s →
    ∃ t, exec i s = .next t ∧ (t.flags.err = true ↔ expectedError i s ≠ none)

/-- Rule R55: a command with no error condition, one of whose input operands holds a byte that nothing has written since
reset, is refused at such a byte. After ZEROIZE every byte is written (`ZeroizeRule`). -/
def Obligations.UnwrittenInputRefused : Prop :=
  (∀ (i : Instr) (s : State), expectedError i s = none → ¬InputsWritten i s →
    ∃ o ∈ inputOperands i s, ∃ k, o.addr ≤ k ∧ k < o.addr + o.len ∧ s.opmem.byteAt k = none ∧
      exec i s = .refused (.unwrittenByte k)) ∧
  (∀ (s t : State), exec .zeroize s = .next t → ∀ k < t.params.opmemBytes, t.opmem.byteAt k = some 0x00#8)

/-- Only the operand registers the rule of a command names matter to it (rule R20): with any other values in the others
the command does the same, and leaves those values. -/
def Obligations.OnlyNamedRegistersMatter : Prop :=
  ∀ (i : Instr) (s : State) (r : OperandRegs), (∀ name ∈ registersRead i, r.get name = s.regs.get name) →
    (∀ t, exec i s = .next t →
      exec i { s with regs := r } = .next { t with regs := if i = .zeroize then t.regs else r }) ∧
    (∀ e, exec i s = .refused e → exec i { s with regs := r } = .refused e)

/-- Commands run the same whatever `STATUS` and `ERRINFO` hold, `ESTICKY` among it, and `CLRERR` has no other effect than
to clear `ESTICKY` (rule R154). -/
def Obligations.FlagsDoNotMatter : Prop :=
  (∀ (i : Instr) (s : State) (f : StatusFlags) (e : ErrInfo),
    (∀ t, exec i s = .next t → exec i { s with flags := f, errInfo := e } =
      .next { t with flags := { t.flags with esticky := f.esticky || t.flags.err } }) ∧
    (∀ r, exec i s = .refused r → exec i { s with flags := f, errInfo := e } = .refused r)) ∧
  (∀ (s : State) (rest : List Turn), s.flags.busy = false →
    s.turns = .host (.regWrite 0x04 0x00000008#32) :: rest →
    step s = .next { s with turns := rest, flags := { s.flags with esticky := false } })

/-- Who writes what, over every step of the machine (rules R16, R18, R20, R26, R131, R194): a context changes only in the
core's turn on a command of its own engine or ZEROIZE, or by reset; an operand register only by a host write to it, by
ZEROIZE or by reset; OPMEM only by a host write, by a completion or by reset. `LATCH` changes only by a `CMD` write, by
ZEROIZE or by reset (rules R22, R30, R140), because no other rule writes it: a deduction (log entry 8). -/
def Obligations.StepOwnership : Prop :=
  ∀ (s t : State), step s = .next t →
    let runs := fun i : Instr =>
      s.flags.busy = true ∧ (s.turns = [] ∨ s.turns.head? = some .core) ∧ decode s.latch = .ok i
    let isReset := s.turns.head? = some .reset
    (t.aes ≠ s.aes → isReset ∨ runs .zeroize ∨ ∃ bits, runs (.setKey bits)) ∧
    (t.sha ≠ s.sha → isReset ∨ runs .zeroize ∨ runs .shaInit ∨ runs .shaUpdate ∨ runs .shaFinal) ∧
    (t.hm ≠ s.hm → isReset ∨ runs .zeroize ∨ runs .hmac ∨ runs .hmacInit ∨ runs .hmacUpdate ∨ runs .hmacFinal ∨
      runs .pbkdf2) ∧
    (∀ name : OperandReg, t.regs.get name ≠ s.regs.get name → isReset ∨ runs .zeroize ∨
      (s.flags.busy = false ∧ s.turns.head? = some (.host (.regWrite name.offset (t.regs.get name))))) ∧
    (∀ k, t.opmem.byteAt k ≠ s.opmem.byteAt k → isReset ∨ (∃ i, runs i) ∨
      (s.flags.busy = false ∧ ∃ b, s.turns.head? = some (.host (.memWriteByte k b)))) ∧
    (t.latch ≠ s.latch → isReset ∨ runs .zeroize ∨
      (s.flags.busy = false ∧ s.turns.head? = some (.host (.regWrite 0x00 t.latch)))) ∧
    t.params = s.params

/-- What sets and what clears each flag, over every step from a state that meets the invariant (rule R25). -/
def Obligations.FlagsSetAndCleared : Prop :=
  ∀ (s t : State), s.Inv → step s = .next t →
    let completes := s.flags.busy = true ∧ (s.turns = [] ∨ s.turns.head? = some .core)
    let runs := fun i : Instr => completes ∧ decode s.latch = .ok i
    let isReset := s.turns.head? = some .reset
    let cmdWrite := s.flags.busy = false ∧ ∃ c, s.turns.head? = some (.host (.regWrite 0x00 c))
    (s.flags.busy = false → t.flags.busy = true → cmdWrite) ∧
    (s.flags.busy = true → t.flags.busy = false → completes ∨ isReset) ∧
    (s.flags.done = false → t.flags.done = true → completes) ∧
    (s.flags.done = true → t.flags.done = false → cmdWrite ∨ isReset) ∧
    (s.flags.err = false → t.flags.err = true → completes ∧ t.errInfo.code ≠ 0#8) ∧
    (s.flags.err = true → t.flags.err = false → cmdWrite ∨ isReset) ∧
    (s.flags.esticky = false → t.flags.esticky = true → completes ∧ t.flags.err = true) ∧
    (s.flags.esticky = true → t.flags.esticky = false → isReset ∨
      (s.flags.busy = false ∧ ∃ v : Word, v.getLsbD 3 = true ∧ s.turns.head? = some (.host (.regWrite 0x04 v)))) ∧
    (s.aes.valid = false → t.aes.valid = true → ∃ bits, runs (.setKey bits) ∧ t.flags.err = false) ∧
    (s.aes.valid = true → t.aes.valid = false → runs .zeroize ∨ isReset) ∧
    (s.sha.st ≠ t.sha.st →
      (t.sha.st = .active ∧ runs .shaInit) ∨ (t.sha.st = .consumed ∧ runs .shaFinal ∧ t.flags.err = false) ∨
      (t.sha.st = .idle ∧ (runs .zeroize ∨ isReset))) ∧
    (s.hm.st ≠ t.hm.st →
      (t.hm.st = .active ∧ runs .hmacInit ∧ t.flags.err = false) ∨
      (t.hm.st = .consumed ∧ (runs .hmacFinal ∨ runs .hmac ∨ runs .pbkdf2) ∧ t.flags.err = false) ∨
      (t.hm.st = .idle ∧ (runs .zeroize ∨ isReset)))

/-- The contexts have no read port (rule R29): two states that differ only in what the host cannot see (the contents of
the contexts, not their phases, and `LATCH`) answer every host access alike, with the same replies. -/
def Obligations.ContextsNotReadable : Prop :=
  ∀ (s : State) (aes' : AesContext) (sha' : ShaContext) (hm' : HmacContext) (latch' : Word) (a : Access),
    aes'.valid = s.aes.valid → sha'.st = s.sha.st → hm'.st = s.hm.st →
    let s' := { s with aes := aes', sha := sha', hm := hm', latch := latch' }
    (∀ t, hostAccess a s = .next t →
      ∃ l, hostAccess a s' = .next { t with aes := aes', sha := sha', hm := hm', latch := l }) ∧
    (∀ r, hostAccess a s = .refused r → hostAccess a s' = .refused r) ∧
    (∀ f, hostAccess a s = .fault f → hostAccess a s' = .fault f)

/-! The register block and the window (`10_state.md`, `20_memory.md`) -/

/-- Rules R21, R23, R24: what a read of `STATUS` and of `ERRINFO` returns bit by bit, with no side effect, and that a
write to `STATUS` only clears `ESTICKY` where bit 3 is 1, a write to `ERRINFO` does nothing. When the flags change is the
subject of `CommandWriteIssues`, `Completion` and `FlagsSetAndCleared`. -/
def Obligations.StatusAndErrInfoRegisters : Prop :=
  ∀ (s : State) (rest : List Turn) (v : Word), s.flags.busy = false →
    (s.turns = .host (.regRead 0x04) :: rest →
      ∃ w : Word, step s = .next { s with turns := rest, replies := .reg 0x04 w :: s.replies } ∧
        w.getLsbD 0 = s.flags.busy ∧ w.getLsbD 1 = s.flags.done ∧ w.getLsbD 2 = s.flags.err ∧
        w.getLsbD 3 = s.flags.esticky ∧ w.getLsbD 4 = s.aes.valid ∧
        w.extractLsb' 5 2 = (match s.sha.st with | .idle => 0#2 | .active => 1#2 | .consumed => 2#2) ∧
        w.extractLsb' 7 2 = (match s.hm.st with | .idle => 0#2 | .active => 1#2 | .consumed => 2#2) ∧
        w.extractLsb' 9 23 = 0#23) ∧
    (s.turns = .host (.regRead 0x08) :: rest →
      ∃ w : Word, step s = .next { s with turns := rest, replies := .reg 0x08 w :: s.replies } ∧
        w.extractLsb' 0 8 = s.errInfo.code ∧ w.extractLsb' 8 8 = s.errInfo.detail ∧
        w.extractLsb' 16 8 = s.errInfo.opc ∧ w.extractLsb' 24 8 = 0#8) ∧
    (s.turns = .host (.regWrite 0x04 v) :: rest →
      step s = .next
        { s with turns := rest, flags := { s.flags with esticky := s.flags.esticky && !v.getLsbD 3 } }) ∧
    (s.turns = .host (.regWrite 0x08 v) :: rest → step s = .next { s with turns := rest })

/-- The operand registers at their offsets (rule R20): a write stores the value there and nowhere else; a read returns
the register's value with no side effect. -/
def Obligations.OperandRegisterAccess : Prop :=
  ∀ (s : State) (rest : List Turn) (name : OperandReg) (off : Nat) (v : Word), s.flags.busy = false →
    (name, off) ∈ [(OperandReg.keyAddr, 0x10), (.keyLen, 0x14), (.srcAddr, 0x18), (.srcLen, 0x1C), (.dstAddr, 0x20),
      (.dstLen, 0x24), (.ctrAddr, 0x28), (.iter, 0x2C)] →
    (s.turns = .host (.regWrite off v) :: rest →
      ∃ r : OperandRegs, step s = .next { s with turns := rest, regs := r } ∧ r.get name = v ∧
        ∀ other, other ≠ name → r.get other = s.regs.get other) ∧
    (s.turns = .host (.regRead off) :: rest →
      step s = .next { s with turns := rest, replies := .reg off (s.regs.get name) :: s.replies })

/-- The reserved space (rule R32) and the accesses outside the host contract (rule R45, U5): the reserved offsets read as 0
and ignore writes; a register access that is not aligned, or as a bus access not 32 bits wide, and an access to a host
address above the block, is refused. That an address below `CORE_BASE` is refused too is the model's choice (log entry
5). By which name the model refuses is the subject of `HostAccessStops`. -/
def Obligations.ReservedSpace : Prop :=
  ∀ (s : State) (rest : List Turn), s.flags.busy = false →
    (∀ off v, (off = 0x0C ∨ (0x30 ≤ off ∧ off ≤ 0xFFF)) → off % 4 = 0 →
      (s.turns = .host (.regRead off) :: rest →
        step s = .next { s with turns := rest, replies := .reg off 0#32 :: s.replies }) ∧
      (s.turns = .host (.regWrite off v) :: rest → step s = .next { s with turns := rest })) ∧
    (∀ off v, off % 4 ≠ 0 → s.turns = .host (.regRead off) :: rest ∨ s.turns = .host (.regWrite off v) :: rest →
      ∃ r, step s = .refused r) ∧
    (∀ off width bytes, off < 0x1000 → width ≠ 4 → bytes.length ≠ 4 →
      s.turns = .bus (.read (s.params.coreBase + off) width) :: rest ∨
        s.turns = .bus (.write (s.params.coreBase + off) bytes) :: rest →
      ∃ r, step s = .refused r) ∧
    (∀ addr width bytes, s.params.coreBase + 0x1000 + s.params.opmemBytes ≤ addr ∨ addr < s.params.coreBase →
      s.turns = .bus (.read addr width) :: rest ∨ s.turns = .bus (.write addr bytes) :: rest →
      ∃ r, step s = .refused r)

/-- Every access outside the host contract is refused (rules R32, R45, U5); the names of the refusals, and which one a
misaligned access beyond the register block gets, are the model's choice (log entry 5). The accesses inside the contract
go on; how a bus access becomes turns is the model's too (log entry 6). -/
def Obligations.HostAccessStops : Prop :=
  ∀ (s : State) (rest : List Turn), s.flags.busy = false →
    (∀ off v, s.turns = .host (.regRead off) :: rest ∨ s.turns = .host (.regWrite off v) :: rest →
      (off % 4 ≠ 0 → step s = .refused (.badRegisterAccess off)) ∧
      (off % 4 = 0 → 0x1000 ≤ off → step s = .refused (.noSuchAddress off)) ∧
      (off % 4 = 0 → off < 0x1000 → ∃ t, step s = .next t)) ∧
    (∀ off width, off < 0x1000 → s.turns = .bus (.read (s.params.coreBase + off) width) :: rest →
      step s = if width = 4 then .next { s with turns := .host (.regRead off) :: rest }
        else .refused (.badRegisterAccess off)) ∧
    (∀ off bytes, off < 0x1000 → s.turns = .bus (.write (s.params.coreBase + off) bytes) :: rest →
      (bytes.length ≠ 4 → step s = .refused (.badRegisterAccess off)) ∧
      (∀ b0 b1 b2 b3, bytes = [b0, b1, b2, b3] →
        step s = .next { s with turns := .host (.regWrite off (b3 ++ b2 ++ b1 ++ b0)) :: rest })) ∧
    (∀ k width, k < s.params.opmemBytes → s.turns = .bus (.read (s.params.coreBase + 0x1000 + k) width) :: rest →
      step s = .next
        { s with turns := (List.range width).map (fun j => Turn.host (.memReadByte (k + j))) ++ rest }) ∧
    (∀ k bytes, k < s.params.opmemBytes → s.turns = .bus (.write (s.params.coreBase + 0x1000 + k) bytes) :: rest →
      step s = .next
        { s with
          turns := (List.range bytes.length).map (fun j => Turn.host (.memWriteByte (k + j) (bytes.getD j 0#8))) ++
            rest }) ∧
    (∀ addr width bytes, s.params.coreBase + 0x1000 + s.params.opmemBytes ≤ addr ∨ addr < s.params.coreBase →
      s.turns = .bus (.read addr width) :: rest ∨ s.turns = .bus (.write addr bytes) :: rest →
      step s = .refused (.noSuchAddress addr))

/-- The window (rules R26, R40, R45, R48): a byte below `OPMEM_BYTES` is stored and read alone, a read having no side
effect; at or beyond `OPMEM_BYTES` the access is refused, under a name that is the model's choice (log entry 5). That a read of a
byte nothing has written gives the host no value and goes on is the model's choice too (log entry 2). -/
def Obligations.OpmemWindow : Prop :=
  ∀ (s : State) (rest : List Turn) (k : Nat) (b : Byte), s.flags.busy = false →
    (k < s.params.opmemBytes →
      (s.turns = .host (.memWriteByte k b) :: rest →
        ∃ m : Memory, step s = .next { s with turns := rest, opmem := m } ∧ m.byteAt k = some b ∧
          ∀ a, a ≠ k → m.byteAt a = s.opmem.byteAt a) ∧
      (s.turns = .host (.memReadByte k) :: rest →
        step s = .next { s with turns := rest, replies := .byte k (s.opmem.byteAt k) :: s.replies })) ∧
    (s.params.opmemBytes ≤ k →
      s.turns = .host (.memReadByte k) :: rest ∨ s.turns = .host (.memWriteByte k b) :: rest →
      step s = .refused (.noSuchAddress (0x1000 + k)))

/-- Two memories in the canonical form that read the same at every address are the same data. -/
def Obligations.EqualMemories : Prop :=
  ∀ (m m' : Memory) (size : Nat), m.wf size → m'.wf size → (∀ k, m.byteAt k = m'.byteAt k) → m = m'

/-! The Block Cipher Engine (`40_aes_block.md`) -/

/-- Rule R80: the field. `xtime` by its formula; `gmul` by its values at 0, 1 and `x` and its laws, which determine it;
every element but 0 has exactly one inverse; the worked values. -/
def Obligations.FieldLaws : Prop :=
  (∀ a : Byte, (xtime a).toNat = (2 * a.toNat % 256) ^^^ (if a.toNat ≥ 128 then 0x1B else 0)) ∧
  (∀ a b : Byte, gmul a b = (List.range 8).foldl
    (fun acc i => if b.getLsbD i then acc ^^^ (xtime^[i] a) else acc) 0#8) ∧
  (∀ a b : Byte, gmul a b = gmul b a) ∧
  (∀ a b c : Byte, gmul (gmul a b) c = gmul a (gmul b c)) ∧
  (∀ a b c : Byte, gmul a (b ^^^ c) = gmul a b ^^^ gmul a c) ∧
  (∀ a : Byte, gmul a 0x01#8 = a ∧ gmul a 0x02#8 = xtime a ∧ gmul a 0x00#8 = 0x00#8) ∧
  (∀ a : Byte, a ≠ 0x00#8 → ∃ b, gmul a b = 0x01#8 ∧ ∀ c, gmul a c = 0x01#8 → c = b) ∧
  xtime 0x80#8 = 0x1B#8 ∧ gmul 0x57#8 0x83#8 = 0xC1#8 ∧ gmul 0x57#8 0x13#8 = 0xFE#8

/-- Rule R81: the S-box from its definition (field inverse, then the affine map), and its inverse table. -/
def Obligations.SboxDefinition : Prop :=
  (∀ a : Byte, ∃ b : Byte, ((a = 0#8 ∧ b = 0#8) ∨ (a ≠ 0#8 ∧ gmul a b = 0x01#8)) ∧
    sbox a = b ^^^ b.rotateLeft 1 ^^^ b.rotateLeft 2 ^^^ b.rotateLeft 3 ^^^ b.rotateLeft 4 ^^^ 0x63#8) ∧
  (∀ a : Byte, invSbox (sbox a) = a ∧ sbox (invSbox a) = a) ∧ sbox 0x53#8 = 0xED#8

/-- Rule R82: the key schedule word by word, from the recurrence; with the exact places of the AES-256 extra
substitution. -/
def Obligations.KeySchedule : Prop :=
  ∀ (key : List Byte) (bits nk : Nat), bits = 128 ∨ bits = 192 ∨ bits = 256 → nk = bits / 32 →
    key.length = bits / 8 →
    let w := fun i => (keyExpand key bits).getD i []
    (keyExpand key bits).length = 4 * (nk + 6 + 1) ∧
    (∀ i < nk, w i = slice key (4 * i) 4) ∧
    (∀ i, nk ≤ i → i < 4 * (nk + 6 + 1) →
      ∃ b0 b1 b2 b3 : Byte, w (i - 1) = [b0, b1, b2, b3] ∧
        w i = xorBytes (w (i - nk))
          (if i % nk = 0 then
            [sbox b1 ^^^ [0x01#8, 0x02#8, 0x04#8, 0x08#8, 0x10#8, 0x20#8, 0x40#8, 0x80#8, 0x1b#8, 0x36#8].getD
                (i / nk - 1) 0#8, sbox b2, sbox b3, sbox b0]
          else if nk = 8 ∧ i % 8 = 4 then [sbox b0, sbox b1, sbox b2, sbox b3]
          else [b0, b1, b2, b3])) ∧
    (∀ r ≤ nk + 6, slice (fixed 240 (keyExpand key bits).flatten).toList (16 * r) 16 =
      w (4 * r) ++ w (4 * r + 1) ++ w (4 * r + 2) ++ w (4 * r + 3))

/-- Rule R86: the columns of `MixColumns` and of `InvMixColumns` row by row, the example, and that the second undoes the
first. -/
def Obligations.MixColumnsMatrix : Prop :=
  (∀ (S : Block) (c : Fin 4),
    let a := fun r : Fin 4 => S[4 * c.val + r.val]
    let b := fun r : Fin 4 => (mixColumns S)[4 * c.val + r.val]
    let d := fun r : Fin 4 => (invMixColumns S)[4 * c.val + r.val]
    b 0 = gmul 2#8 (a 0) ^^^ gmul 3#8 (a 1) ^^^ a 2 ^^^ a 3 ∧
    b 1 = a 0 ^^^ gmul 2#8 (a 1) ^^^ gmul 3#8 (a 2) ^^^ a 3 ∧
    b 2 = a 0 ^^^ a 1 ^^^ gmul 2#8 (a 2) ^^^ gmul 3#8 (a 3) ∧
    b 3 = gmul 3#8 (a 0) ^^^ a 1 ^^^ a 2 ^^^ gmul 2#8 (a 3) ∧
    d 0 = gmul 14#8 (a 0) ^^^ gmul 11#8 (a 1) ^^^ gmul 13#8 (a 2) ^^^ gmul 9#8 (a 3) ∧
    d 1 = gmul 9#8 (a 0) ^^^ gmul 14#8 (a 1) ^^^ gmul 11#8 (a 2) ^^^ gmul 13#8 (a 3) ∧
    d 2 = gmul 13#8 (a 0) ^^^ gmul 9#8 (a 1) ^^^ gmul 14#8 (a 2) ^^^ gmul 11#8 (a 3) ∧
    d 3 = gmul 11#8 (a 0) ^^^ gmul 13#8 (a 1) ^^^ gmul 9#8 (a 2) ^^^ gmul 14#8 (a 3)) ∧
  (∀ S : Block, S.toList.take 4 = [0xdb#8, 0x13#8, 0x53#8, 0x45#8] →
    (mixColumns S).toList.take 4 = [0x8e#8, 0x4d#8, 0xa1#8, 0xbc#8]) ∧
  (∀ S : Block, invMixColumns (mixColumns S) = S)

/-- The four steps and the two block functions made of them (rules R83 to R85, R87): the key-add and the substitutions byte
by byte; the row rotations as the byte permutations of rule R85; `AES_ENC` and `AES_DEC` round by round, for the three
round counts; and the law of rule R87, that they invert each other, for every round-key storage and every block. -/
def Obligations.BlockFunctionsInverse : Prop :=
  (∀ (S : Block) (rk : RoundKeys) (r : Nat) (i : Fin 16), (h : 16 * r + i.val < 240) →
    (addRoundKey S rk r)[i] = S[i] ^^^ rk[16 * r + i.val]) ∧
  (∀ (S : Block) (i : Fin 16), (subBytes S)[i] = sbox S[i] ∧ (invSubBytes S)[i] = invSbox S[i]) ∧
  (∀ S : Block,
    shiftRows S = #v[S[0], S[5], S[10], S[15], S[4], S[9], S[14], S[3], S[8], S[13], S[2], S[7], S[12], S[1], S[6],
      S[11]] ∧
    invShiftRows S = #v[S[0], S[13], S[10], S[7], S[4], S[1], S[14], S[11], S[8], S[5], S[2], S[15], S[12], S[9], S[6],
      S[3]]) ∧
  (∀ (rk : RoundKeys) (nr : Nat) (B : Block), nr = 10 ∨ nr = 12 ∨ nr = 14 →
    ∃ v w : Nat → Block,
      v 0 = addRoundKey B rk 0 ∧
      (∀ r, 1 ≤ r → r < nr → v r = addRoundKey (mixColumns (shiftRows (subBytes (v (r - 1))))) rk r) ∧
      aesEnc rk nr B = addRoundKey (shiftRows (subBytes (v (nr - 1)))) rk nr ∧
      w nr = addRoundKey B rk nr ∧
      (∀ r, 1 ≤ r → r < nr → w r = invMixColumns (addRoundKey (invSubBytes (invShiftRows (w (r + 1)))) rk r)) ∧
      aesDec rk nr B = addRoundKey (invSubBytes (invShiftRows (w 1))) rk 0) ∧
  (∀ (rk : RoundKeys) (nr : Nat) (B : Block),
    aesDec rk nr (aesEnc rk nr B) = B ∧ aesEnc rk nr (aesDec rk nr B) = B)

/-- Rule R91, its four laws on the commands: SET_KEY is a function of the key bytes and `ARG`; the block commands never
change `AES`; DECRYPT_BLOCK of what ENCRYPT_BLOCK wrote gives the block back, wherever the operands lie; and the block
commands complete without error on every written block once the key and the ranges are good. -/
def Obligations.BlockLaws : Prop :=
  (∀ (s s' t t' : State) (bits : Nat) (key : List Byte),
    s.opmem.read s.regs.keyAddr.toNat (bits / 8) = .ok key → s'.opmem.read s'.regs.keyAddr.toNat (bits / 8) = .ok key →
    exec (.setKey bits) s = .next t → exec (.setKey bits) s' = .next t' →
    t.flags.err = false → t'.flags.err = false → t.aes = t'.aes) ∧
  (∀ (i : Instr) (s t : State), i = .encryptBlock ∨ i = .decryptBlock → exec i s = .next t → t.aes = s.aes) ∧
  (∀ (s t u : State) (r : OperandRegs) (b : List Byte), s.opmem.read s.regs.srcAddr.toNat 16 = .ok b →
    exec .encryptBlock s = .next t → t.flags.err = false → r.srcAddr = s.regs.dstAddr →
    exec .decryptBlock { t with regs := r } = .next u → u.flags.err = false →
    u.opmem.read r.dstAddr.toNat 16 = .ok b) ∧
  (∀ (i : Instr) (s : State) (b : List Byte), i = .encryptBlock ∨ i = .decryptBlock → s.aes.valid = true →
    s.regs.srcAddr.toNat + 16 ≤ s.params.opmemBytes → s.regs.dstAddr.toNat + 16 ≤ s.params.opmemBytes →
    s.opmem.read s.regs.srcAddr.toNat 16 = .ok b → ∃ t, exec i s = .next t ∧ t.flags.err = false)

/-! The Stream Cipher Mode (`41_ctr.md`) -/

/-- Rule R101: the increment as a number, byte by byte, and `n` times; the examples. -/
def Obligations.CounterIncrement : Prop :=
  (∀ cb : Block, (ctrInc cb).toList = be128 ((frombe cb.toList + 1) % 2 ^ 128)) ∧
  (∀ (cb : Block) (i : Fin 16),
    (ctrInc cb)[i] = if ∀ k : Fin 16, i < k → cb[k] = 0xFF#8 then cb[i] + 1#8 else cb[i]) ∧
  (∀ (cb : Block) (n : Nat), frombe ((ctrInc^[n]) cb).toList = (frombe cb.toList + n) % 2 ^ 128) ∧
  ctrInc (fixed 16 (be128 0xf0f1f2f3f4f5f6f7f8f9fafbfcfdfeff)) = fixed 16 (be128 0xf0f1f2f3f4f5f6f7f8f9fafbfcfdff00) ∧
  ctrInc (fixed 16 (be128 0xff)) = fixed 16 (be128 0x100) ∧
  ctrInc (fixed 16 (rep 0xff#8 16)) = fixed 16 (zeros 16)

/-- The laws of rule R103, of the keystream function of CTR_CRYPT under any block function: symmetry; addressability;
continuation where the first piece is a multiple of 16 long or the second is empty; and, where it is not, which keystream byte each byte of
the second piece meets, with the counter the same as in one call or one higher. -/
def Obligations.StreamLaws : Prop :=
  ∀ (ks : Block → Block) (cb : Block) (A B : List Byte),
    (ctrStream ks cb (ctrStream ks cb A).1).1 = A ∧
    (∀ i (h : i < A.length), (ctrStream ks cb A).1.getD i 0#8 =
      A[i] ^^^ (ks (fixed 16 (be128 ((frombe cb.toList + i / 16) % 2 ^ 128)))).toList.getD (i % 16) 0#8) ∧
    (A.length % 16 = 0 ∨ B = [] →
      ctrStream ks cb (A ++ B) =
        ((ctrStream ks cb A).1 ++ (ctrStream ks (ctrStream ks cb A).2 B).1,
          (ctrStream ks (ctrStream ks cb A).2 B).2)) ∧
    (A.length % 16 ≠ 0 →
      (∀ k (h : k < B.length), (ctrStream ks (ctrStream ks cb A).2 B).1.getD k 0#8 =
        B[k] ^^^ (ks (ctrInc^[A.length / 16 + 1 + k / 16] cb)).toList.getD (k % 16) 0#8) ∧
      ((ctrStream ks (ctrStream ks cb A).2 B).2 = (ctrStream ks cb (A ++ B)).2 ∨
        (ctrStream ks (ctrStream ks cb A).2 B).2 = ctrInc (ctrStream ks cb (A ++ B)).2))

/-! The Hash Engine (`42_sha512.md`) -/

/-- Rule R114: the message schedule word by word, and the compression as 80 rounds and the fold. -/
def Obligations.CompressionFunction : Prop :=
  ∀ (H : Vector DWord 8) (M : List Byte), M.length = 128 →
    let W := fun t => (messageSchedule M).getD t 0#64
    (messageSchedule M).length = 80 ∧
    (∀ t < 16, (W t).toNat = frombe (slice M (8 * t) 8)) ∧
    (∀ t, 16 ≤ t → t < 80 →
      W t = ssig1 (W (t - 2)) + W (t - 7) + ssig0 (W (t - 15)) + W (t - 16)) ∧
    (∃ v : Nat → Working,
      v 0 = { a := H[0], b := H[1], c := H[2], d := H[3], e := H[4], f := H[5], g := H[6], h := H[7] } ∧
      (∀ t < 80,
        let T1 := (v t).h + bsig1 (v t).e + ch (v t).e (v t).f (v t).g + roundConstants.getD t 0#64 + W t
        let T2 := bsig0 (v t).a + maj (v t).a (v t).b (v t).c
        v (t + 1) = { a := T1 + T2, b := (v t).a, c := (v t).b, d := (v t).c, e := (v t).d + T1, f := (v t).e,
                      g := (v t).f, h := (v t).g }) ∧
      compress H M = #v[H[0] + (v 80).a, H[1] + (v 80).b, H[2] + (v 80).c, H[3] + (v 80).d, H[4] + (v 80).e,
        H[5] + (v 80).f, H[6] + (v 80).g, H[7] + (v 80).h])

/-- The chunking law of rule R117, from any hash state, and the length counter modulo 2^128 behind it (rules R115,
R121). -/
def Obligations.ShaChunking : Prop :=
  (∀ (S : HashState) (pieces : List (List Byte)), pieces.foldl shaUpdate S = shaUpdate S pieces.flatten) ∧
  (∀ (S : HashState) (D : List Byte),
    (shaUpdate S D).lenHi.toNat * 2 ^ 64 + (shaUpdate S D).lenLo.toNat =
      (S.lenHi.toNat * 2 ^ 64 + S.lenLo.toNat + 8 * D.length) % 2 ^ 128)

/-- SHA-512 is Merkle-Damgard over the padded message (rules R115 to R117): the message, 0x80, zeros up to 112 modulo
128, the 128-bit big-endian bit length; its 128-byte blocks are compressed in order from the initial value, and the
words are serialised big-endian. -/
def Obligations.Sha512IsMerkleDamgard : Prop :=
  ∀ M : List Byte,
    let P := M ++ [0x80#8] ++ zeros ((239 - M.length % 128) % 128) ++ be128 (8 * M.length % 2 ^ 128)
    P.length % 128 = 0 ∧
    sha512 M = digestBytes
      (((List.range (P.length / 128)).map fun j => slice P (128 * j) 128).foldl compress initialHash)

/-- The hash commands stream (rules R117 to R120): from SHA_INIT on, through any SHA_UPDATE commands, the context holds
the state of all bytes fed, in order, and SHA_FINAL writes their SHA-512. Any other command of another engine may run
between (`ExecStateFrame`). -/
def Obligations.StreamedHash : Prop :=
  (∀ s t : State, exec .shaInit s = .next t → t.sha = { hash := shaUpdate shaInit [], st := .active }) ∧
  (∀ (s t : State) (fed d : List Byte), s.sha = { hash := shaUpdate shaInit fed, st := .active } →
    s.opmem.read s.regs.srcAddr.toNat s.regs.srcLen.toNat = .ok d → exec .shaUpdate s = .next t →
    t.flags.err = false → t.sha = { hash := shaUpdate shaInit (fed ++ d), st := .active }) ∧
  (∀ (s t : State) (fed : List Byte), s.sha = { hash := shaUpdate shaInit fed, st := .active } →
    exec .shaFinal s = .next t → t.flags.err = false →
    t.opmem.read s.regs.dstAddr.toNat 64 = .ok (sha512 fed) ∧ t.sha.st = .consumed)

/-! The MAC Engine and Key Derivation (`43_hmac.md`, `44_pbkdf2.md`) -/

/-- Rule R131: (1) the streamed commands write the tag the one-shot command writes: from HMAC_INIT on, through any
HMAC_UPDATE commands, the context holds the key and all bytes fed, and HMAC_FINAL writes `HMAC(key, fed)`, as HMAC does;
(2) no HMAC-family command reads or writes `SHA`, no SHA-family command `HM`; (3) the tag depends on the key only
through `K0(key)`, so trailing zero bytes within 128 do not matter; (4) a 24-byte key is padded, not hashed. With them,
what they speak of: `HMAC` as the two hashes of rule R126, and `K0` of every key as rule R125 gives it, a key of more than
128 bytes hashed and the 64 bytes padded, a key of at most 128 bytes padded (one of exactly 128 used as it is). -/
def Obligations.HmacLaws : Prop :=
  let holds := fun (s : State) (key fed : List Byte) =>
    s.hm = { inner := shaUpdate shaInit (xorBytes (hmacKey key) (rep 0x36#8 128) ++ fed)
             outer := shaUpdate shaInit (xorBytes (hmacKey key) (rep 0x5c#8 128))
             st := .active }
  (∀ (s t : State) (key : List Byte), s.opmem.read s.regs.keyAddr.toNat s.regs.keyLen.toNat = .ok key →
    exec .hmacInit s = .next t → t.flags.err = false → holds t key []) ∧
  (∀ (s t : State) (key fed d : List Byte), holds s key fed →
    s.opmem.read s.regs.srcAddr.toNat s.regs.srcLen.toNat = .ok d → exec .hmacUpdate s = .next t →
    t.flags.err = false → holds t key (fed ++ d)) ∧
  (∀ (s t : State) (key fed : List Byte), holds s key fed → exec .hmacFinal s = .next t → t.flags.err = false →
    t.opmem.read s.regs.dstAddr.toNat 64 = .ok (hmacTag key fed)) ∧
  (∀ (s t : State) (key data : List Byte), s.opmem.read s.regs.keyAddr.toNat s.regs.keyLen.toNat = .ok key →
    s.opmem.read s.regs.srcAddr.toNat s.regs.srcLen.toNat = .ok data → exec .hmac s = .next t →
    t.flags.err = false → t.opmem.read s.regs.dstAddr.toNat 64 = .ok (hmacTag key data)) ∧
  (∀ (i : Instr) (s t : State) (c : ShaContext),
    i = .hmac ∨ i = .hmacInit ∨ i = .hmacUpdate ∨ i = .hmacFinal → exec i s = .next t →
    t.sha = s.sha ∧ exec i { s with sha := c } = .next { t with sha := c }) ∧
  (∀ (i : Instr) (s t : State) (c : HmacContext),
    i = .shaInit ∨ i = .shaUpdate ∨ i = .shaFinal → exec i s = .next t →
    t.hm = s.hm ∧ exec i { s with hm := c } = .next { t with hm := c }) ∧
  (∀ key key' data : List Byte, hmacKey key = hmacKey key' → hmacTag key data = hmacTag key' data) ∧
  (∀ (key data : List Byte) (n : Nat), key.length + n ≤ 128 → hmacTag (key ++ zeros n) data = hmacTag key data) ∧
  (∀ key : List Byte, key.length = 24 → hmacKey key = key ++ zeros 104) ∧
  (∀ key : List Byte, (128 < key.length → hmacKey key = sha512 key ++ zeros 64) ∧
    (key.length ≤ 128 → hmacKey key = key ++ zeros (128 - key.length)) ∧ (key.length = 128 → hmacKey key = key) ∧
    (hmacKey key).length = 128) ∧
  (∀ key data : List Byte, hmacTag key data =
    sha512 (xorBytes (hmacKey key) (rep 0x5c#8 128) ++ sha512 (xorBytes (hmacKey key) (rep 0x36#8 128) ++ data)))

/-- Rule R135: byte `k` of the derived bytes is byte `k mod 64` of the block of index `k/64 + 1`, the exclusive-or of the
`c` HMAC values `U_1 = HMAC(P, S || be32(index))`, `U_(j+1) = HMAC(P, U_j)`; there are exactly `dkLen` of them. -/
def Obligations.Pbkdf2Blocks : Prop :=
  ∀ (P S : List Byte) (c dkLen : Nat), 1 ≤ c →
    (pbkdf2 P S c dkLen).length = dkLen ∧
    ∀ k < dkLen, (pbkdf2 P S c dkLen).getD k 0#8 =
      (List.range c).foldl
        (fun acc j => acc ^^^
          ((fun u => hmacTag P u)^[j] (hmacTag P (S ++ be32 (k / 64 + 1)))).getD (k % 64) 0#8) 0#8

/-! The container and the pipeline (`46_container_pipeline.md`), host software -/

/-- Rules R170 and R171: the header `encrypt` writes, field by field, and the layout of the container; reading a header
back gives its fields, and the extension back up to its first 7 bytes; an extension is the bytes before the first NUL
(rule R175; where there is none it is free, log entry 15); `decrypt` rejects a file whose signature or
version is another, once it has been opened and its header read. -/
def Obligations.ContainerFormat : Prop :=
  (∀ (p : Params) (keyBits : Nat) (password nonce ext plaintext : List Byte),
    keyBits = 128 ∨ keyBits = 192 ∨ keyBits = 256 → nonce.length = 8 →
    let h := (newHeader keyBits nonce ext).encode
    let file := containerOf p keyBits password nonce ext plaintext
    h.length = 40 ∧ slice h 0 4 = [0x41#8, 0x45#8, 0x53#8, 0x43#8] ∧ h.getD 4 0#8 = 0x01#8 ∧
    h.getD 5 0#8 = (if keyBits = 128 then 1#8 else if keyBits = 192 then 2#8 else 3#8) ∧
    h.getD 6 0#8 = 0x02#8 ∧ h.getD 7 0#8 = 0x01#8 ∧ slice h 8 8 = nonce ∧
    slice h 16 8 = ext.take 7 ++ zeros (8 - (ext.take 7).length) ∧ h.getD 23 0xFF#8 = 0x00#8 ∧
    slice h 24 16 = zeros 16 ∧
    file.length = 40 + 64 + plaintext.length ∧ slice file 0 40 = h ∧
    slice file 40 64 = hmacTag (deriveKeys p password keyBits).macKey (h ++ plaintext) ∧
    file.drop 104 = ctrWithKey (deriveKeys p password keyBits).aesKey keyBits (startBlock nonce) plaintext ∧
    Header.decode file = some (newHeader keyBits nonce ext) ∧
    (0x00#8 ∉ ext → extensionOf (newHeader keyBits nonce ext).format = ext.take 7)) ∧
  (∀ ext rest : List Byte, 0x00#8 ∉ ext → extensionOf (ext ++ 0x00#8 :: rest) = ext) ∧
  (∀ (p : Params) (x : DecryptRequest), validatePassword x.password = true → x.failureBy .readHeader = none →
    slice x.source 0 5 ≠ [0x41#8, 0x45#8, 0x53#8, 0x43#8, 0x01#8] →
    (decryptFile p x).error = some .malformedContainer ∧ (decryptFile p x).destination = .absent)

/-- Rule R173: the password policy, and that `encrypt` and `decrypt` apply it as their first step. -/
def Obligations.PasswordPolicy : Prop :=
  (∀ password : List Byte, validatePassword password = true ↔
    (1 ≤ password.length ∧ password.length ≤ 10) ∧
    ∀ b ∈ password, (0x30 ≤ b.toNat ∧ b.toNat ≤ 0x39) ∨ (0x41 ≤ b.toNat ∧ b.toNat ≤ 0x5a) ∨
      (0x61 ≤ b.toNat ∧ b.toNat ≤ 0x7a)) ∧
  (∀ (p : Params) (x : EncryptRequest), validatePassword x.password = false →
    (encryptFile p x).error = some .passwordPolicyViolation ∧ (encryptFile p x).destination = .absent) ∧
  (∀ (p : Params) (x : DecryptRequest), validatePassword x.password = false →
    (decryptFile p x).error = some .passwordPolicyViolation ∧ (decryptFile p x).destination = .absent)

/-- The round trip of rule R182, for a plaintext of at least one byte: what `encrypt` has written `decrypt` gives back,
with the first 7 bytes of the extension, which stand at the end of the final path where the caller's path lacks one; an
empty plaintext is refused as a malformed container (conflict C5). No mishap comes in the way of `decrypt` (log
entry 10). -/
def Obligations.DecryptAfterEncrypt : Prop :=
  ∀ (p : Params) (x : EncryptRequest) (y : DecryptRequest), x.nonce.length = 8 → 0x00#8 ∉ x.extension →
    (encryptFile p x).destination = .complete y.source → y.password = x.password → y.failure = none →
    (x.source ≠ [] →
      (decryptFile p y).error = none ∧ (decryptFile p y).destination = .complete x.source ∧
      (decryptFile p y).extension = x.extension.take 7 ∧
      (decryptFile p y).finalPath = some
        (if Config.pathLacksExtension y.outputPath then y.outputPath ++ x.extension.take 7 else y.outputPath)) ∧
    (x.source = [] →
      (decryptFile p y).error = some .malformedContainer ∧ (decryptFile p y).destination = .absent ∧
      (decryptFile p y).finalPath = none)

/-- `decrypt` commits an output only if all 64 tag bytes match the tag of header and deciphered bytes, and on any failure,
a file operation's or a command's among them, no destination file exists; the scratch storage is removed (rules R175, R193; "output is committed only if
all 64 tag bytes match", rule R182). -/
def Obligations.CommitOnlyIfTagMatches : Prop :=
  ∀ (p : Params) (x : DecryptRequest),
    (∀ out, (decryptFile p x).destination = .complete out →
      (decryptFile p x).error = none ∧ validatePassword x.password = true ∧ x.failure = none ∧
      ∃ keyBits, 104 < x.source.length ∧
        slice x.source 0 5 = [0x41#8, 0x45#8, 0x53#8, 0x43#8, 0x01#8] ∧
        (x.source.getD 5 0#8, keyBits) ∈ [(0x01#8, 128), (0x02#8, 192), (0x03#8, 256)] ∧
        out = ctrWithKey (deriveKeys p x.password keyBits).aesKey keyBits (startBlock (slice x.source 8 8))
          (x.source.drop 104) ∧
        hmacTag (deriveKeys p x.password keyBits).macKey (slice x.source 0 40 ++ out) = slice x.source 40 64) ∧
    ((decryptFile p x).error ≠ none →
      (decryptFile p x).destination = .absent ∧ (decryptFile p x).finalPath = none) ∧
    (decryptFile p x).scratch = none ∧
    (x.failure ≠ none → (decryptFile p x).error ≠ none)
end

