-- ==== Sys2Proof/Laws/Bytes.lean ====
section
/-! SUPPORT. Byte strings: lengths, the big-endian encoding and its inverse, arrays made from byte strings, and the
lengths of what the engines write. -/

namespace Sys2Proof.Machine

@[simp] theorem length_beBytes (k v : Nat) : (beBytes k v).length = k := by
  induction k generalizing v with
  | zero => rfl
  | succ k ih => simp [beBytes, ih]

@[simp] theorem length_be64 (v : DWord) : (be64 v).length = 8 := length_beBytes 8 _

@[simp] theorem length_zeros (n : Nat) : (zeros n).length = n := by simp [zeros]

@[simp] theorem length_rep (v : Byte) (n : Nat) : (rep v n).length = n := by simp [rep]

@[simp] theorem length_slice (l : List Byte) (a n : Nat) : (slice l a n).length = min n (l.length - a) := by
  simp [slice]

@[simp] theorem length_xorBytes (a b : List Byte) : (xorBytes a b).length = min a.length b.length := by
  simp [xorBytes]

theorem foldl_frombe (l : List Byte) (n : Nat) :
    l.foldl (fun acc b => 256 * acc + b.toNat) n = n * 256 ^ l.length + frombe l := by
  induction l generalizing n with
  | nil => simp [frombe]
  | cons x l ih =>
    have hx : frombe (x :: l) = x.toNat * 256 ^ l.length + frombe l := by
      have := ih (256 * 0 + x.toNat)
      simpa [frombe] using this
    rw [List.foldl_cons, ih, hx, List.length_cons, Nat.pow_succ]
    ring

theorem frombe_append (a b : List Byte) : frombe (a ++ b) = frombe a * 256 ^ b.length + frombe b := by
  rw [frombe, List.foldl_append, foldl_frombe]
  rfl

theorem frombe_beBytes (k v : Nat) : frombe (beBytes k v) = v % 256 ^ k := by
  induction k generalizing v with
  | zero => simp [beBytes, frombe, Nat.mod_one]
  | succ k ih =>
    have h1 : frombe [BitVec.ofNat 8 v] = v % 256 := by simp [frombe]
    rw [beBytes, frombe_append, ih, h1, List.length_singleton, Nat.pow_one, Nat.pow_succ', Nat.mod_mul]
    omega

theorem frombe_lt (l : List Byte) : frombe l < 256 ^ l.length := by
  induction l using List.reverseRecOn with
  | nil => simp [frombe]
  | append_singleton l b ih =>
    rw [frombe_append]
    simp only [frombe, List.foldl_cons, List.foldl_nil, List.length_append, List.length_singleton, Nat.pow_succ]
      at ih ⊢
    have := b.isLt
    omega

theorem getElem_fixed {n : Nat} (l : List Byte) (i : Nat) (h : i < n) : (fixed n l)[i] = l.getD i 0x00#8 := by
  simp [fixed]

/-- A byte string of exactly `n` bytes is kept whole. -/
theorem toList_fixed {n : Nat} {l : List Byte} (h : l.length = n) : (fixed n l).toList = l := by
  apply List.ext_getElem
  · simp [h]
  · intro i h1 h2
    simp [fixed, List.getElem?_eq_getElem h2]

theorem fixed_toList {n : Nat} (v : Vector Byte n) : fixed n v.toList = v := by
  ext i h
  simp [fixed]

@[simp] theorem length_digestBytes (H : Vector DWord 8) : (digestBytes H).length = 64 := by
  obtain ⟨⟨l⟩, hl⟩ := H
  have hl : l.length = 8 := by simpa using hl
  simp [digestBytes, List.length_flatMap, hl]

@[simp] theorem length_shaFinal (S : HashState) : (shaFinal S).length = 64 := by
  simp only [shaFinal]
  split <;> simp

@[simp] theorem length_sha512 (M : List Byte) : (sha512 M).length = 64 := length_shaFinal _

@[simp] theorem length_hmacTag (key data : List Byte) : (hmacTag key data).length = 64 := length_sha512 _

@[simp] theorem length_hmacFinal (io : HashState × HashState) : (hmacFinal io).length = 64 := length_shaFinal _

@[simp] theorem length_hmacKey (key : List Byte) : (hmacKey key).length = 128 := by
  unfold hmacKey
  split
  · simp
  · simp; omega

@[simp] theorem length_paddedKey (key : List Byte) (pad : Byte) : (paddedKey key pad).length = 128 := by
  simp [paddedKey]

end Sys2Proof.Machine
end

