-- ==== Sys2Proof/Laws/State.lean ====
section
/-! SUPPORT. What each named operation leaves in each field of the state: one lemma per field per update. -/

namespace Sys2Proof.Machine

/-! `complete` -/

@[simp] theorem complete_params (s : State) :
    (complete s).params = s.params := rfl

@[simp] theorem complete_regs (s : State) :
    (complete s).regs = s.regs := rfl

@[simp] theorem complete_flags (s : State) :
    (complete s).flags = { s.flags with busy := false, done := true, err := false } := rfl

@[simp] theorem complete_errInfo (s : State) :
    (complete s).errInfo = ErrInfo.zero := rfl

@[simp] theorem complete_opmem (s : State) :
    (complete s).opmem = s.opmem := rfl

@[simp] theorem complete_aes (s : State) :
    (complete s).aes = s.aes := rfl

@[simp] theorem complete_sha (s : State) :
    (complete s).sha = s.sha := rfl

@[simp] theorem complete_hm (s : State) :
    (complete s).hm = s.hm := rfl

@[simp] theorem complete_latch (s : State) :
    (complete s).latch = s.latch := rfl

@[simp] theorem complete_turns (s : State) :
    (complete s).turns = s.turns := rfl

@[simp] theorem complete_replies (s : State) :
    (complete s).replies = s.replies := rfl

/-! `raise` -/

@[simp] theorem raise_params (e : CommandError) (s : State) :
    (raise e s).params = s.params := rfl

@[simp] theorem raise_regs (e : CommandError) (s : State) :
    (raise e s).regs = s.regs := rfl

@[simp] theorem raise_flags (e : CommandError) (s : State) :
    (raise e s).flags = { busy := false, done := true, err := true, esticky := true } := rfl

@[simp] theorem raise_errInfo (e : CommandError) (s : State) :
    (raise e s).errInfo = { code := e.code, detail := e.detail, opc := opcField s.latch } := rfl

@[simp] theorem raise_opmem (e : CommandError) (s : State) :
    (raise e s).opmem = s.opmem := rfl

@[simp] theorem raise_aes (e : CommandError) (s : State) :
    (raise e s).aes = s.aes := rfl

@[simp] theorem raise_sha (e : CommandError) (s : State) :
    (raise e s).sha = s.sha := rfl

@[simp] theorem raise_hm (e : CommandError) (s : State) :
    (raise e s).hm = s.hm := rfl

@[simp] theorem raise_latch (e : CommandError) (s : State) :
    (raise e s).latch = s.latch := rfl

@[simp] theorem raise_turns (e : CommandError) (s : State) :
    (raise e s).turns = s.turns := rfl

@[simp] theorem raise_replies (e : CommandError) (s : State) :
    (raise e s).replies = s.replies := rfl

/-! `issue` -/

@[simp] theorem issue_params (c : Word) (s : State) :
    (issue c s).params = s.params := rfl

@[simp] theorem issue_regs (c : Word) (s : State) :
    (issue c s).regs = s.regs := rfl

@[simp] theorem issue_flags (c : Word) (s : State) :
    (issue c s).flags = { s.flags with busy := true, done := false, err := false } := rfl

@[simp] theorem issue_errInfo (c : Word) (s : State) :
    (issue c s).errInfo = ErrInfo.zero := rfl

@[simp] theorem issue_opmem (c : Word) (s : State) :
    (issue c s).opmem = s.opmem := rfl

@[simp] theorem issue_aes (c : Word) (s : State) :
    (issue c s).aes = s.aes := rfl

@[simp] theorem issue_sha (c : Word) (s : State) :
    (issue c s).sha = s.sha := rfl

@[simp] theorem issue_hm (c : Word) (s : State) :
    (issue c s).hm = s.hm := rfl

@[simp] theorem issue_latch (c : Word) (s : State) :
    (issue c s).latch = c := rfl

@[simp] theorem issue_turns (c : Word) (s : State) :
    (issue c s).turns = s.turns := rfl

@[simp] theorem issue_replies (c : Word) (s : State) :
    (issue c s).replies = s.replies := rfl

/-! `clearSticky` -/

@[simp] theorem clearSticky_params (s : State) :
    (clearSticky s).params = s.params := rfl

@[simp] theorem clearSticky_regs (s : State) :
    (clearSticky s).regs = s.regs := rfl

@[simp] theorem clearSticky_flags (s : State) :
    (clearSticky s).flags = { s.flags with esticky := false } := rfl

@[simp] theorem clearSticky_errInfo (s : State) :
    (clearSticky s).errInfo = s.errInfo := rfl

@[simp] theorem clearSticky_opmem (s : State) :
    (clearSticky s).opmem = s.opmem := rfl

@[simp] theorem clearSticky_aes (s : State) :
    (clearSticky s).aes = s.aes := rfl

@[simp] theorem clearSticky_sha (s : State) :
    (clearSticky s).sha = s.sha := rfl

@[simp] theorem clearSticky_hm (s : State) :
    (clearSticky s).hm = s.hm := rfl

@[simp] theorem clearSticky_latch (s : State) :
    (clearSticky s).latch = s.latch := rfl

@[simp] theorem clearSticky_turns (s : State) :
    (clearSticky s).turns = s.turns := rfl

@[simp] theorem clearSticky_replies (s : State) :
    (clearSticky s).replies = s.replies := rfl

/-! `store` -/

@[simp] theorem store_params (o : Operand) (bs : List Byte) (s : State) :
    (store o bs s).params = s.params := rfl

@[simp] theorem store_regs (o : Operand) (bs : List Byte) (s : State) :
    (store o bs s).regs = s.regs := rfl

@[simp] theorem store_flags (o : Operand) (bs : List Byte) (s : State) :
    (store o bs s).flags = s.flags := rfl

@[simp] theorem store_errInfo (o : Operand) (bs : List Byte) (s : State) :
    (store o bs s).errInfo = s.errInfo := rfl

@[simp] theorem store_opmem (o : Operand) (bs : List Byte) (s : State) :
    (store o bs s).opmem = s.opmem.writeBytes o.addr bs := rfl

@[simp] theorem store_aes (o : Operand) (bs : List Byte) (s : State) :
    (store o bs s).aes = s.aes := rfl

@[simp] theorem store_sha (o : Operand) (bs : List Byte) (s : State) :
    (store o bs s).sha = s.sha := rfl

@[simp] theorem store_hm (o : Operand) (bs : List Byte) (s : State) :
    (store o bs s).hm = s.hm := rfl

@[simp] theorem store_latch (o : Operand) (bs : List Byte) (s : State) :
    (store o bs s).latch = s.latch := rfl

@[simp] theorem store_turns (o : Operand) (bs : List Byte) (s : State) :
    (store o bs s).turns = s.turns := rfl

@[simp] theorem store_replies (o : Operand) (bs : List Byte) (s : State) :
    (store o bs s).replies = s.replies := rfl

/-! `consumeHmac` -/

@[simp] theorem consumeHmac_params (s : State) :
    (consumeHmac s).params = s.params := rfl

@[simp] theorem consumeHmac_regs (s : State) :
    (consumeHmac s).regs = s.regs := rfl

@[simp] theorem consumeHmac_flags (s : State) :
    (consumeHmac s).flags = s.flags := rfl

@[simp] theorem consumeHmac_errInfo (s : State) :
    (consumeHmac s).errInfo = s.errInfo := rfl

@[simp] theorem consumeHmac_opmem (s : State) :
    (consumeHmac s).opmem = s.opmem := rfl

@[simp] theorem consumeHmac_aes (s : State) :
    (consumeHmac s).aes = s.aes := rfl

@[simp] theorem consumeHmac_sha (s : State) :
    (consumeHmac s).sha = s.sha := rfl

@[simp] theorem consumeHmac_hm (s : State) :
    (consumeHmac s).hm = { inner := HashState.zero, outer := HashState.zero, st := .consumed } := rfl

@[simp] theorem consumeHmac_latch (s : State) :
    (consumeHmac s).latch = s.latch := rfl

@[simp] theorem consumeHmac_turns (s : State) :
    (consumeHmac s).turns = s.turns := rfl

@[simp] theorem consumeHmac_replies (s : State) :
    (consumeHmac s).replies = s.replies := rfl

/-! `setAes` -/

@[simp] theorem setAes_params (c : AesContext) (s : State) :
    (setAes c s).params = s.params := rfl

@[simp] theorem setAes_regs (c : AesContext) (s : State) :
    (setAes c s).regs = s.regs := rfl

@[simp] theorem setAes_flags (c : AesContext) (s : State) :
    (setAes c s).flags = s.flags := rfl

@[simp] theorem setAes_errInfo (c : AesContext) (s : State) :
    (setAes c s).errInfo = s.errInfo := rfl

@[simp] theorem setAes_opmem (c : AesContext) (s : State) :
    (setAes c s).opmem = s.opmem := rfl

@[simp] theorem setAes_aes (c : AesContext) (s : State) :
    (setAes c s).aes = c := rfl

@[simp] theorem setAes_sha (c : AesContext) (s : State) :
    (setAes c s).sha = s.sha := rfl

@[simp] theorem setAes_hm (c : AesContext) (s : State) :
    (setAes c s).hm = s.hm := rfl

@[simp] theorem setAes_latch (c : AesContext) (s : State) :
    (setAes c s).latch = s.latch := rfl

@[simp] theorem setAes_turns (c : AesContext) (s : State) :
    (setAes c s).turns = s.turns := rfl

@[simp] theorem setAes_replies (c : AesContext) (s : State) :
    (setAes c s).replies = s.replies := rfl

/-! `setSha` -/

@[simp] theorem setSha_params (h : HashState) (st : Phase) (s : State) :
    (setSha h st s).params = s.params := rfl

@[simp] theorem setSha_regs (h : HashState) (st : Phase) (s : State) :
    (setSha h st s).regs = s.regs := rfl

@[simp] theorem setSha_flags (h : HashState) (st : Phase) (s : State) :
    (setSha h st s).flags = s.flags := rfl

@[simp] theorem setSha_errInfo (h : HashState) (st : Phase) (s : State) :
    (setSha h st s).errInfo = s.errInfo := rfl

@[simp] theorem setSha_opmem (h : HashState) (st : Phase) (s : State) :
    (setSha h st s).opmem = s.opmem := rfl

@[simp] theorem setSha_aes (h : HashState) (st : Phase) (s : State) :
    (setSha h st s).aes = s.aes := rfl

@[simp] theorem setSha_sha (h : HashState) (st : Phase) (s : State) :
    (setSha h st s).sha = { hash := h, st := st } := rfl

@[simp] theorem setSha_hm (h : HashState) (st : Phase) (s : State) :
    (setSha h st s).hm = s.hm := rfl

@[simp] theorem setSha_latch (h : HashState) (st : Phase) (s : State) :
    (setSha h st s).latch = s.latch := rfl

@[simp] theorem setSha_turns (h : HashState) (st : Phase) (s : State) :
    (setSha h st s).turns = s.turns := rfl

@[simp] theorem setSha_replies (h : HashState) (st : Phase) (s : State) :
    (setSha h st s).replies = s.replies := rfl

/-! `setHmac` -/

@[simp] theorem setHmac_params (io : HashState × HashState) (st : Phase) (s : State) :
    (setHmac io st s).params = s.params := rfl

@[simp] theorem setHmac_regs (io : HashState × HashState) (st : Phase) (s : State) :
    (setHmac io st s).regs = s.regs := rfl

@[simp] theorem setHmac_flags (io : HashState × HashState) (st : Phase) (s : State) :
    (setHmac io st s).flags = s.flags := rfl

@[simp] theorem setHmac_errInfo (io : HashState × HashState) (st : Phase) (s : State) :
    (setHmac io st s).errInfo = s.errInfo := rfl

@[simp] theorem setHmac_opmem (io : HashState × HashState) (st : Phase) (s : State) :
    (setHmac io st s).opmem = s.opmem := rfl

@[simp] theorem setHmac_aes (io : HashState × HashState) (st : Phase) (s : State) :
    (setHmac io st s).aes = s.aes := rfl

@[simp] theorem setHmac_sha (io : HashState × HashState) (st : Phase) (s : State) :
    (setHmac io st s).sha = s.sha := rfl

@[simp] theorem setHmac_hm (io : HashState × HashState) (st : Phase) (s : State) :
    (setHmac io st s).hm = { inner := io.1, outer := io.2, st := st } := rfl

@[simp] theorem setHmac_latch (io : HashState × HashState) (st : Phase) (s : State) :
    (setHmac io st s).latch = s.latch := rfl

@[simp] theorem setHmac_turns (io : HashState × HashState) (st : Phase) (s : State) :
    (setHmac io st s).turns = s.turns := rfl

@[simp] theorem setHmac_replies (io : HashState × HashState) (st : Phase) (s : State) :
    (setHmac io st s).replies = s.replies := rfl

/-! `zeroizeAll` -/

@[simp] theorem zeroizeAll_params (s : State) :
    (zeroizeAll s).params = s.params := rfl

@[simp] theorem zeroizeAll_regs (s : State) :
    (zeroizeAll s).regs = OperandRegs.zero := rfl

@[simp] theorem zeroizeAll_flags (s : State) :
    (zeroizeAll s).flags = s.flags := rfl

@[simp] theorem zeroizeAll_errInfo (s : State) :
    (zeroizeAll s).errInfo = s.errInfo := rfl

@[simp] theorem zeroizeAll_opmem (s : State) :
    (zeroizeAll s).opmem = Memory.zeroed s.params.opmemBytes := rfl

@[simp] theorem zeroizeAll_aes (s : State) :
    (zeroizeAll s).aes = AesContext.cleared := rfl

@[simp] theorem zeroizeAll_sha (s : State) :
    (zeroizeAll s).sha = ShaContext.cleared := rfl

@[simp] theorem zeroizeAll_hm (s : State) :
    (zeroizeAll s).hm = HmacContext.cleared := rfl

@[simp] theorem zeroizeAll_latch (s : State) :
    (zeroizeAll s).latch = 0 := rfl

@[simp] theorem zeroizeAll_turns (s : State) :
    (zeroizeAll s).turns = s.turns := rfl

@[simp] theorem zeroizeAll_replies (s : State) :
    (zeroizeAll s).replies = s.replies := rfl

/-! `reply` -/

@[simp] theorem reply_params (r : Reply) (s : State) :
    (reply r s).params = s.params := rfl

@[simp] theorem reply_regs (r : Reply) (s : State) :
    (reply r s).regs = s.regs := rfl

@[simp] theorem reply_flags (r : Reply) (s : State) :
    (reply r s).flags = s.flags := rfl

@[simp] theorem reply_errInfo (r : Reply) (s : State) :
    (reply r s).errInfo = s.errInfo := rfl

@[simp] theorem reply_opmem (r : Reply) (s : State) :
    (reply r s).opmem = s.opmem := rfl

@[simp] theorem reply_aes (r : Reply) (s : State) :
    (reply r s).aes = s.aes := rfl

@[simp] theorem reply_sha (r : Reply) (s : State) :
    (reply r s).sha = s.sha := rfl

@[simp] theorem reply_hm (r : Reply) (s : State) :
    (reply r s).hm = s.hm := rfl

@[simp] theorem reply_latch (r : Reply) (s : State) :
    (reply r s).latch = s.latch := rfl

@[simp] theorem reply_turns (r : Reply) (s : State) :
    (reply r s).turns = s.turns := rfl

@[simp] theorem reply_replies (r : Reply) (s : State) :
    (reply r s).replies = r :: s.replies := rfl

/-! `applyReset` -/

@[simp] theorem applyReset_params (s : State) :
    (applyReset s).params = s.params := rfl

@[simp] theorem applyReset_regs (s : State) :
    (applyReset s).regs = OperandRegs.zero := rfl

@[simp] theorem applyReset_flags (s : State) :
    (applyReset s).flags = { busy := false, done := false, err := false, esticky := false } := rfl

@[simp] theorem applyReset_errInfo (s : State) :
    (applyReset s).errInfo = ErrInfo.zero := rfl

@[simp] theorem applyReset_opmem (s : State) :
    (applyReset s).opmem = [] := rfl

@[simp] theorem applyReset_aes (s : State) :
    (applyReset s).aes = AesContext.cleared := rfl

@[simp] theorem applyReset_sha (s : State) :
    (applyReset s).sha = ShaContext.cleared := rfl

@[simp] theorem applyReset_hm (s : State) :
    (applyReset s).hm = HmacContext.cleared := rfl

@[simp] theorem applyReset_latch (s : State) :
    (applyReset s).latch = 0 := rfl

@[simp] theorem applyReset_turns (s : State) :
    (applyReset s).turns = s.turns := rfl

@[simp] theorem applyReset_replies (s : State) :
    (applyReset s).replies = s.replies := rfl

/-! The operand registers by name. -/

@[simp] theorem regs_get_set_same (r : OperandRegs) (name : OperandReg) (v : Word) :
    (r.set name v).get name = v := by
  cases name <;> rfl

theorem regs_get_set_other (r : OperandRegs) {name other : OperandReg} (v : Word) (h : other ≠ name) :
    (r.set name v).get other = r.get other := by
  cases name <;> cases other <;> first | rfl | exact absurd rfl h

@[simp] theorem operandRegAt_offset (r : OperandReg) : operandRegAt r.offset = some r := by
  cases r <;> rfl

/-! The two completions are the ones the claims write out. -/

theorem complete_eq_succeededFrom (s : State) : complete s = succeededFrom s := rfl

theorem raise_eq_failedFrom (e : CommandError) (s : State) : raise e s = failedFrom e.code e.detail s := rfl

end Sys2Proof.Machine
end

