-- ==== Sys2Proof/Laws/Memory.lean ====
section
/-! SUPPORT. OPMEM: read after write, the frame of a write, and the canonical form that every operation keeps. -/

namespace Sys2Proof.Machine

theorem byteAt_write_same (m : Memory) (k : Nat) (b : Byte) : (m.write k b).byteAt k = some b := by
  induction m with
  | nil => simp [Memory.write, Memory.byteAt]
  | cons c m ih =>
    obtain ⟨a, x⟩ := c
    simp only [Memory.write]
    split
    · simp [Memory.byteAt]
    · split
      · simp [Memory.byteAt]
      · rename_i h
        simp [Memory.byteAt, Ne.symm h, ih]

theorem byteAt_write_other (m : Memory) {k a : Nat} (b : Byte) (h : a ≠ k) :
    (m.write k b).byteAt a = m.byteAt a := by
  induction m with
  | nil => simp [Memory.write, Memory.byteAt, Ne.symm h]
  | cons c m ih =>
    obtain ⟨a', x⟩ := c
    simp only [Memory.write]
    split
    · simp [Memory.byteAt, Ne.symm h]
    · split
      · subst_vars
        simp [Memory.byteAt, Ne.symm h]
      · simp [Memory.byteAt, ih]

/-- One read after a write of a byte string: inside it, its byte; outside it, what was there. -/
theorem byteAt_writeBytes (m : Memory) (addr : Nat) (bs : List Byte) (a : Nat) :
    (m.writeBytes addr bs).byteAt a =
      if addr ≤ a ∧ a < addr + bs.length then bs[a - addr]? else m.byteAt a := by
  induction bs generalizing m addr with
  | nil => simp [Memory.writeBytes]
  | cons b bs ih =>
    rw [Memory.writeBytes, ih]
    by_cases h1 : addr + 1 ≤ a ∧ a < addr + 1 + bs.length
    · have h2 : addr ≤ a ∧ a < addr + (b :: bs).length := by
        simp only [List.length_cons]; omega
      rw [if_pos h1, if_pos h2, show a - addr = (a - (addr + 1)) + 1 by omega, List.getElem?_cons_succ]
    · rw [if_neg h1]
      by_cases h3 : a = addr
      · subst h3
        simp [byteAt_write_same]
      · rw [byteAt_write_other _ _ h3, if_neg (by simp only [List.length_cons]; omega)]

theorem byteAt_writeBytes_outside (m : Memory) {addr a : Nat} (bs : List Byte)
    (h : ¬(addr ≤ a ∧ a < addr + bs.length)) : (m.writeBytes addr bs).byteAt a = m.byteAt a := by
  rw [byteAt_writeBytes, if_neg h]

/-- A read succeeds exactly when it finds `n` bytes, one at each address. -/
theorem read_ok_iff (m : Memory) (addr n : Nat) (bs : List Byte) :
    m.read addr n = .ok bs ↔ bs.length = n ∧ ∀ k < n, m.byteAt (addr + k) = bs[k]? := by
  induction n generalizing addr bs with
  | zero =>
    simp only [Memory.read, Except.ok.injEq, Nat.not_lt_zero, false_implies, implies_true, and_true]
    exact ⟨fun h => by simp [← h], fun h => (List.length_eq_zero_iff.mp h).symm⟩
  | succ n ih =>
    simp only [Memory.read]
    cases hb : m.byteAt addr with
    | none =>
      simp only [reduceCtorEq, false_iff, not_and]
      intro hlen hall
      have := hall 0 (by omega)
      rw [Nat.add_zero, hb, List.getElem?_eq_getElem (by omega)] at this
      exact absurd this (by simp)
    | some b =>
      cases hr : m.read (addr + 1) n with
      | error k =>
        simp only [reduceCtorEq, false_iff, not_and]
        intro hlen hall
        obtain ⟨c, cs, rfl⟩ : ∃ c cs, bs = c :: cs := by
          cases bs with
          | nil => simp at hlen
          | cons c cs => exact ⟨c, cs, rfl⟩
        have : m.read (addr + 1) n = .ok cs := by
          rw [ih]
          refine ⟨by simpa using hlen, fun k hk => ?_⟩
          have := hall (k + 1) (by omega)
          rwa [show addr + (k + 1) = addr + 1 + k by omega, List.getElem?_cons_succ] at this
        rw [hr] at this
        exact absurd this (by simp)
      | ok cs =>
        obtain ⟨hlen, hall⟩ := (ih _ _).mp hr
        simp only [Except.ok.injEq]
        constructor
        · rintro rfl
          refine ⟨by simp [hlen], fun k hk => ?_⟩
          cases k with
          | zero => simpa using hb
          | succ k =>
            rw [show addr + (k + 1) = addr + 1 + k by omega, hall k (by omega), List.getElem?_cons_succ]
        · rintro ⟨hl, h⟩
          apply List.ext_getElem?
          intro k
          cases k with
          | zero => have := h 0 (by omega); rw [Nat.add_zero, hb] at this; simpa using this
          | succ k =>
            rw [List.getElem?_cons_succ]
            by_cases hk : k < n
            · rw [← hall k hk, ← h (k + 1) (by omega), show addr + (k + 1) = addr + 1 + k by omega]
            · rw [List.getElem?_eq_none (by omega), List.getElem?_eq_none (by omega)]

theorem read_length {m : Memory} {addr n : Nat} {bs : List Byte} (h : m.read addr n = .ok bs) :
    bs.length = n := ((read_ok_iff ..).mp h).1

/-- A read fails at an address of the operand that nothing has written. -/
theorem read_error {m : Memory} {addr n k : Nat} (h : m.read addr n = .error k) :
    addr ≤ k ∧ k < addr + n ∧ m.byteAt k = none := by
  induction n generalizing addr with
  | zero => simp [Memory.read] at h
  | succ n ih =>
    simp only [Memory.read] at h
    split at h
    · rename_i hb
      cases h
      exact ⟨Nat.le_refl _, by omega, hb⟩
    · split at h
      · cases h
      · rename_i hr
        cases h
        have := ih hr
        exact ⟨by omega, by omega, this.2.2⟩

/-- An operand is readable exactly when each of its bytes has been written. -/
theorem read_isOk_iff (m : Memory) (addr n : Nat) :
    (∃ bs, m.read addr n = .ok bs) ↔ ∀ k < n, (m.byteAt (addr + k)).isSome := by
  constructor
  · rintro ⟨bs, h⟩ k hk
    obtain ⟨hlen, hall⟩ := (read_ok_iff ..).mp h
    rw [hall k hk, List.getElem?_eq_getElem (by omega)]
    rfl
  · intro h
    cases hr : m.read addr n with
    | ok bs => exact ⟨bs, rfl⟩
    | error k =>
      obtain ⟨h1, h2, h3⟩ := read_error hr
      have := h (k - addr) (by omega)
      rw [show addr + (k - addr) = k by omega, h3] at this
      exact absurd this (by simp)

/-- A byte string read back after it was written. -/
theorem read_writeBytes (m : Memory) (addr : Nat) (bs : List Byte) :
    (m.writeBytes addr bs).read addr bs.length = .ok bs := by
  rw [read_ok_iff]
  refine ⟨rfl, fun k hk => ?_⟩
  rw [byteAt_writeBytes, if_pos (by omega), Nat.add_sub_cancel_left]

theorem mem_write_addr {m : Memory} {k : Nat} {b : Byte} {c : Host.Cell} (h : c ∈ m.write k b) :
    c.1 = k ∨ c ∈ m := by
  induction m with
  | nil =>
    simp only [Memory.write, List.mem_singleton] at h
    exact .inl (by rw [h])
  | cons d m ih =>
    obtain ⟨a, x⟩ := d
    simp only [Memory.write] at h
    split at h
    · rcases List.mem_cons.mp h with rfl | h
      · exact .inl rfl
      · exact .inr h
    · split at h
      · rcases List.mem_cons.mp h with rfl | h
        · exact .inl rfl
        · exact .inr (List.mem_cons_of_mem _ h)
      · rcases List.mem_cons.mp h with rfl | h
        · exact .inr List.mem_cons_self
        · exact (ih h).imp id (List.mem_cons_of_mem _)

/-- A write inside OPMEM keeps the canonical form. -/
theorem wf_write {m : Memory} {size k : Nat} (b : Byte) (hk : k < size) (h : m.wf size) :
    (m.write k b).wf size := by
  refine ⟨?_, fun c hc => (mem_write_addr hc).elim (fun e => e ▸ hk) (h.2 c)⟩
  have hp := h.1
  clear h
  induction m with
  | nil => simp [Memory.write]
  | cons d m ih =>
    obtain ⟨a, x⟩ := d
    obtain ⟨hd, hm⟩ := List.pairwise_cons.mp hp
    simp only [Memory.write]
    split
    · rename_i hka
      exact List.pairwise_cons.mpr ⟨fun c hc => (List.mem_cons.mp hc).elim (fun e => by rw [e]; exact hka)
        (fun hc => Nat.lt_trans hka (hd c hc)), hp⟩
    · split
      · rename_i hka
        exact List.pairwise_cons.mpr ⟨fun c hc => hka ▸ hd c hc, hm⟩
      · rename_i h1 h2
        refine List.pairwise_cons.mpr ⟨fun c hc => ?_, ih hm⟩
        rcases mem_write_addr hc with e | hc
        · rw [e]; exact Nat.lt_of_le_of_ne (Nat.not_lt.mp h1) (Ne.symm h2)
        · exact hd c hc

theorem wf_writeBytes {m : Memory} {size addr : Nat} (bs : List Byte) (hk : addr + bs.length ≤ size)
    (h : m.wf size) : (m.writeBytes addr bs).wf size := by
  induction bs generalizing m addr with
  | nil => exact h
  | cons b bs ih =>
    rw [List.length_cons] at hk
    exact ih (by omega) (wf_write b (by omega) h)

theorem wf_nil (size : Nat) : Memory.wf [] size := ⟨List.Pairwise.nil, fun _ h => absurd h List.not_mem_nil⟩

theorem wf_zeroed (size : Nat) : (Memory.zeroed size).wf size := by
  refine ⟨?_, ?_⟩
  · exact List.pairwise_map.mpr (List.pairwise_lt_range)
  · intro c hc
    obtain ⟨k, hk, rfl⟩ := List.mem_map.mp hc
    exact List.mem_range.mp hk

/-- Below the first listed address nothing has been written. -/
theorem byteAt_none_of_lt {m : Memory} {k : Nat} (h : ∀ c ∈ m, k < c.1) : m.byteAt k = none := by
  induction m with
  | nil => rfl
  | cons d m ih =>
    obtain ⟨a, x⟩ := d
    have := h _ List.mem_cons_self
    rw [Memory.byteAt, if_neg (Nat.ne_of_gt this)]
    exact ih fun c hc => h c (List.mem_cons_of_mem _ hc)

theorem byteAt_zeroed (size k : Nat) :
    (Memory.zeroed size).byteAt k = if k < size then some 0x00#8 else none := by
  have key : ∀ l : List Nat, Memory.byteAt (l.map fun k => (k, 0x00#8)) k = if k ∈ l then some 0x00#8 else none := by
    intro l
    induction l with
    | nil => rfl
    | cons a l ih =>
      rw [List.map_cons, Memory.byteAt, ih]
      by_cases h : a = k
      · simp [h]
      · simp [h, Ne.symm h]
  rw [Memory.zeroed, key]
  simp only [List.mem_range]

end Sys2Proof.Machine
end

