-- ==== Sys2Proof/Laws/Ops.lean ====
section
/-! SUPPORT. The shared operations: what each can do, said once; and the inversion of `exec`: a command that answers a
next state has either failed with one of its errors or had exactly its own effect. -/

namespace Sys2Proof.Machine

@[simp] theorem succeed_eq (s : State) : succeed s = .next (complete s) := rfl

@[simp] theorem failed_eq (e : CommandError) (s : State) : failed e s = .next (raise e s) := rfl

theorem valid_iff (o : Operand) (s : State) : o.valid s = true ↔ o.addr + o.len ≤ s.params.opmemBytes := by
  simp [Operand.valid]

theorem allValid_iff (os : List Operand) (s : State) :
    allValid os s = true ↔ ∀ o ∈ os, o.addr + o.len ≤ s.params.opmemBytes := by
  simp [allValid, valid_iff]

theorem legalKeyBits_iff (bits : Nat) : legalKeyBits bits = true ↔ bits = 128 ∨ bits = 192 ∨ bits = 256 := by
  simp [legalKeyBits, or_assoc]

theorem withInput_ok {o : Operand} {s : State} {bs : List Byte} (h : s.opmem.read o.addr o.len = .ok bs)
    (go : List Byte → Result) : withInput o s go = go bs := by
  simp [withInput, h]

/-- Reading an input either hands on its bytes or refuses at a byte of the operand that nothing has written. -/
theorem withInput_cases (o : Operand) (s : State) (go : List Byte → Result) :
    (∃ bs, s.opmem.read o.addr o.len = .ok bs ∧ withInput o s go = go bs) ∨
    (∃ k, o.addr ≤ k ∧ k < o.addr + o.len ∧ s.opmem.byteAt k = none ∧
      withInput o s go = .refused (.unwrittenByte k)) := by
  cases h : s.opmem.read o.addr o.len with
  | ok bs => exact .inl ⟨bs, rfl, withInput_ok h go⟩
  | error k =>
    obtain ⟨h1, h2, h3⟩ := read_error h
    exact .inr ⟨k, h1, h2, h3, by simp [withInput, h]⟩

theorem withInput_next {o : Operand} {s t : State} {go : List Byte → Result} (h : withInput o s go = .next t) :
    ∃ bs, s.opmem.read o.addr o.len = .ok bs ∧ go bs = .next t := by
  rcases withInput_cases o s go with ⟨bs, hr, hg⟩ | ⟨k, _, _, _, hg⟩
  · exact ⟨bs, hr, hg ▸ h⟩
  · rw [hg] at h; cases h

/-- The effect of a command that neither fails nor is refused, before its completion is recorded: the state `u` after
the command's last assignment. -/
inductive CommandEffect (s : State) : Instr → State → Prop where
  | setKey {bits : Nat} {key : List Byte} (legal : bits = 128 ∨ bits = 192 ∨ bits = 256)
      (read : s.opmem.read (s.reg .keyAddr) (bits / 8) = .ok key) :
      CommandEffect s (.setKey bits) (setAes (AesContext.ofKey key bits) s)
  | encryptBlock {b : List Byte} (valid : s.aes.valid = true) (read : s.opmem.read (s.reg .srcAddr) 16 = .ok b) :
      CommandEffect s .encryptBlock
        (store (dstOperand 16 s) (aesEnc s.aes.rk s.aes.nr (fixed 16 b)).toList s)
  | decryptBlock {b : List Byte} (valid : s.aes.valid = true) (read : s.opmem.read (s.reg .srcAddr) 16 = .ok b) :
      CommandEffect s .decryptBlock
        (store (dstOperand 16 s) (aesDec s.aes.rk s.aes.nr (fixed 16 b)).toList s)
  | ctrCrypt {inp cb : List Byte} (valid : s.aes.valid = true)
      (read : s.opmem.read (s.reg .srcAddr) (s.reg .srcLen) = .ok inp)
      (readCtr : s.opmem.read (s.reg .ctrAddr) 16 = .ok cb) :
      CommandEffect s .ctrCrypt
        (store (ctrOperand s) (ctrStream (aesEnc s.aes.rk s.aes.nr) (fixed 16 cb) inp).2.toList
          (store (dstOperand (s.reg .srcLen) s) (ctrStream (aesEnc s.aes.rk s.aes.nr) (fixed 16 cb) inp).1 s))
  | shaInit : CommandEffect s .shaInit (setSha shaInit .active s)
  | shaUpdate {d : List Byte} (active : s.sha.st = .active)
      (read : s.opmem.read (s.reg .srcAddr) (s.reg .srcLen) = .ok d) :
      CommandEffect s .shaUpdate (setSha (shaUpdate s.sha.hash d) s.sha.st s)
  | shaFinal (active : s.sha.st = .active) :
      CommandEffect s .shaFinal
        (setSha HashState.zero .consumed (store (dstOperand 64 s) (shaFinal s.sha.hash) s))
  | hmac {key data : List Byte} (readKey : s.opmem.read (s.reg .keyAddr) (s.reg .keyLen) = .ok key)
      (read : s.opmem.read (s.reg .srcAddr) (s.reg .srcLen) = .ok data) :
      CommandEffect s .hmac (consumeHmac (store (dstOperand 64 s) (hmacTag key data) s))
  | hmacInit {key : List Byte} (readKey : s.opmem.read (s.reg .keyAddr) (s.reg .keyLen) = .ok key) :
      CommandEffect s .hmacInit (setHmac (hmacInit key) .active s)
  | hmacUpdate {d : List Byte} (active : s.hm.st = .active)
      (read : s.opmem.read (s.reg .srcAddr) (s.reg .srcLen) = .ok d) :
      CommandEffect s .hmacUpdate (setHmac (hmacUpdate (s.hm.inner, s.hm.outer) d) s.hm.st s)
  | hmacFinal (active : s.hm.st = .active) :
      CommandEffect s .hmacFinal
        (consumeHmac (store (dstOperand 64 s) (hmacFinal (s.hm.inner, s.hm.outer)) s))
  | pbkdf2 {P S : List Byte} (iter : s.reg .iter ≠ 0)
      (readKey : s.opmem.read (s.reg .keyAddr) (s.reg .keyLen) = .ok P)
      (read : s.opmem.read (s.reg .srcAddr) (s.reg .srcLen) = .ok S) :
      CommandEffect s .pbkdf2
        (consumeHmac (store (dstOperand (s.reg .dstLen) s) (pbkdf2 P S (s.reg .iter) (s.reg .dstLen)) s))
  | zeroize : CommandEffect s .zeroize (zeroizeAll s)

/-- What a command that answers `t` has done: failed with one of its own errors (rule R158) and nothing else, or, all
its operands being in range, had its effect and completed. -/
def ExecOutcome (i : Instr) (s t : State) : Prop :=
  (∃ e : CommandError, (e.code, e.detail) ∈ errorsOf i ∧ t = raise e s) ∨
  (∃ u, OperandsInRange i s ∧ CommandEffect s i u ∧ t = complete u)

theorem execSetKey_next {b : Nat} {s t : State} (h : execSetKey b s = .next t) : ExecOutcome (.setKey b) s t := by
  unfold execSetKey at h
  split at h
  · cases h; exact .inl ⟨.invalidKeyLength, by simp [errorsOf, CommandError.code, CommandError.detail], rfl⟩
  · rename_i hl
    split at h
    · cases h; exact .inl ⟨.badRange, by simp [errorsOf, CommandError.code, CommandError.detail], rfl⟩
    · rename_i hv
      obtain ⟨key, hr, hg⟩ := withInput_next h
      cases hg
      refine .inr ⟨_, ?_, .setKey ((legalKeyBits_iff b).mp (by simpa using hl)) hr, rfl⟩
      simpa [OperandsInRange, allValid_iff, inputOperands, outputOperands] using hv

theorem execEncryptBlock_next {s t : State} (h : execEncryptBlock s = .next t) :
    ExecOutcome .encryptBlock s t := by
  unfold execEncryptBlock at h
  split at h
  · cases h; exact .inl ⟨.noKey, by simp [errorsOf, CommandError.code, CommandError.detail], rfl⟩
  · rename_i hk
    split at h
    · cases h; exact .inl ⟨.badRange, by simp [errorsOf, CommandError.code, CommandError.detail], rfl⟩
    · rename_i hv
      obtain ⟨b, hr, hg⟩ := withInput_next h
      cases hg
      refine .inr ⟨_, ?_, .encryptBlock (by simpa using hk) hr, rfl⟩
      simpa [OperandsInRange, allValid_iff, inputOperands, outputOperands] using hv

theorem execDecryptBlock_next {s t : State} (h : execDecryptBlock s = .next t) :
    ExecOutcome .decryptBlock s t := by
  unfold execDecryptBlock at h
  split at h
  · cases h; exact .inl ⟨.noKey, by simp [errorsOf, CommandError.code, CommandError.detail], rfl⟩
  · rename_i hk
    split at h
    · cases h; exact .inl ⟨.badRange, by simp [errorsOf, CommandError.code, CommandError.detail], rfl⟩
    · rename_i hv
      obtain ⟨b, hr, hg⟩ := withInput_next h
      cases hg
      refine .inr ⟨_, ?_, .decryptBlock (by simpa using hk) hr, rfl⟩
      simpa [OperandsInRange, allValid_iff, inputOperands, outputOperands] using hv

theorem execCtrCrypt_next {s t : State} (h : execCtrCrypt s = .next t) : ExecOutcome .ctrCrypt s t := by
  unfold execCtrCrypt at h
  split at h
  · cases h; exact .inl ⟨.noKey, by simp [errorsOf, CommandError.code, CommandError.detail], rfl⟩
  · rename_i hk
    split at h
    · cases h; exact .inl ⟨.badRange, by simp [errorsOf, CommandError.code, CommandError.detail], rfl⟩
    · rename_i hv
      obtain ⟨inp, hr, hg⟩ := withInput_next h
      obtain ⟨cb, hc, hg⟩ := withInput_next hg
      cases hg
      refine .inr ⟨_, ?_, .ctrCrypt (by simpa using hk) hr hc, rfl⟩
      simp only [Bool.not_eq_true', Bool.not_eq_false] at hv
      intro o ho
      refine (allValid_iff _ _).mp hv o ?_
      simp [inputOperands, outputOperands] at ho ⊢
      tauto

theorem execShaUpdate_next {s t : State} (h : execShaUpdate s = .next t) : ExecOutcome .shaUpdate s t := by
  unfold execShaUpdate at h
  split at h
  · cases h; exact .inl ⟨.noHash, by simp [errorsOf, CommandError.code, CommandError.detail], rfl⟩
  · rename_i hk
    split at h
    · cases h; exact .inl ⟨.badRange, by simp [errorsOf, CommandError.code, CommandError.detail], rfl⟩
    · rename_i hv
      obtain ⟨d, hr, hg⟩ := withInput_next h
      cases hg
      refine .inr ⟨_, ?_, .shaUpdate (by simpa [hashActive] using hk) hr, rfl⟩
      simpa [OperandsInRange, allValid_iff, inputOperands, outputOperands] using hv

theorem execShaFinal_next {s t : State} (h : execShaFinal s = .next t) : ExecOutcome .shaFinal s t := by
  unfold execShaFinal at h
  split at h
  · cases h; exact .inl ⟨.noHash, by simp [errorsOf, CommandError.code, CommandError.detail], rfl⟩
  · rename_i hk
    split at h
    · cases h; exact .inl ⟨.badRange, by simp [errorsOf, CommandError.code, CommandError.detail], rfl⟩
    · rename_i hv
      cases h
      refine .inr ⟨_, ?_, .shaFinal (by simpa [hashActive] using hk), rfl⟩
      simpa [OperandsInRange, allValid_iff, inputOperands, outputOperands] using hv

theorem execHmac_next {s t : State} (h : execHmac s = .next t) : ExecOutcome .hmac s t := by
  unfold execHmac at h
  split at h
  · cases h; exact .inl ⟨.badRange, by simp [errorsOf, CommandError.code, CommandError.detail], rfl⟩
  · rename_i hv
    obtain ⟨key, hk, hg⟩ := withInput_next h
    obtain ⟨data, hr, hg⟩ := withInput_next hg
    cases hg
    refine .inr ⟨_, ?_, .hmac hk hr, rfl⟩
    simpa [OperandsInRange, allValid_iff, inputOperands, outputOperands] using hv

theorem execHmacInit_next {s t : State} (h : execHmacInit s = .next t) : ExecOutcome .hmacInit s t := by
  unfold execHmacInit at h
  split at h
  · cases h; exact .inl ⟨.badRange, by simp [errorsOf, CommandError.code, CommandError.detail], rfl⟩
  · rename_i hv
    obtain ⟨key, hk, hg⟩ := withInput_next h
    cases hg
    refine .inr ⟨_, ?_, .hmacInit hk, rfl⟩
    simpa [OperandsInRange, allValid_iff, inputOperands, outputOperands] using hv

theorem execHmacUpdate_next {s t : State} (h : execHmacUpdate s = .next t) : ExecOutcome .hmacUpdate s t := by
  unfold execHmacUpdate at h
  split at h
  · cases h; exact .inl ⟨.noHmac, by simp [errorsOf, CommandError.code, CommandError.detail], rfl⟩
  · rename_i hk
    split at h
    · cases h; exact .inl ⟨.badRange, by simp [errorsOf, CommandError.code, CommandError.detail], rfl⟩
    · rename_i hv
      obtain ⟨d, hr, hg⟩ := withInput_next h
      cases hg
      refine .inr ⟨_, ?_, .hmacUpdate (by simpa [hmacActive] using hk) hr, rfl⟩
      simpa [OperandsInRange, allValid_iff, inputOperands, outputOperands] using hv

theorem execHmacFinal_next {s t : State} (h : execHmacFinal s = .next t) : ExecOutcome .hmacFinal s t := by
  unfold execHmacFinal at h
  split at h
  · cases h; exact .inl ⟨.noHmac, by simp [errorsOf, CommandError.code, CommandError.detail], rfl⟩
  · rename_i hk
    split at h
    · cases h; exact .inl ⟨.badRange, by simp [errorsOf, CommandError.code, CommandError.detail], rfl⟩
    · rename_i hv
      cases h
      refine .inr ⟨_, ?_, .hmacFinal (by simpa [hmacActive] using hk), rfl⟩
      simpa [OperandsInRange, allValid_iff, inputOperands, outputOperands] using hv

theorem execPbkdf2_next {s t : State} (h : execPbkdf2 s = .next t) : ExecOutcome .pbkdf2 s t := by
  unfold execPbkdf2 at h
  split at h
  · cases h; exact .inl ⟨.invalidParameter, by simp [errorsOf, CommandError.code, CommandError.detail], rfl⟩
  · rename_i hi
    split at h
    · cases h; exact .inl ⟨.badRange, by simp [errorsOf, CommandError.code, CommandError.detail], rfl⟩
    · rename_i hv
      obtain ⟨P, hk, hg⟩ := withInput_next h
      obtain ⟨S, hr, hg⟩ := withInput_next hg
      cases hg
      refine .inr ⟨_, ?_, .pbkdf2 hi hk hr, rfl⟩
      simpa [OperandsInRange, allValid_iff, inputOperands, outputOperands] using hv

/-- The inversion of `exec`. -/
theorem exec_next {i : Instr} {s t : State} (h : exec i s = .next t) : ExecOutcome i s t := by
  cases i with
  | setKey b => exact execSetKey_next h
  | encryptBlock => exact execEncryptBlock_next h
  | decryptBlock => exact execDecryptBlock_next h
  | ctrCrypt => exact execCtrCrypt_next h
  | shaInit => cases h; exact .inr ⟨_, by simp [OperandsInRange, inputOperands, outputOperands], .shaInit, rfl⟩
  | shaUpdate => exact execShaUpdate_next h
  | shaFinal => exact execShaFinal_next h
  | hmac => exact execHmac_next h
  | hmacInit => exact execHmacInit_next h
  | hmacUpdate => exact execHmacUpdate_next h
  | hmacFinal => exact execHmacFinal_next h
  | pbkdf2 => exact execPbkdf2_next h
  | zeroize => cases h; exact .inr ⟨_, by simp [OperandsInRange, inputOperands, outputOperands], .zeroize, rfl⟩

end Sys2Proof.Machine
end

