-- ==== Sys2Proof/Laws/Step.lean ====
section
/-! SUPPORT. What a step that answers a next state has done, said once: whose turn it was, and what came of it. -/

namespace Sys2Proof.Machine

/-- The step is the core's turn. -/
abbrev State.isCoreTurn (s : State) : Prop := s.turns = [] ∨ s.turns.head? = some .core

/-- What the core's turn can do. -/
theorem coreTurn_next {s t : State} (h : coreTurn s = .next t) :
    (s.flags.busy = false ∧ t = s) ∨
    (s.flags.busy = true ∧ (∃ i, decode s.latch = .ok i ∧ exec i s = .next t)) ∨
    (s.flags.busy = true ∧ (∀ i, decode s.latch ≠ .ok i) ∧ t = raise .illegalCommand s) := by
  unfold coreTurn at h
  split at h
  · rename_i hb
    unfold runLatched at h
    split at h
    · rename_i i hi
      exact .inr (.inl ⟨hb, i, hi, h⟩)
    · rename_i e he
      cases h
      exact .inr (.inr ⟨hb, ⟨fun i hi => (by rw [he] at hi; cases hi), rfl⟩⟩)
  · rename_i hb
    cases h
    exact .inl ⟨by simpa using hb, rfl⟩

/-- What an access of the host to an idle core can do. -/
theorem idleAccess_next {a : Access} {s t : State} (h : idleAccess a s = .next t) :
    (∃ r, t = reply r s) ∨ (∃ off v, a = .regWrite off v ∧ t = registerWrite off v s) ∨
    (∃ k b, a = .memWriteByte k b ∧ k < s.params.opmemBytes ∧ t = { s with opmem := s.opmem.write k b }) := by
  cases a with
  | regRead off =>
    simp only [idleAccess, withRegister] at h
    split at h
    · cases h
    · split at h <;> cases h
      exact .inl ⟨_, rfl⟩
  | regWrite off v =>
    simp only [idleAccess, withRegister] at h
    split at h
    · cases h
    · split at h <;> cases h
      exact .inr (.inl ⟨_, _, rfl, rfl⟩)
  | memReadByte k =>
    simp only [idleAccess, withWindow] at h
    split at h <;> cases h
    exact .inl ⟨_, rfl⟩
  | memWriteByte k b =>
    simp only [idleAccess, withWindow] at h
    split at h
    · rename_i hk
      cases h
      exact .inr (.inr ⟨_, _, rfl, hk, rfl⟩)
    · cases h

/-- What a register write can do. -/
theorem registerWrite_cases (off : Nat) (v : Word) (s : State) :
    (off = cmdOffset ∧ registerWrite off v s = issue v s) ∨
    (off = statusOffset ∧ v.getLsbD 3 = true ∧ registerWrite off v s = clearSticky s) ∨
    (∃ r : OperandReg, r.offset = off ∧ registerWrite off v s = { s with regs := s.regs.set r v }) ∨
    registerWrite off v s = s := by
  unfold registerWrite
  split
  · rename_i h
    exact .inl ⟨h, rfl⟩
  · split
    · rename_i h
      split
      · rename_i hv
        exact .inr (.inl ⟨h, hv, rfl⟩)
      · exact .inr (.inr (.inr rfl))
    · split
      · rename_i r hr
        exact .inr (.inr (.inl ⟨r, by simpa using List.find?_some hr, rfl⟩))
      · exact .inr (.inr (.inr rfl))

theorem get_set (r : OperandRegs) (n m : OperandReg) (v : Word) :
    (r.set n v).get m = if m = n then v else r.get m := by
  cases n <;> cases m <;> rfl

/-- What a bus access can do: it becomes turns of the host. -/
theorem hostBus_next {b : BusAccess} {s t : State} (h : hostBus b s = .next t) :
    ∃ as : List Access, t = { s with turns := as.map Turn.host ++ s.turns } := by
  cases b with
  | read addr width =>
    simp only [hostBus, busRead] at h
    split at h
    · split at h <;> cases h
      exact ⟨_, rfl⟩
    · cases h
      exact ⟨_, rfl⟩
    · cases h
  | write addr bytes =>
    simp only [hostBus, busWrite] at h
    split at h
    · split at h <;> cases h
      exact ⟨_, rfl⟩
    · cases h
      exact ⟨_, rfl⟩
    · cases h

/-- What a step that answers `t` has done. -/
theorem step_next {s t : State} (h : step s = .next t) :
    (s.turns.head? = some .reset ∧ t = applyReset { s with turns := s.turns.tail }) ∨
    (s.isCoreTurn ∧ s.flags.busy = false ∧ t = { s with turns := s.turns.tail }) ∨
    (s.isCoreTurn ∧ s.flags.busy = true ∧ ∃ i, decode s.latch = .ok i ∧
      exec i { s with turns := s.turns.tail } = .next t) ∨
    (s.isCoreTurn ∧ s.flags.busy = true ∧ (∀ i, decode s.latch ≠ .ok i) ∧
      t = raise .illegalCommand { s with turns := s.turns.tail }) ∨
    (∃ a, s.turns.head? = some (.host a) ∧ (s.flags.busy = false ∨ a = .regRead statusOffset) ∧
      idleAccess a { s with turns := s.turns.tail } = .next t) ∨
    (∃ b, s.turns.head? = some (.bus b) ∧
      ∃ as : List Access, t = { s with turns := as.map Turn.host ++ s.turns.tail }) := by
  have core : s.isCoreTurn → coreTurn { s with turns := s.turns.tail } = .next t →
      (s.isCoreTurn ∧ s.flags.busy = false ∧ t = { s with turns := s.turns.tail }) ∨
      (s.isCoreTurn ∧ s.flags.busy = true ∧ ∃ i, decode s.latch = .ok i ∧
        exec i { s with turns := s.turns.tail } = .next t) ∨
      (s.isCoreTurn ∧ s.flags.busy = true ∧ (∀ i, decode s.latch ≠ .ok i) ∧
        t = raise .illegalCommand { s with turns := s.turns.tail }) := by
    intro hc h
    rcases coreTurn_next h with ⟨hb, rfl⟩ | ⟨hb, hx⟩ | ⟨hb, hd, rfl⟩
    · exact .inl ⟨hc, hb, rfl⟩
    · exact .inr (.inl ⟨hc, hb, hx⟩)
    · exact .inr (.inr ⟨hc, hb, hd, rfl⟩)
  unfold step at h
  split at h
  · rename_i ht
    have e : ({ s with turns := s.turns.tail } : State) = s := by
      rw [ht, List.tail_nil, ← ht]
    rcases core (.inl ht) (e.symm ▸ h) with hx | hx | hx
    · exact .inr (.inl hx)
    · exact .inr (.inr (.inl hx))
    · exact .inr (.inr (.inr (.inl hx)))
  · rename_i rest ht
    rcases core (.inr (by rw [ht]; rfl)) (by rw [ht]; exact h) with hx | hx | hx
    · exact .inr (.inl hx)
    · exact .inr (.inr (.inl hx))
    · exact .inr (.inr (.inr (.inl hx)))
  · rename_i a rest ht
    refine .inr (.inr (.inr (.inr (.inl ⟨a, by rw [ht]; rfl, ?_⟩))))
    unfold hostAccess at h
    split at h
    · cases h
    · rename_i hb
      rw [ht, List.tail_cons]
      refine ⟨?_, h⟩
      simp only [allowedWhileBusy, Bool.and_eq_true, Bool.not_eq_true', beq_eq_false_iff_ne, not_and, not_not] at hb
      cases hbb : s.flags.busy
      · exact .inl rfl
      · exact .inr (hb hbb)
  · rename_i b rest ht
    obtain ⟨as, rfl⟩ := hostBus_next h
    exact .inr (.inr (.inr (.inr (.inr ⟨b, by rw [ht]; rfl, as, by rw [ht]; rfl⟩))))
  · rename_i rest ht
    cases h
    exact .inl ⟨by rw [ht]; rfl, by rw [ht]; rfl⟩

end Sys2Proof.Machine
end

