-- ==== Sys2Proof/Machine/HostScript.lean ====
section
/-! DEFINITION. The host notation (`30_encoding.md` rule R65) and the source's functions as host actions (rule R66):
each line is a list of turns. After a command word the core has one turn and the host then reads `STATUS`, which is
what reading it until `BUSY = 0` comes to. -/

namespace Sys2Proof.Machine

/-- `WR <REG>, <value>` for an operand register (rule R65). -/
def wr (r : OperandReg) (v : Nat) : List Turn := [.host (.regWrite r.offset (BitVec.ofNat 32 v))]

/-- `RD <REG>` for an operand register (rule R65). -/
def rd (r : OperandReg) : List Turn := [.host (.regRead r.offset)]

/-- `RD STATUS` (rule R65). -/
def rdStatus : List Turn := [.host (.regRead statusOffset)]

/-- `RD ERRINFO` (rule R65). -/
def rdErrInfo : List Turn := [.host (.regRead errInfoOffset)]

/-- `WRM <addr>, <hex bytes>` (rule R65). -/
def wrm (addr : Nat) (bs : List Byte) : List Turn :=
  (List.range bs.length).map fun i => .host (.memWriteByte (addr + i) (bs.getD i 0x00#8))

/-- `RDM <addr>, <n>` (rule R65). -/
def rdm (addr n : Nat) : List Turn := (List.range n).map fun i => .host (.memReadByte (addr + i))

/-- `.word <value>` (rule R65). -/
def rawWord (c : Word) : List Turn := .host (.regWrite cmdOffset c) :: .core :: rdStatus

/-- `<MNEMONIC> [<arg>]` (rule R65). -/
def command (i : Instr) : List Turn := rawWord (encode i)

/-- `CLRERR` (rule R66). -/
def clrErr : List Turn := [.host (.regWrite statusOffset 0x00000008#32)]

/-- `set_key(key, bits)` (rule R66). -/
def setKeyScript (K : Nat) (key : List Byte) (bits : Nat) : List Turn :=
  wrm K key ++ wr .keyAddr K ++ command (.setKey bits)

/-- `encrypt_block(state, in) -> out` (rule R66). -/
def encryptBlockScript (D O : Nat) (inp : List Byte) : List Turn :=
  wrm D inp ++ wr .srcAddr D ++ wr .dstAddr O ++ command .encryptBlock ++ rdm O 16

/-- `decrypt_block(state, in) -> out` (rule R66). -/
def decryptBlockScript (D O : Nat) (inp : List Byte) : List Turn :=
  wrm D inp ++ wr .srcAddr D ++ wr .dstAddr O ++ command .decryptBlock ++ rdm O 16

/-- `ctr_crypt(state, in, counter_block) -> out` (rule R66); the counter block is written on the first call of a
stream only. -/
def ctrCryptScript (D O C : Nat) (inp : List Byte) (firstBlock : Option (List Byte)) : List Turn :=
  wrm D inp ++ wrm C (firstBlock.getD []) ++ wr .srcAddr D ++ wr .srcLen inp.length ++ wr .dstAddr O ++
    wr .ctrAddr C ++ command .ctrCrypt ++ rdm O inp.length

/-- `init()` (rule R66). -/
def initScript : List Turn := command .shaInit

/-- `update(data)` (rule R66). -/
def updateScript (D : Nat) (data : List Byte) : List Turn :=
  wrm D data ++ wr .srcAddr D ++ wr .srcLen data.length ++ command .shaUpdate

/-- `final(digest_out)` (rule R66). -/
def finalScript (O : Nat) : List Turn := wr .dstAddr O ++ command .shaFinal ++ rdm O 64

/-- `hmac(key, data) -> tag` (rule R66). -/
def hmacScript (K D O : Nat) (key data : List Byte) : List Turn :=
  wrm K key ++ wrm D data ++ wr .keyAddr K ++ wr .keyLen key.length ++ wr .srcAddr D ++
    wr .srcLen data.length ++ wr .dstAddr O ++ command .hmac ++ rdm O 64

/-- `derive(password, salt, iterations, output_length)` (rule R66). -/
def deriveScript (K D O : Nat) (password salt : List Byte) (iterations outputLength : Nat) : List Turn :=
  wrm K password ++ wrm D salt ++ wr .keyAddr K ++ wr .keyLen password.length ++ wr .srcAddr D ++
    wr .srcLen salt.length ++ wr .iter iterations ++ wr .dstAddr O ++ wr .dstLen outputLength ++
    command .pbkdf2 ++ rdm O outputLength

end Sys2Proof.Machine
end

