-- ==== Sys2Proof/Machine/Driver.lean ====
section
/-! DEFINITION. The pipelines in hardware terms (`46_container_pipeline.md` rules R172, R174, R175, R178 to R181;
`60_exceptions.md` rule R159): the host's steps in order, the turns they come to, and the driver that runs them on the
core. The driver stops at the first failure, a file operation's or a command's, issues ZEROIZE on every exit path, and
removes the scratch storage of `decrypt`. -/

namespace Sys2Proof.Machine

/-- One step of the host's procedure. -/
inductive HostStep where
  /-- Accesses of the host that start no command. -/
  | access (ts : List Turn)
  /-- A command: issued, completed, and `STATUS` read. -/
  | command (i : Instr)
  /-- A file operation that puts nothing into the output: opening, reading, seeking, closing. -/
  | file
  /-- The nonce is drawn, from a strong random source or not (rule R174 step 4). -/
  | drawNonce (strong : Bool)
  /-- These bytes go to the output file. -/
  | write (bs : List Byte)
  /-- The `n` bytes just read out of OPMEM go to the output file. -/
  | writeRead (n : Nat)
  /-- Empty scratch storage is opened (rule R175 step 7). -/
  | openScratch
  /-- The `n` bytes just read out of OPMEM go to scratch storage (rule R175 step 7). -/
  | keepRead (n : Nat)
  /-- The bytes just read out of OPMEM are compared with the stored tag, all of them (rule R175 step 9). -/
  | compareTag (stored : List Byte)
  /-- COMMIT_OUTPUT: the scratch plaintext is copied to the final path, all of it or nothing (rules R175 step 10, R180). -/
  | commit (path : List Byte)
  /-- A chunk is done: the progress callback is called, where there is one (rule R178). -/
  | progress
deriving DecidableEq, Repr

/-- The turns of a step: file operations, the nonce, scratch storage, the comparison and the callback are none of the
core's. -/
def HostStep.turns : HostStep → List Turn
  | .access ts => ts
  | .command i => Machine.command i
  | .file | .drawNonce _ | .write _ | .writeRead _ | .openScratch | .keepRead _ | .compareTag _ | .commit _ | .progress => []

/-- Where the host keeps its byte strings in OPMEM (rules R172, R174, R175). -/
structure PipelineAddresses where
  /-- `PW`, the password. -/
  pw : Nat
  /-- `DKA`, the 64 derived bytes. -/
  dka : Nat
  /-- `HDR`, the header. -/
  hdr : Nat
  /-- `BUF`, the chunk buffer. -/
  buf : Nat
  /-- `TAG`, the tag. -/
  tag : Nat
  /-- `CBA`, the counter block. -/
  cba : Nat
deriving DecidableEq, Repr

/-- `derive_keys` in hardware terms (rule R172). -/
def deriveKeysSteps (p : Params) (A : PipelineAddresses) (password : List Byte) (keyBits : Nat) : List HostStep :=
  [.access (wrm A.pw password ++ wr .keyAddr A.pw ++ wr .keyLen password.length ++ wr .srcLen 0 ++ wr .srcAddr 0 ++
      wr .iter prodIter ++ wr .dstAddr A.dka ++ wr .dstLen prodDkLen),
    .command .pbkdf2, .access (wr .keyAddr A.dka), .command (.setKey keyBits),
    .access (wr .keyAddr (A.dka + p.macKeyOffset) ++ wr .keyLen macKeyBytes), .command .hmacInit]

/-- Bytes fed to the streamed HMAC through a buffer (rule R174). -/
def feedSteps (addr : Nat) (bs : List Byte) : List HostStep :=
  [.access (wrm addr bs ++ wr .srcAddr addr ++ wr .srcLen bs.length), .command .hmacUpdate]

/-- One chunk through CTR_CRYPT in place (rules R174, R175). -/
def cryptSteps (addr : Nat) (bs : List Byte) : List HostStep :=
  [.access (wrm addr bs ++ wr .srcAddr addr ++ wr .dstAddr addr ++ wr .srcLen bs.length), .command .ctrCrypt]

/-- The tag of the streamed HMAC, read out (rules R174, R175). -/
def tagSteps (A : PipelineAddresses) : List HostStep :=
  [.access (wr .dstAddr A.tag), .command .hmacFinal, .access (rdm A.tag tagBytes)]

/-- `encrypt` in hardware terms (rule R174): the source opened, the keys, the nonce, the MAC pass, header and tag written,
the cipher pass, the files closed. -/
def encryptSteps (p : Params) (A : PipelineAddresses) (x : EncryptRequest) : List HostStep :=
  let header := (newHeader x.keyBits x.nonce x.extension).encode
  let chunks := chunksOf p.chunkBytes x.source
  .file :: deriveKeysSteps p A x.password x.keyBits ++ .drawNonce x.nonceStrong :: feedSteps A.hdr header ++
    chunks.flatMap (fun c => .file :: feedSteps A.buf c ++ [.progress]) ++
    tagSteps A ++ [.write header, .writeRead tagBytes, .access (wrm A.cba (x.nonce ++ zeros 8) ++ wr .ctrAddr A.cba)] ++
    chunks.flatMap (fun c =>
      .file :: cryptSteps A.buf c ++ [.access (rdm A.buf c.length), .writeRead c.length, .progress]) ++
    [.file]

/-- `decrypt` in hardware terms from DERIVE_KEYS to COMPARE_TAG, steps 7 and 8 interleaved chunk by chunk (rule R175); the
file has been opened and its header checked. -/
def decryptSteps (p : Params) (A : PipelineAddresses) (keyBits : Nat) (password file : List Byte) : List HostStep :=
  deriveKeysSteps p A password keyBits ++ .file :: feedSteps A.hdr (slice file 0 headerBytes) ++
    [.openScratch, .access (wrm A.cba (slice file 8 8 ++ zeros 8) ++ wr .ctrAddr A.cba)] ++
    (chunksOf p.chunkBytes (file.drop (headerBytes + tagBytes))).flatMap (fun c =>
      .file :: cryptSteps A.buf c ++ .command .hmacUpdate :: [.access (rdm A.buf c.length), .keepRead c.length, .progress]) ++
    tagSteps A ++ [.compareTag (slice file headerBytes tagBytes)]

/-- `decrypt` from COMMIT_OUTPUT to CLOSE, which uses no command (rule R175 steps 10 and 11). -/
def commitSteps (outputPath extension : List Byte) : List HostStep :=
  [.commit (finalPathOf outputPath extension), .file]

/-- The turns of the course that ends after the first `n` steps, because they are all there are or because the last of them
failed: ZEROIZE comes last on every exit path (rule R181). -/
def courseTurns (steps : List HostStep) (n : Nat) : List Turn :=
  (steps.take n).flatMap HostStep.turns ++ command .zeroize

/-- `encrypt` in hardware terms, the course that runs to the end (rules R174, R181). -/
def encryptScript (p : Params) (A : PipelineAddresses) (x : EncryptRequest) : List Turn :=
  let steps := encryptSteps p A x
  courseTurns steps steps.length

/-- `decrypt` in hardware terms, the course that runs to the comparison (rules R175, R181). -/
def decryptScript (p : Params) (A : PipelineAddresses) (keyBits : Nat) (password file : List Byte) : List Turn :=
  let steps := decryptSteps p A keyBits password file
  courseTurns steps steps.length

/-- The two operations on files: what a failure leaves at the destination differs (rule R179). -/
inductive FileOperation where
  | encrypt
  | decrypt
deriving DecidableEq, Repr

/-- How far a file operation has come. Bytes read out of OPMEM may be unknown (rule R55). -/
structure Course where
  /-- The core. -/
  core : State
  /-- What has gone wrong, if anything has. -/
  error : Option HostError
  /-- The file operations that have succeeded. -/
  filesDone : Nat
  /-- A nonce from a weak random source has been drawn, whatever came after (rules R174 step 4, R179). -/
  weakNonce : Bool
  /-- What stands at the destination; `none` where no file was created. -/
  destination : Option (List (Option Byte))
  /-- The path of the committed output of `decrypt` (rule R175 "Outcome"). -/
  finalPath : Option (List Byte)
  /-- What stands in scratch storage; `none` where there is none (rule R175 steps 7 and 11). -/
  scratch : Option (List (Option Byte))
  /-- Whether the caller supplied a progress callback (rule R178). -/
  callback : Bool
  /-- The length of the input file. -/
  length : Nat
  /-- The calls the progress callback has received, the first one first. -/
  progress : List Progress
deriving DecidableEq, Repr

/-- A file operation at its start: nothing is written and nothing has been called. -/
def Course.start (s : State) (rejected : Option HostError) (callback : Bool) (length : Nat) : Course :=
  { core := s, error := rejected, filesDone := 0, weakNonce := false, destination := none, finalPath := none, scratch := none
    callback := callback, length := length, progress := [] }

/-- The outcome of running some steps: a course, or the stop of the machine. -/
abbrev CourseResult := Host.Outcome Course Fault Refusal

/-- The turns of a step run on the core, one step of the machine each. -/
def runTurns (ts : List Turn) (s : State) : Result :=
  match ts with
  | [] => .next s
  | t :: rest =>
    match step { s with turns := [t] } with
    | .next u => runTurns rest u
    | .fault f => .fault f
    | .refused r => .refused r

/-- The course after its core has run some turns. -/
def Course.run (c : Course) (ts : List Turn) : CourseResult :=
  match runTurns ts c.core with
  | .next s => .next { c with core := s }
  | .fault f => .fault f
  | .refused r => .refused r

/-- The register value the host read last. -/
def lastWord (s : State) : Word :=
  match s.replies with
  | .reg _ v :: _ => v
  | _ => 0#32

/-- The last `n` bytes the host read out of OPMEM, in the order it read them. -/
def lastBytes (n : Nat) (s : State) : List (Option Byte) :=
  (s.replies.take n).reverse.map fun r =>
    match r with
    | .byte _ b => b
    | .reg _ _ => none

/-- What the host reports of a failed command: `CODE` and `DETAIL` of the `ERRINFO` it has read (rules R24, R159). That
`DETAIL` stands beside the code is the model's choice (log entry 16). -/
def reportedError (s : State) : HostError := .hardware ((lastWord s).extractLsb' 0 8) ((lastWord s).extractLsb' 8 8)

/-- A command of the pipeline: with `ERR = 1` in the `STATUS` it reads, the host reads `ERRINFO` and gives up (rule
R159). -/
def Course.command (c : Course) (i : Instr) : CourseResult :=
  match c.run (Machine.command i) with
  | .next d =>
    if (lastWord d.core).getLsbD 2 then
      match d.run rdErrInfo with
      | .next e => .next { e with error := some (reportedError e.core) }
      | stop => stop
    else .next d
  | stop => stop

/-- A file operation with its effect; the one numbered `failing` fails and has none (rule R159). -/
def Course.file (failing : Option Nat) (effect : Course → Course) (c : Course) : Course :=
  if failing = some c.filesDone then { c with error := some .ioError }
  else { effect c with filesDone := c.filesDone + 1 }

/-- More bytes at the destination, which the first of them create (rule R174 step 7). -/
def Course.write (bs : List (Option Byte)) (c : Course) : Course :=
  { c with destination := some (c.destination.getD [] ++ bs) }

/-- More bytes in scratch storage (rule R175 step 7). -/
def Course.keep (bs : List (Option Byte)) (c : Course) : Course := { c with scratch := some (c.scratch.getD [] ++ bs) }

/-- COMMIT_OUTPUT (rule R175 step 10). -/
def Course.commit (path : List Byte) (c : Course) : Course := { c with destination := c.scratch, finalPath := some path }

/-- The progress callback after a chunk; without one, nothing is called (rule R178; the counts are free, log entry 15). -/
def Course.notify (c : Course) : Course :=
  if c.callback then { c with progress := c.progress ++ [Config.progressCounts c.length c.progress.length] } else c

/-- One step of the host's procedure. -/
def driveStep (failing : Option Nat) (h : HostStep) (c : Course) : CourseResult :=
  match h with
  | .access ts => c.run ts
  | .command i => c.command i
  | .file => .next (c.file failing id)
  | .drawNonce strong => .next { c with weakNonce := !strong }
  | .write bs => .next (c.file failing (Course.write (bs.map some)))
  | .writeRead n => .next (c.file failing (Course.write (lastBytes n c.core)))
  | .openScratch => .next (c.file failing (Course.keep []))
  | .keepRead n => .next (c.file failing (Course.keep (lastBytes n c.core)))
  | .compareTag stored =>
    .next (if lastBytes stored.length c.core = stored.map some then c
      else { c with error := some .authenticationFailure })
  | .commit path => .next (c.file failing (Course.commit path))
  | .progress => .next c.notify

/-- The steps in order, up to the first failure, which aborts the operation (rule R179). -/
def driveSteps (failing : Option Nat) : List HostStep → Course → CourseResult
  | [], c => .next c
  | h :: rest, c =>
    match driveStep failing h c with
    | .next d => if d.error.isSome then .next d else driveSteps failing rest d
    | stop => stop

/-- The end of a file operation on the host's side, on every exit path: the scratch storage is removed, its plaintext with
it (rules R159, R175 step 11), and a failed `decrypt` leaves nothing at the destination, where a failed `encrypt` may
(rules R174, R175, R179). -/
def Course.closed (op : FileOperation) (c : Course) : Course :=
  match op, c.error with
  | .decrypt, some _ => { c with scratch := none, destination := none, finalPath := none }
  | .decrypt, none | .encrypt, _ => { c with scratch := none }

/-- One file operation on the core: its steps, and at its end, whatever its outcome, ZEROIZE and the removal of the scratch
storage (rules R175 step 11, R181). An operation turned away by the eager checks has its error at the start and takes no
step. -/
def driveFile (op : FileOperation) (failing : Option Nat) (steps : List HostStep) (start : Course) : CourseResult :=
  match driveSteps failing (if start.error.isSome then [] else steps) start with
  | .next c =>
    match c.run (command .zeroize) with
    | .next d => .next (d.closed op)
    | stop => stop
  | stop => stop

/-- `encrypt` on the core (rules R174, R181): `failing` is the number of the first file operation that fails. -/
def driveEncrypt (A : PipelineAddresses) (x : EncryptRequest) (failing : Option Nat) (s : State) : CourseResult :=
  let rejected :=
    if !validatePassword x.password then some HostError.passwordPolicyViolation
    else if !legalKeyBits x.keyBits then some HostError.invalidKeyLength
    else none
  driveFile .encrypt failing (encryptSteps s.params A x)
    (.start s rejected x.callback x.source.length)

/-- `decrypt` on the core (rules R175, R181); opening the file and reading its header are the file operations 0 and 1, which
the checks of the header follow. -/
def driveDecrypt (A : PipelineAddresses) (x : DecryptRequest) (failing : Option Nat) (s : State) : CourseResult :=
  let rejected (e : HostError) := driveFile .decrypt failing [] (.start s (some e) x.callback x.source.length)
  if !validatePassword x.password then rejected .passwordPolicyViolation
  else if failing = some 0 ∨ failing = some 1 then rejected .ioError
  else
    match checkContainer x.source with
    | .error e => rejected e
    | .ok (keyBits, h) =>
      driveFile .decrypt failing
        (.file :: .file :: decryptSteps s.params A keyBits x.password x.source ++
          commitSteps x.outputPath (extensionOf h.format))
        (.start s none x.callback x.source.length)

end Sys2Proof.Machine
end

