-- ==== Sys2Proof/Laws/Driver.lean ====
section
/-! SUPPORT. What the driver of the pipelines does, said once: ZEROIZE ends every file operation (rule R181), the
scratch storage is removed (rule R175), and a callback is called only where there is one (rule R178). -/

namespace Sys2Proof.Machine

@[simp] theorem runTurns_nil (s : State) : runTurns [] s = .next s := rfl

theorem runTurns_cons {t : Turn} {ts : List Turn} {s v : State} (h : runTurns (t :: ts) s = .next v) :
    ∃ u, step { s with turns := [t] } = .next u ∧ runTurns ts u = .next v := by
  simp only [runTurns] at h
  split at h
  · rename_i u hu
    exact ⟨u, hu, h⟩
  · cases h
  · cases h

/-- ZEROIZE as the host issues it, wherever the machine goes on: the core was idle, and nothing of what it held is left. -/
theorem runTurns_zeroize {s t : State} (h : runTurns (command .zeroize) s = .next t) :
    s.flags.busy = false ∧ t.aes = AesContext.cleared ∧ t.sha = ShaContext.cleared ∧ t.hm = HmacContext.cleared ∧
      t.regs = OperandRegs.zero ∧ t.opmem = Memory.zeroed s.params.opmemBytes ∧ t.latch = 0 ∧
      t.flags = { busy := false, done := true, err := false, esticky := s.flags.esticky } ∧ t.params = s.params := by
  obtain ⟨u, hu, h⟩ := runTurns_cons h
  obtain ⟨v, hv, h⟩ := runTurns_cons h
  obtain ⟨w, hw, h⟩ := runTurns_cons h
  cases h
  have hb : s.flags.busy = false := by
    by_contra hb
    rw [Bool.not_eq_false] at hb
    simp [step, hostAccess, allowedWhileBusy, statusOffset, cmdOffset, hb] at hu
  have e1 : u = { issue (encode .zeroize) s with turns := [] } := by
    simpa [step, hostAccess, hb, idleAccess, withRegister, windowOffset, cmdOffset, registerWrite, issue,
      eq_comm] using hu
  subst e1
  have e2 : v = complete (zeroizeAll { issue (encode .zeroize) s with turns := [] }) := by
    have hd : decode (encode .zeroize) = .ok .zeroize := by decide
    simpa [step, coreTurn, runLatched, issue, hd, exec, execZeroize, eq_comm] using hv
  subst e2
  have e3 : ∃ r, t = reply r { complete (zeroizeAll { issue (encode .zeroize) s with turns := [] }) with turns := [] } := by
    simp [step, hostAccess, complete, idleAccess, withRegister, windowOffset, statusOffset] at hw
    exact ⟨_, hw.symm⟩
  obtain ⟨r, rfl⟩ := e3
  exact ⟨hb, rfl, rfl, rfl, rfl, rfl, rfl, rfl, rfl⟩

theorem Course.run_next {c d : Course} {ts : List Turn} (h : c.run ts = .next d) :
    ∃ s, runTurns ts c.core = .next s ∧ d = { c with core := s } := by
  simp only [Course.run] at h
  split at h <;> cases h
  rename_i s hs
  exact ⟨s, hs, rfl⟩

@[simp] theorem Course.closed_core (op : FileOperation) (c : Course) : (c.closed op).core = c.core := by
  unfold Course.closed; split <;> rfl

@[simp] theorem Course.closed_error (op : FileOperation) (c : Course) : (c.closed op).error = c.error := by
  unfold Course.closed; split <;> rfl

@[simp] theorem Course.closed_scratch (op : FileOperation) (c : Course) : (c.closed op).scratch = none := by
  unfold Course.closed; split <;> rfl

@[simp] theorem Course.closed_weakNonce (op : FileOperation) (c : Course) : (c.closed op).weakNonce = c.weakNonce := by
  unfold Course.closed; split <;> rfl

@[simp] theorem Course.closed_progress (op : FileOperation) (c : Course) : (c.closed op).progress = c.progress := by
  unfold Course.closed; split <;> rfl

/-- A failed `decrypt` leaves no destination file (rule R175 "Outcome"). -/
theorem Course.closed_failed {c : Course} (h : c.error ≠ none) :
    (c.closed .decrypt).destination = none ∧ (c.closed .decrypt).finalPath = none := by
  obtain ⟨e, he⟩ := Option.ne_none_iff_exists'.mp h
  simp [Course.closed, he]

/-- A file operation on the core: the steps, up to the first failure, then ZEROIZE, then the close on the host's side. -/
theorem driveFile_next {op : FileOperation} {failing : Option Nat} {steps : List HostStep} {start d : Course}
    (h : driveFile op failing steps start = .next d) :
    ∃ c t, driveSteps failing (if start.error.isSome then [] else steps) start = .next c ∧
      runTurns (command .zeroize) c.core = .next t ∧ d = Course.closed op { c with core := t } := by
  simp only [driveFile] at h
  split at h
  · rename_i c hc
    split at h
    · rename_i e he
      obtain ⟨t, ht, rfl⟩ := Course.run_next he
      cases h
      exact ⟨c, t, hc, ht, rfl⟩
    · rename_i he
      exact absurd h (he d)
  · rename_i hc
    exact absurd h (hc d)

/-- The secrets are cleared at the end of every file operation, whatever its outcome: no context, no operand register and no
byte of OPMEM holds anything (rule R181). -/
theorem driveFile_clears {op : FileOperation} {failing : Option Nat} {steps : List HostStep} {start d : Course}
    (h : driveFile op failing steps start = .next d) :
    d.core.aes = AesContext.cleared ∧ d.core.sha = ShaContext.cleared ∧ d.core.hm = HmacContext.cleared ∧
      d.core.regs = OperandRegs.zero ∧ d.core.opmem = Memory.zeroed d.core.params.opmemBytes ∧ d.core.latch = 0 := by
  obtain ⟨c, t, -, ht, rfl⟩ := driveFile_next h
  obtain ⟨-, h1, h2, h3, h4, h5, h6, -, h7⟩ := runTurns_zeroize ht
  rw [Course.closed_core]
  exact ⟨h1, h2, h3, h4, by rw [h5, h7], h6⟩

/-- The scratch storage is gone at the end of every file operation, whatever its outcome (rule R175 step 11). -/
theorem driveFile_discards {op : FileOperation} {failing : Option Nat} {steps : List HostStep} {start d : Course}
    (h : driveFile op failing steps start = .next d) : d.scratch = none := by
  obtain ⟨c, t, -, -, rfl⟩ := driveFile_next h
  exact Course.closed_scratch _ _

/-- What one step does to the calls: it keeps what the caller supplied, and adds calls only for a callback (rule R178). -/
theorem driveStep_progress {failing : Option Nat} {h : HostStep} {c d : Course} (hd : driveStep failing h c = .next d) :
    d.callback = c.callback ∧ (c.callback = false → d.progress = c.progress) := by
  have run : ∀ {c d : Course} {ts : List Turn}, c.run ts = .next d → d.callback = c.callback ∧ d.progress = c.progress := by
    intro c d ts h
    obtain ⟨s, -, rfl⟩ := Course.run_next h
    exact ⟨rfl, rfl⟩
  have file : ∀ effect : Course → Course, (effect c).callback = c.callback → (effect c).progress = c.progress →
      (c.file failing effect).callback = c.callback ∧ (c.file failing effect).progress = c.progress := by
    intro effect h1 h2
    unfold Course.file
    split
    · exact ⟨rfl, rfl⟩
    · exact ⟨h1, h2⟩
  cases h with
  | access ts => exact ⟨(run hd).1, fun _ => (run hd).2⟩
  | command i =>
    simp only [driveStep, Course.command] at hd
    split at hd
    · rename_i e he
      split at hd
      · split at hd
        · rename_i f hf
          cases hd
          exact ⟨(run hf).1.trans (run he).1, fun _ => (run hf).2.trans (run he).2⟩
        · rename_i hf
          exact absurd hd (hf d)
      · cases hd
        exact ⟨(run he).1, fun _ => (run he).2⟩
    · rename_i he
      exact absurd hd (he d)
  | drawNonce strong => cases hd; exact ⟨rfl, fun _ => rfl⟩
  | compareTag stored =>
    simp only [driveStep, Host.Outcome.next.injEq] at hd
    subst hd
    split <;> exact ⟨rfl, fun _ => rfl⟩
  | progress =>
    simp only [driveStep, Host.Outcome.next.injEq] at hd
    subst hd
    unfold Course.notify
    split
    · rename_i hc
      exact ⟨rfl, fun h => by rw [h] at hc; cases hc⟩
    · exact ⟨rfl, fun _ => rfl⟩
  | file | write | writeRead | openScratch | keepRead | commit =>
    simp only [driveStep, Host.Outcome.next.injEq] at hd
    subst hd
    exact ⟨(file _ rfl rfl).1, fun _ => (file _ rfl rfl).2⟩

/-- Without a callback no step makes a call (rule R178). -/
theorem driveSteps_silent {failing : Option Nat} {steps : List HostStep} {c d : Course} (hc : c.callback = false)
    (h : driveSteps failing steps c = .next d) : d.progress = c.progress := by
  induction steps generalizing c with
  | nil => cases h; rfl
  | cons step rest ih =>
    simp only [driveSteps] at h
    split at h
    · rename_i e he
      obtain ⟨h1, h2⟩ := driveStep_progress he
      split at h
      · cases h
        exact h2 hc
      · exact (ih (h1.trans hc) h).trans (h2 hc)
    · rename_i he
      exact absurd h (he d)

/-- Without a callback a file operation makes no call (rule R178). -/
theorem driveFile_silent {op : FileOperation} {failing : Option Nat} {steps : List HostStep} {start d : Course}
    (hc : start.callback = false) (h : driveFile op failing steps start = .next d) : d.progress = start.progress := by
  obtain ⟨c, t, hs, -, rfl⟩ := driveFile_next h
  have e : c.progress = start.progress := driveSteps_silent hc hs
  exact (Course.closed_progress _ _).trans e

/-- An encrypt operation on the core is one file operation. -/
theorem driveEncrypt_next {A : PipelineAddresses} {x : EncryptRequest} {failing : Option Nat} {s : State} {d : Course}
    (h : driveEncrypt A x failing s = .next d) :
    ∃ steps rejected, driveFile .encrypt failing steps (.start s rejected x.callback x.source.length) = .next d :=
  ⟨_, _, h⟩

/-- A decrypt operation on the core is one file operation, turned away or not. -/
theorem driveDecrypt_next {A : PipelineAddresses} {x : DecryptRequest} {failing : Option Nat} {s : State} {d : Course}
    (h : driveDecrypt A x failing s = .next d) :
    ∃ steps rejected, driveFile .decrypt failing steps (.start s rejected x.callback x.source.length) = .next d := by
  simp only [driveDecrypt] at h
  split at h
  · exact ⟨_, _, h⟩
  · split at h
    · exact ⟨_, _, h⟩
    · split at h <;> exact ⟨_, _, h⟩

/-- Every encrypt operation on the core ends with the secrets cleared (rules R174, R181), and makes no call without a
callback (rule R178). -/
theorem driveEncrypt_ends {A : PipelineAddresses} {x : EncryptRequest} {failing : Option Nat} {s : State} {d : Course}
    (h : driveEncrypt A x failing s = .next d) :
    d.core.aes = AesContext.cleared ∧ d.core.hm = HmacContext.cleared ∧
      d.core.opmem = Memory.zeroed d.core.params.opmemBytes ∧ (x.callback = false → d.progress = []) := by
  obtain ⟨steps, rejected, hf⟩ := driveEncrypt_next h
  have c := driveFile_clears hf
  exact ⟨c.1, c.2.2.1, c.2.2.2.2.1, fun hx => driveFile_silent hx hf⟩

/-- Every decrypt operation on the core ends with the secrets cleared (rules R175, R181) and the scratch storage removed; a
failed one leaves nothing at the destination (rule R175); and without a callback it makes no call (rule R178). -/
theorem driveDecrypt_ends {A : PipelineAddresses} {x : DecryptRequest} {failing : Option Nat} {s : State} {d : Course}
    (h : driveDecrypt A x failing s = .next d) :
    d.core.aes = AesContext.cleared ∧ d.core.hm = HmacContext.cleared ∧
      d.core.opmem = Memory.zeroed d.core.params.opmemBytes ∧ d.scratch = none ∧
      (d.error ≠ none → d.destination = none ∧ d.finalPath = none) ∧ (x.callback = false → d.progress = []) := by
  obtain ⟨steps, rejected, hf⟩ := driveDecrypt_next h
  have c := driveFile_clears hf
  refine ⟨c.1, c.2.2.1, c.2.2.2.2.1, driveFile_discards hf, fun he => ?_, fun hx => driveFile_silent hx hf⟩
  obtain ⟨_, _, -, -, rfl⟩ := driveFile_next hf
  exact Course.closed_failed (by rwa [Course.closed_error] at he)

/-- The turns of every course of the pipelines end with ZEROIZE (rule R181). -/
theorem courseTurns_zeroize (steps : List HostStep) (n : Nat) : command .zeroize <:+ courseTurns steps n :=
  List.suffix_append _ _

end Sys2Proof.Machine
end

