-- ==== Sys2Proof/Laws/Engines.lean ====
section
/-! SUPPORT. The engines' functions: the counter block as a number, the keystream byte by byte, the key schedule's leading
bytes, a hash state between operations, and the lengths of what the commands write. -/

namespace Sys2Proof.Machine

/-! Bytes and numbers -/

theorem beBytes_frombe (l : List Byte) : beBytes l.length (frombe l) = l := by
  induction l using List.reverseRecOn with
  | nil => rfl
  | append_singleton l b ih =>
    have hb := b.isLt
    have h1 : frombe [b] = b.toNat := by simp [frombe]
    rw [List.length_append, List.length_singleton, beBytes, frombe_append, h1, List.length_singleton, Nat.pow_one]
    have h2 : (frombe l * 256 + b.toNat) / 256 = frombe l := by omega
    rw [h2, ih]
    congr 2
    apply BitVec.eq_of_toNat_eq
    simp; omega

theorem frombe_be128 (v : Nat) : frombe (be128 (v % 2 ^ 128)) = v % 2 ^ 128 := by
  rw [be128, frombe_beBytes]; norm_num

theorem toList_fixed_be128 (v : Nat) : (fixed 16 (be128 v)).toList = be128 v := toList_fixed (length_beBytes 16 _)

theorem getD_append_zeros (l : List Byte) (k i : Nat) : (l ++ zeros k).getD i 0#8 = l.getD i 0#8 := by
  rw [List.getD_eq_getElem?_getD, List.getD_eq_getElem?_getD, zeros]
  rcases Nat.lt_or_ge i l.length with h1 | h1
  · rw [List.getElem?_append_left h1]
  · rw [List.getElem?_append_right h1, List.getElem?_replicate, List.getElem?_eq_none h1]
    split <;> rfl

/-- Storing a byte string in an array pads it with zeros. -/
theorem fixed_append_zeros (n k : Nat) (l : List Byte) : fixed n (l ++ zeros k) = fixed n l := by
  unfold fixed
  congr 1
  funext i
  exact getD_append_zeros l k i

theorem take_fixed (n k : Nat) (l : List Byte) (h1 : k ≤ n) (h2 : k ≤ l.length) :
    (fixed n l).toList.take k = l.take k := by
  apply List.ext_getElem
  · simp; omega
  · intro i a b
    simp only [List.length_take] at b
    simp [fixed, List.getD_eq_getElem?_getD, show i < l.length by omega]

/-! The counter block and the keystream (rules R101 to R103) -/

/-- A block is determined by the number it encodes. -/
theorem block_eq {a b : Block} (h : frombe a.toList = frombe b.toList) : a = b := by
  have ha := beBytes_frombe a.toList
  have hb := beBytes_frombe b.toList
  rw [h] at ha
  simp only [Vector.length_toList] at ha hb
  exact Vector.toList_inj.mp (ha.symm.trans hb)

theorem frombe_ctrInc (cb : Block) : frombe (ctrInc cb).toList = (frombe cb.toList + 1) % 2 ^ 128 := by
  rw [ctrInc, toList_fixed_be128, frombe_be128]

/-- The counter block `n` segments on. -/
theorem ctrInc_iterate (cb : Block) (n : Nat) :
    (ctrInc^[n]) cb = fixed 16 (be128 ((frombe cb.toList + n) % 2 ^ 128)) := by
  apply block_eq
  rw [toList_fixed_be128, frombe_be128]
  induction n with
  | zero => have := frombe_lt cb.toList; simp at this ⊢; omega
  | succ n ih => rw [Function.iterate_succ_apply', frombe_ctrInc, ih]; omega

theorem ctrSegments_snd (ks : Block → Block) (n : Nat) (cb : Block) (inp : List Byte) :
    (ctrSegments ks n cb inp).2 = (ctrInc^[n]) cb := by
  induction n generalizing cb inp with
  | zero => rfl
  | succ n ih => simp [ctrSegments, ih]

theorem length_ctrSegments (ks : Block → Block) (n : Nat) (cb : Block) (inp : List Byte) :
    (ctrSegments ks n cb inp).1.length = min (16 * n) inp.length := by
  induction n generalizing cb inp with
  | zero => simp [ctrSegments]
  | succ n ih => simp [ctrSegments, ih]; omega

theorem ctrSegments_getD (ks : Block → Block) (n : Nat) (cb : Block) (inp : List Byte) (i : Nat) (h : i < 16 * n)
    (h2 : i < inp.length) :
    (ctrSegments ks n cb inp).1.getD i 0#8 =
      inp.getD i 0#8 ^^^ (ks ((ctrInc^[i / 16]) cb)).toList.getD (i % 16) 0#8 := by
  induction n generalizing cb inp i with
  | zero => omega
  | succ n ih =>
    simp only [ctrSegments, List.getD_eq_getElem?_getD] at ih ⊢
    have hl : (xorBytes (inp.take 16) ((ks cb).toList.take (inp.take 16).length)).length = min 16 inp.length := by
      simp
    rcases Nat.lt_or_ge i 16 with h3 | h3
    · rw [List.getElem?_append_left (by omega), show i / 16 = 0 by omega, show i % 16 = i by omega]
      simp [xorBytes, h3, h2]
    · rw [List.getElem?_append_right (by omega), hl, show min 16 inp.length = 16 by omega,
        ih _ _ _ (by omega) (by simp; omega), show i / 16 = (i - 16) / 16 + 1 by omega,
        show (i - 16) % 16 = i % 16 by omega, Function.iterate_succ_apply, List.getElem?_drop]
      congr 3
      omega

/-- The keystream function byte by byte, and the counter block it leaves. -/
theorem ctrStream_eq (ks : Block → Block) (cb : Block) (inp : List Byte) :
    ctrStream ks cb inp =
      ((List.range inp.length).map fun i =>
        inp.getD i 0#8 ^^^ (ks ((ctrInc^[i / 16]) cb)).toList.getD (i % 16) 0#8,
      (ctrInc^[(inp.length + 15) / 16]) cb) := by
  apply Prod.ext
  · apply List.ext_getElem
    · simp [ctrStream, length_ctrSegments, segmentCount]; omega
    · intro i h1 h2
      have h : i < inp.length := by simpa using h2
      have := ctrSegments_getD ks (segmentCount inp.length) cb inp i (by unfold segmentCount; omega) h
      simp only [List.getElem_map, List.getElem_range]
      rw [← this, List.getD_eq_getElem?_getD, List.getElem?_eq_getElem]
      rfl
  · exact ctrSegments_snd _ _ _ _

@[simp] theorem length_ctrStream (ks : Block → Block) (cb : Block) (inp : List Byte) :
    (ctrStream ks cb inp).1.length = inp.length := by
  simp [ctrStream_eq]

/-! The key schedule (rule R82) -/

theorem foldl_appendKeyWord (nk : Nat) (w : List (List Byte)) (a k : Nat) :
    ∃ r, (List.range' a k).foldl (appendKeyWord nk) w = w ++ r := by
  induction k generalizing a w with
  | zero => exact ⟨[], by simp⟩
  | succ k ih =>
    rw [List.range'_succ, List.foldl_cons]
    obtain ⟨r, hr⟩ := ih (appendKeyWord nk w a) (a + 1)
    exact ⟨_, by rw [hr, appendKeyWord, List.append_assoc]⟩

theorem flatten_masterKeyWords {key : List Byte} {nk : Nat} (h : key.length = 4 * nk) :
    (masterKeyWords key nk).flatten = key := by
  have H : ∀ k ≤ nk, ((List.range k).map fun i => slice key (4 * i) 4).flatten = key.take (4 * k) := by
    intro k hk
    induction k with
    | zero => simp
    | succ k ih =>
      rw [List.range_succ, List.map_append, List.flatten_append, ih (by omega)]
      simp only [slice, List.map_cons, List.map_nil, List.flatten_cons, List.flatten_nil, List.append_nil]
      rw [← List.take_add]
      congr 1
  rw [masterKeyWords, H nk le_rfl, List.take_of_length_le (by omega)]

/-- The context SET_KEY leaves is well formed. -/
theorem AesContext.ofKey_wf {key : List Byte} {bits : Nat} (hb : bits = 128 ∨ bits = 192 ∨ bits = 256)
    (hk : key.length = bits / 8) : (AesContext.ofKey key bits).Wf := by
  refine ⟨fun _ => ⟨hb, rfl, rfl, ?_⟩, fun h => Bool.noConfusion h⟩
  have hs : slice (fixed 240 (keyExpand key bits).flatten).toList 0 (bits / 8) = key := by
    obtain ⟨r, hr⟩ := foldl_appendKeyWord (keyWordCount bits) (masterKeyWords key (keyWordCount bits))
      (keyWordCount bits) (4 * (roundCount bits + 1) - keyWordCount bits)
    have e : (keyExpand key bits).flatten = key ++ r.flatten := by
      rw [keyExpand, hr, List.flatten_append, flatten_masterKeyWords]
      simp only [keyWordCount]; omega
    rw [slice, List.drop_zero, e, take_fixed, ← hk, List.take_left]
    · omega
    · simp; omega
  simp only [AesContext.ofKey]
  rw [hs]

/-! The hash state (rules R115, R116) -/

theorem feedByte_wf {S : HashState} (h : S.Wf) (d : Byte) : (feedByte S d).Wf := by
  obtain ⟨hn, hb⟩ := h
  unfold feedByte
  split
  · exact ⟨by simp, fun i _ => by simp⟩
  · refine ⟨by simp; omega, fun i hi => ?_⟩
    simp only at hi ⊢
    rw [Fin.getElem_fin, Vector.getElem_setIfInBounds, if_neg (by omega)]
    exact hb i (by omega)

theorem foldl_feedByte_wf {S : HashState} (h : S.Wf) (D : List Byte) : (D.foldl feedByte S).Wf := by
  induction D generalizing S with
  | nil => exact h
  | cons d D ih => exact ih (feedByte_wf h d)

theorem shaUpdate_wf {S : HashState} (h : S.Wf) (D : List Byte) : (shaUpdate S D).Wf := foldl_feedByte_wf h D

theorem shaInit_wf : shaInit.Wf := ⟨by decide, fun i _ => by simp [shaInit]⟩

theorem feedByte_n {S : HashState} (h : S.n ≤ 127) (d : Byte) : (feedByte S d).n = (S.n + 1) % 128 := by
  unfold feedByte
  split <;> (simp only; omega)

theorem shaUpdate_n {S : HashState} (h : S.n ≤ 127) (D : List Byte) :
    (shaUpdate S D).n = (S.n + D.length) % 128 := by
  show (D.foldl feedByte S).n = _
  induction D generalizing S with
  | nil => simp; omega
  | cons d D ih =>
    have := feedByte_n h d
    rw [List.foldl_cons, ih (by omega), this, List.length_cons]
    omega

/-! Lengths (rule R135) -/

theorem length_pbkdf2Iterate (P : List Byte) (n : Nat) (U T : List Byte) (h : T.length = 64) :
    (pbkdf2Iterate P n U T).length = 64 := by
  induction n generalizing U T with
  | zero => exact h
  | succ n ih => exact ih _ _ (by simp [h])

@[simp] theorem length_pbkdf2Block (P S : List Byte) (c i : Nat) : (pbkdf2Block P S c i).length = 64 :=
  length_pbkdf2Iterate _ _ _ _ (by simp)

@[simp] theorem length_pbkdf2 (P S : List Byte) (c dkLen : Nat) : (pbkdf2 P S c dkLen).length = dkLen := by
  have H : ∀ l : List Nat, (l.flatMap fun k => pbkdf2Block P S c (k + 1)).length = 64 * l.length := by
    intro l
    induction l with
    | nil => rfl
    | cons a l ih => rw [List.flatMap_cons, List.length_append, ih, length_pbkdf2Block, List.length_cons]; omega
  simp only [pbkdf2, List.length_take, H, List.length_range, blockCount]
  omega

end Sys2Proof.Machine
end

