-- ==== Sys2Proof/Laws/PerInstr.lean ====
section
/-! SUPPORT. The per-instruction family `EncodedMatches`: the encoding of every command selects the command's own row of
the opcode map, `word & mask = match` (rule R62). -/

namespace Sys2Proof.Laws.EncodedMatches

/-- The word of the command selects its row. -/
def Statement (i : Instr) : Prop := encode i &&& i.maskWord = i.matchWord

theorem setKey (keyBits : Nat) : Statement (.setKey keyBits) := by
  simp only [Statement, encode, Instr.argument, Instr.opcode, Instr.maskWord, Instr.matchWord]
  generalize BitVec.ofNat 16 keyBits = a
  apply BitVec.eq_of_toNat_eq
  simp only [BitVec.toNat_and, BitVec.toNat_append, BitVec.toNat_ofNat]
  have h : (65535 : Nat) % 2 ^ 32 = 2 ^ 16 - 1 := by norm_num
  rw [h, Nat.and_two_pow_sub_one_eq_mod]
  simp only [Nat.shiftLeft_eq]
  have := a.isLt
  rw [← Nat.shiftLeft_eq, ← Nat.shiftLeft_eq]
  rw [← Nat.shiftLeft_add_eq_or_of_lt (by omega), ← Nat.shiftLeft_add_eq_or_of_lt (by norm_num)]
  simp only [Nat.shiftLeft_eq]
  omega

theorem encryptBlock : Statement .encryptBlock := rfl
theorem decryptBlock : Statement .decryptBlock := rfl
theorem ctrCrypt : Statement .ctrCrypt := rfl
theorem shaInit : Statement .shaInit := rfl
theorem shaUpdate : Statement .shaUpdate := rfl
theorem shaFinal : Statement .shaFinal := rfl
theorem hmac : Statement .hmac := rfl
theorem hmacInit : Statement .hmacInit := rfl
theorem hmacUpdate : Statement .hmacUpdate := rfl
theorem hmacFinal : Statement .hmacFinal := rfl
theorem pbkdf2 : Statement .pbkdf2 := rfl
theorem zeroize : Statement .zeroize := rfl

end Sys2Proof.Laws.EncodedMatches
end

