-- ==== Sys2Proof/Laws/Pipeline.lean ====
section
/-! SUPPORT. What the pipelines of the host can answer, said once: when they succeed, and what every other outcome is. -/

namespace Sys2Proof.Machine

/-- Where nothing goes wrong `encrypt` writes the container (rule R174). -/
theorem encryptFile_ok {p : Params} {x : EncryptRequest} (hp : validatePassword x.password = true)
    (hk : legalKeyBits x.keyBits = true) (hf : x.failure = none) :
    encryptFile p x =
      { error := none
        destination := .complete (containerOf p x.keyBits x.password x.nonce x.extension x.source)
        weakNonce := !x.nonceStrong
        progress := progressCalls x.callback x.source.length (2 * (chunksOf p.chunkBytes x.source).length) } := by
  simp [encryptFile, hp, hk, hf]

/-- Everything `encrypt` can answer: turned away, aborted, or the container (rules R174, R179). -/
theorem encryptFile_cases (p : Params) (x : EncryptRequest) :
    (∃ e, encryptFile p x = encryptRejected e) ∨ (∃ f, x.failure = some f ∧ encryptFile p x = encryptAborted p x f) ∨
    (validatePassword x.password = true ∧ legalKeyBits x.keyBits = true ∧ x.failure = none) := by
  unfold encryptFile
  split
  · exact .inl ⟨_, rfl⟩
  · rename_i hp
    split
    · exact .inl ⟨_, rfl⟩
    · rename_i hk
      split
      · rename_i f hf
        exact .inr (.inl ⟨f, hf, rfl⟩)
      · rename_i hf
        exact .inr (.inr ⟨by simpa using hp, by simpa using hk, hf⟩)

/-- Where the checks and the tag hold and nothing goes wrong `decrypt` commits the plaintext (rule R175). -/
theorem decryptFile_ok {p : Params} {x : DecryptRequest} {keyBits : Nat} {h : Header} {plaintext : List Byte}
    (hp : validatePassword x.password = true) (hf : x.failure = none) (hc : checkContainer x.source = .ok (keyBits, h))
    (ho : openContainer p keyBits h x.password x.source = some plaintext) :
    decryptFile p x =
      { error := none
        destination := .complete plaintext
        finalPath := some (finalPathOf x.outputPath (extensionOf h.format))
        extension := extensionOf h.format
        scratch := none
        progress := x.progressAfter (chunksOf p.chunkBytes (x.source.drop (headerBytes + tagBytes))).length } := by
  unfold decryptFile decryptOpen decryptChecked DecryptRequest.failureBy
  rw [hp, hf, hc]
  simp only [Option.filter_none, Bool.not_true, Bool.false_eq_true, if_false, ho]
  rfl

@[simp] theorem DecryptOutcome.closed_error (o : DecryptOutcome) : o.closed.error = o.error := rfl
@[simp] theorem DecryptOutcome.closed_destination (o : DecryptOutcome) : o.closed.destination = o.destination := rfl
@[simp] theorem DecryptOutcome.closed_finalPath (o : DecryptOutcome) : o.closed.finalPath = o.finalPath := rfl
@[simp] theorem DecryptOutcome.closed_extension (o : DecryptOutcome) : o.closed.extension = o.extension := rfl
@[simp] theorem DecryptOutcome.closed_progress (o : DecryptOutcome) : o.closed.progress = o.progress := rfl

/-- Whatever comes of `decrypt`, the scratch storage is gone at its end (rule R175 step 11). -/
@[simp] theorem decryptFile_scratch (p : Params) (x : DecryptRequest) : (decryptFile p x).scratch = none := rfl

/-- A failed `decrypt` is a failed one after CLOSE too, with nothing left in scratch storage. -/
theorem closed_decryptFailed (e : HostError) (scratch : Option (List Byte)) (calls : List Progress) :
    (decryptFailed e scratch calls).closed = decryptFailed e none calls := rfl

/-- Everything `decrypt` can answer: a failure with no destination file and no scratch storage, or the success of
`decryptFile_ok` (rule R175 "Outcome"). -/
theorem decryptFile_cases (p : Params) (x : DecryptRequest) :
    (∃ e calls, decryptFile p x = decryptFailed e none calls) ∨
    (validatePassword x.password = true ∧ x.failure = none ∧ ∃ keyBits h plaintext,
      checkContainer x.source = .ok (keyBits, h) ∧ openContainer p keyBits h x.password x.source = some plaintext) := by
  unfold decryptFile decryptOpen decryptChecked
  split
  · exact .inl ⟨_, _, rfl⟩
  · rename_i hp
    split
    · exact .inl ⟨_, _, rfl⟩
    · split
      · exact .inl ⟨_, _, rfl⟩
      · rename_i keyBits h hc
        simp only
        split
        · exact .inl ⟨_, _, rfl⟩
        · split
          · exact .inl ⟨_, _, rfl⟩
          · rename_i plaintext ho
            split
            · exact .inl ⟨_, _, rfl⟩
            · rename_i hf
              exact .inr ⟨by simpa using hp, hf, keyBits, h, plaintext, hc, ho⟩

end Sys2Proof.Machine
end

