-- ==== Sys2Proof/Tests/Slice0.lean ====
section
/-! SUPPORT. Tests with expected results taken from the spec (`95_test_vectors.md`, cited by id), and one witness for the
hypotheses of every statement that has any (`witness_<the statement's name>`). -/

namespace Sys2Proof.Tests

set_option Elab.async false

open Sys2Proof Sys2Proof.Machine

/-! Helpers -/

/-- A hex string of the spec: `n` bytes, leftmost first. -/
def hex (n v : Nat) : List Byte := beBytes n v

/-- The state after a step that goes on. -/
def after (r : Result) : Option State :=
  match r with
  | .next t => some t
  | .fault _ => none
  | .refused _ => none

/-- `STATUS` and `ERRINFO` after a step that goes on. -/
def report (r : Result) : Option (Nat × Nat) :=
  (after r).map fun t => ((statusWord t).toNat, (errInfoWord t).toNat)

/-- `RDM addr, n` after a step that goes on. -/
def output (r : Result) (addr n : Nat) : Option (List Byte) :=
  (after r).bind fun t =>
    match t.opmem.read addr n with
    | .ok bs => some bs
    | .error _ => none

/-- OPMEM with one byte string in it. -/
def holding (addr : Nat) (bs : List Byte) : Memory := Memory.writeBytes [] addr bs

/-- Every command, SET_KEY with its largest legal argument. -/
def commands : List Instr :=
  [.setKey 256, .encryptBlock, .decryptBlock, .ctrCrypt, .shaInit, .shaUpdate, .shaFinal, .hmac, .hmacInit,
    .hmacUpdate, .hmacFinal, .pbkdf2, .zeroize]

/-- R113: `K[t]` is the first 64 bits of the fractional part of the cube root of prime number `t`. -/
theorem test_round_constants_are_cube_roots :
    (List.zip ((List.range 410).filter fun n => 2 ≤ n ∧ ∀ d ∈ List.range' 2 19, d < n → n % d ≠ 0) roundConstants).length =
      80 ∧
    ∀ pk ∈ List.zip ((List.range 410).filter fun n => 2 ≤ n ∧ ∀ d ∈ List.range' 2 19, d < n → n % d ≠ 0) roundConstants,
      ∃ a ∈ List.range 8, (a * 2 ^ 64 + pk.2.toNat) ^ 3 ≤ pk.1 * 2 ^ 192 ∧
        pk.1 * 2 ^ 192 < (a * 2 ^ 64 + pk.2.toNat + 1) ^ 3 := by
  decide +kernel

/-- R112: `IV[i]` is the first 64 bits of the fractional part of the square root of prime number `i`. -/
theorem test_initial_hash_is_square_roots :
    ∀ pk ∈ List.zip [2, 3, 5, 7, 11, 13, 17, 19] initialHash.toList,
      ∃ a ∈ List.range 5, (a * 2 ^ 64 + pk.2.toNat) ^ 2 ≤ pk.1 * 2 ^ 128 ∧
        pk.1 * 2 ^ 128 < (a * 2 ^ 64 + pk.2.toNat + 1) ^ 2 := by
  decide +kernel

/-! Well-formedness: `ARG` has 16 bits (rule R60) -/

theorem test_wellFormed_argument_too_wide : Instr.wellFormed (.setKey 65536) = false := by decide

theorem test_wellFormed_widest_argument : Instr.wellFormed (.setKey 65535) = true := by decide

/-! Decoding: words written out bit by bit from rule R60, `ARG` then `RSV` then `OPC` (rule R62; V6.1) -/

theorem test_decode_setKey :
    decode 0b0000000010000000_00000000_00000001#32 = .ok (.setKey 128) ∧
    decode 0b1111111111111111_00000000_00000001#32 = .ok (.setKey 65535) := ⟨rfl, rfl⟩

theorem test_decode_block_commands :
    decode 0b0000000000000000_00000000_00000010#32 = .ok .encryptBlock ∧
    decode 0b0000000000000000_00000000_00000011#32 = .ok .decryptBlock ∧
    decode 0b0000000000000000_00000000_00000100#32 = .ok .ctrCrypt := ⟨rfl, rfl, rfl⟩

theorem test_decode_sha_commands :
    decode 0b0000000000000000_00000000_00010000#32 = .ok .shaInit ∧
    decode 0b0000000000000000_00000000_00010001#32 = .ok .shaUpdate ∧
    decode 0b0000000000000000_00000000_00010010#32 = .ok .shaFinal := ⟨rfl, rfl, rfl⟩

theorem test_decode_hmac_commands :
    decode 0b0000000000000000_00000000_00100000#32 = .ok .hmac ∧
    decode 0b0000000000000000_00000000_00100001#32 = .ok .hmacInit ∧
    decode 0b0000000000000000_00000000_00100010#32 = .ok .hmacUpdate ∧
    decode 0b0000000000000000_00000000_00100011#32 = .ok .hmacFinal := ⟨rfl, rfl, rfl, rfl⟩

theorem test_decode_pbkdf2_and_zeroize :
    decode 0b0000000000000000_00000000_00110000#32 = .ok .pbkdf2 ∧
    decode 0b0000000000000000_00000000_01000000#32 = .ok .zeroize := ⟨rfl, rfl⟩

theorem test_decode_illegal :
    decode 0x00000000#32 = .error .unknownOpcode ∧ decode 0x00000005#32 = .error .unknownOpcode ∧
    decode 0x000000FF#32 = .error .unknownOpcode ∧ decode 0x00010002#32 = .error .argumentNonzero ∧
    decode 0x00800101#32 = .error .reservedNonzero ∧ decode 0x00008040#32 = .error .reservedNonzero :=
  ⟨rfl, rfl, rfl, rfl, rfl, rfl⟩

theorem test_encode : encode (.setKey 192) = 0x00C00001#32 ∧ encode .hmacFinal = 0x00000023#32 := ⟨rfl, rfl⟩

theorem test_decodeTableWord :
    decodeTableWord 32 0x01000001 = some (.setKey 256) ∧ decodeTableWord 32 0x00000041 = none := ⟨rfl, rfl⟩

/-! One step of each command, from the vectors -/

/-- The key of V1.1 loaded, and one block at 0x100. -/
def withBlock (block : Nat) : State :=
  { State.reset with
    aes := AesContext.ofKey (hex 16 0x000102030405060708090a0b0c0d0e0f) 128
    opmem := holding 0x100 (hex 16 block)
    regs := { OperandRegs.zero with srcAddr := 0x100#32, dstAddr := 0x108#32 } }

/-- V1.3: round keys 1 and 10, and V1.1: `rk[176..240)` is zero. -/
theorem test_setKey_schedule :
    (after (exec (.setKey 128)
      { State.reset with opmem := holding 0 (hex 16 0x2b7e151628aed2a6abf7158809cf4f3c) })).map (fun t =>
        (slice t.aes.rk.toList 16 16, slice t.aes.rk.toList 160 16, slice t.aes.rk.toList 176 64)) =
      some (hex 16 0xa0fafe1788542cb123a339392a6c7605, hex 16 0xd014f9a8c9ee2589e13f0cc8b6630ca6, zeros 64) := by
  decide +kernel

/-- V1.9: `SET_KEY 129`. -/
theorem test_setKey_bad_length :
    report (exec (.setKey 129) { State.reset with latch := 0x00810001#32 }) = some (0x0000000E, 0x00010001) := by
  decide +kernel

/-- V1.1, the output overlapping the input. -/
theorem test_encryptBlock :
    output (exec .encryptBlock (withBlock 0x00112233445566778899aabbccddeeff)) 0x108 16 =
      some (hex 16 0x69c4e0d86a7b0430d8cdb78070b4c55a) := by
  decide +kernel

/-- V1.9: no key yet. -/
theorem test_encryptBlock_no_key :
    report (exec .encryptBlock { State.reset with latch := 0x00000002#32 }) = some (0x0000000E, 0x00020106) := by
  decide +kernel

/-- V1.1. -/
theorem test_decryptBlock :
    output (exec .decryptBlock (withBlock 0x69c4e0d86a7b0430d8cdb78070b4c55a)) 0x108 16 =
      some (hex 16 0x00112233445566778899aabbccddeeff) := by
  decide +kernel

/-- V2.1, the counter block right behind the data. -/
def withStream : State :=
  { State.reset with
    latch := 0x00000004#32
    flags := { State.reset.flags with esticky := true }
    aes := AesContext.ofKey (hex 16 0x2b7e151628aed2a6abf7158809cf4f3c) 128
    opmem := holding 0x100
      (hex 16 0x6bc1bee22e409f96e93d7e117393172a ++ hex 16 0xf0f1f2f3f4f5f6f7f8f9fafbfcfdfeff)
    regs :=
      { OperandRegs.zero with srcAddr := 0x100#32, srcLen := 0x10#32, dstAddr := 0x200#32, ctrAddr := 0x110#32 } }

theorem test_ctrCrypt :
    output (exec .ctrCrypt withStream) 0x200 16 = some (hex 16 0x874d6191b620e3261bef6864990db6ce) ∧
    output (exec .ctrCrypt withStream) 0x110 16 = some (hex 16 0xf0f1f2f3f4f5f6f7f8f9fafbfcfdff00) := by
  decide +kernel

/-- V2.10: a counter block one byte past the end. -/
theorem test_ctrCrypt_bad_range :
    report (exec .ctrCrypt { withStream with regs := { withStream.regs with ctrAddr := 0xFFF1#32 } }) =
      some (0x0000001E, 0x00040406) := by
  decide +kernel

/-- V2.8, rows 3, 5 and 7. -/
theorem test_ctrInc :
    ctrInc (fixed 16 (hex 16 0xffff)) = fixed 16 (hex 16 0x10000) ∧
    ctrInc (fixed 16 (hex 16 0x0001020304050607ffffffffffffffff)) =
      fixed 16 (hex 16 0x00010203040506080000000000000000) ∧
    ctrInc (fixed 16 (rep 0xff#8 16)) = fixed 16 (zeros 16) := by
  decide +kernel

/-- V3.1: `STATUS` after `SHA_INIT`; the initial words (rule R113). -/
theorem test_shaInit :
    report (exec .shaInit State.reset) = some (0x00000022, 0) ∧
    (after (exec .shaInit State.reset)).map (·.sha.hash.h[0]) = some 0x6a09e667f3bcc908#64 := by
  decide +kernel

/-- The message `abc` of V3.1 to be hashed. -/
def withMessage : State :=
  { State.reset with
    sha := { hash := shaInit, st := .active }
    opmem := holding 0x100 (hex 3 0x616263)
    regs := { OperandRegs.zero with srcAddr := 0x100#32, srcLen := 3#32, dstAddr := 0x200#32 } }

/-- V3.1: the state after SHA_UPDATE. -/
theorem test_shaUpdate :
    (after (exec .shaUpdate withMessage)).map (fun t =>
      (t.sha.hash.n, slice t.sha.hash.buf.toList 0 4, t.sha.hash.lenLo.toNat, t.sha.hash.h == initialHash)) =
      some (3, hex 4 0x61626300, 24, true) := by
  decide +kernel

/-- V3.10: an update of a context that is IDLE. -/
theorem test_shaUpdate_no_hash :
    report (exec .shaUpdate { withMessage with sha := ShaContext.cleared, latch := 0x00000011#32 }) =
      some (0x0000000E, 0x00110206) := by
  decide +kernel

/-- V3.1: the digest of `abc`. -/
theorem test_shaFinal :
    output (exec .shaFinal { withMessage with sha := { hash := shaUpdate shaInit (hex 3 0x616263), st := .active } })
      0x200 64 =
      some (hex 64 0xddaf35a193617abacc417349ae20413112e6fa4e89a97ea20a9eeee64b55d39a2192992a274fc1a836ba3c23a3feebbd454d4423643ce80e2a9ac94fa54ca49f) := by
  decide +kernel

/-- V3.10: a digest that ends one byte past the end; the context stays ACTIVE. -/
theorem test_shaFinal_bad_range :
    report (exec .shaFinal
      { withMessage with latch := 0x00000012#32, regs := { withMessage.regs with dstAddr := 0xFFC1#32 } }) =
      some (0x0000002E, 0x00120406) := by
  decide +kernel

/-- V3.9: the carry of the bit count. -/
theorem test_length_carry :
    (shaUpdate { shaInit with lenLo := 0xFFFFFFFFFFFFFFF8#64 } [0x00#8, 0x00#8]).lenLo = 8#64 ∧
    (shaUpdate { shaInit with lenLo := 0xFFFFFFFFFFFFFFF8#64 } [0x00#8, 0x00#8]).lenHi = 1#64 := by
  decide +kernel

/-- The key and the data of V4.1. -/
def withMacKey : State :=
  { State.reset with
    opmem := holding 0x100 (rep 0x0b#8 20 ++ hex 8 0x4869205468657265)
    regs :=
      { OperandRegs.zero with
        keyAddr := 0x100#32, keyLen := 20#32, srcAddr := 0x114#32, srcLen := 8#32, dstAddr := 0x200#32 } }

/-- The tag of V4.1. -/
def tagS4 : List Byte :=
  hex 64 0x87aa7cdea5ef619d4ff0b4241a1d6cb02379f4e2ce4ec2787ad0b30545e17cdedaa833b7d6b8a702038b274eaea3f4e4be9d914eeb61f1702e696c203a126854

theorem test_hmac : output (exec .hmac withMacKey) 0x200 64 = some tagS4 := by decide +kernel

theorem test_hmac_report : report (exec .hmac withMacKey) = some (0x00000102, 0) := by decide +kernel

/-- P4: both instances have absorbed exactly one block. -/
theorem test_hmacInit :
    (after (exec .hmacInit withMacKey)).map (fun t =>
      (t.hm.inner.n, t.hm.inner.lenLo.toNat, t.hm.outer.n, t.hm.outer.lenLo.toNat)) = some (0, 1024, 0, 1024) := by
  decide +kernel

/-- The streamed HMAC of P4 after HMAC_INIT. -/
def withMacStream : State :=
  { withMacKey with
    hm := { inner := (hmacInit (rep 0x0b#8 20)).1, outer := (hmacInit (rep 0x0b#8 20)).2, st := .active } }

/-- P4, the data in one piece: 8 bytes more in the inner instance, none in the outer one. -/
theorem test_hmacUpdate :
    (after (exec .hmacUpdate withMacStream)).map (fun t =>
      (t.hm.inner.n, t.hm.inner.lenLo.toNat, t.hm.outer.n)) = some (8, 1088, 0) := by
  decide +kernel

/-- Rules R129 and R152: HMAC_UPDATE of a context that is not ACTIVE. -/
theorem test_hmacUpdate_no_hmac :
    report (exec .hmacUpdate { withMacKey with latch := 0x00000022#32 }) = some (0x0000000E, 0x00220306) := by
  decide +kernel

/-- P4: the tag. -/
theorem test_hmacFinal :
    output (exec .hmacFinal
      { withMacStream with
        hm := { withMacStream.hm with inner := shaUpdate withMacStream.hm.inner (hex 8 0x4869205468657265) } })
      0x200 64 = some tagS4 := by
  decide +kernel

/-- V5.1: the password and the salt. -/
def withPassword : State :=
  { State.reset with
    latch := 0x00000030#32
    opmem := holding 0x100 (hex 8 0x70617373776f7264 ++ hex 4 0x73616c74)
    regs :=
      { OperandRegs.zero with
        keyAddr := 0x100#32, keyLen := 8#32, srcAddr := 0x108#32, srcLen := 4#32, iter := 1#32
        dstAddr := 0x200#32, dstLen := 0x40#32 } }

theorem test_pbkdf2 :
    output (exec .pbkdf2 withPassword) 0x200 64 =
      some (hex 64 0x867f70cf1ade02cff3752599a3a53dc4af34c7a669815ae5d513554e1c8cf252c02d470a285a0501bad999bfe943c08f050235d7d68b1da55e63f73b60a57fce) := by
  decide +kernel

/-- V6.1: `ITER = 0`. -/
theorem test_pbkdf2_no_iterations :
    report (exec .pbkdf2 { withPassword with regs := { withPassword.regs with iter := 0#32 } }) =
      some (0x0000000E, 0x00300008) := by
  decide +kernel

/-- A machine with 256 bytes of OPMEM. -/
def smallParams : Params := { opmemBytes := 256, coreBase := 0x4000, macKeyOffset := 32, chunkBytes := 16, reservedBytes := 194 }

/-- V6.2: ZEROIZE clears OPMEM to its last byte and the operand registers, and keeps `ESTICKY`. -/
theorem test_zeroize :
    let s := { withStream with params := smallParams }
    report (exec .zeroize s) = some (0x0000000A, 0) ∧ output (exec .zeroize s) 0xF0 16 = some (zeros 16) ∧
    (after (exec .zeroize s)).map (·.regs) = some OperandRegs.zero := by
  decide +kernel

/-! The step -/

/-- V6.1: the illegal word 0x00800101, run as the first command after reset. -/
theorem test_step_illegal_word :
    report (step (State.reset.withFetchWord 32 0x00800101)) = some (0x0000000E, 0x00010007) := by decide +kernel

/-- V6.1: SHA_INIT, run as the first command after reset. -/
theorem test_step_shaInit : report (step (State.reset.withFetchWord 32 0x00000010)) = some (0x00000022, 0) := by
  decide +kernel

/-- V6.3: `WR STATUS, 0xFFFFFFF7` changes nothing, `WR STATUS, 0xFFFFFFFF` clears `ESTICKY` alone. -/
theorem test_status_write :
    (statusWord (registerWrite 0x04 0xFFFFFFF7#32 (raise .noKey State.reset))).toNat = 0x0000000E ∧
    (statusWord (registerWrite 0x04 0xFFFFFFFF#32 (raise .noKey State.reset))).toNat = 0x00000006 := by
  decide

/-- A bus write of four bytes is one register write, its lowest byte least significant (rule R45). -/
theorem test_bus_register_write :
    (after (step
      { State.reset with params := smallParams, turns := [.bus (.write 0x4018 (hex 4 0x78563412))] })).map (·.turns) =
      some [.host (.regWrite 0x18 0x12345678#32)] := by
  decide +kernel

/-! Witnesses. Three states with the same registers' role: `fitted`, whose every operand ends exactly at the end of OPMEM;
`past`, whose every operand ends one byte later; `cold`, with no key, no hash, no HMAC and `ITER = 0`. -/

theorem read_zeroed (size addr n : Nat) (h : addr + n ≤ size) :
    (Memory.zeroed size).read addr n = .ok (zeros n) := by
  rw [read_ok_iff]
  refine ⟨by simp, fun k hk => ?_⟩
  rw [byteAt_zeroed, if_pos (by omega)]
  simp [zeros, hk]

/-- The HMAC context after HMAC_INIT with the empty key. -/
def macStarted : HmacContext := { inner := (hmacInit []).1, outer := (hmacInit []).2, st := .active }

def fitted : State :=
  { State.reset with
    params := smallParams
    regs :=
      { keyAddr := 224#32, keyLen := 32#32, srcAddr := 240#32, srcLen := 16#32, dstAddr := 192#32, dstLen := 64#32
        ctrAddr := 240#32, iter := 1#32 }
    opmem := Memory.zeroed 256
    aes := AesContext.ofKey (zeros 16) 128
    sha := { hash := shaInit, st := .active }
    hm := macStarted }

def past : State :=
  { fitted with
    regs :=
      { keyAddr := 225#32, keyLen := 32#32, srcAddr := 241#32, srcLen := 16#32, dstAddr := 193#32, dstLen := 64#32
        ctrAddr := 241#32, iter := 1#32 } }

def cold : State := { State.reset with params := smallParams, opmem := Memory.zeroed 256 }

/-- `s` with the command in flight and these turns to come. -/
def inFlight (i : Instr) (ts : List Turn) (s : State) : State := { issue (encode i) s with turns := ts }

theorem fitted_inv : fitted.Inv := by
  refine ⟨wf_zeroed 256, AesContext.ofKey_wf (.inl rfl) (by simp), ?_, ?_, ?_, ?_⟩
  · exact ⟨fun _ => shaInit_wf, fun h => absurd rfl h⟩
  · refine ⟨fun _ => ⟨shaUpdate_wf shaInit_wf _, shaUpdate_wf shaInit_wf _, ?_⟩, fun h => absurd rfl h⟩
    exact (shaUpdate_n (by decide) _).trans (by rw [length_paddedKey]; rfl)
  · exact ⟨fun h => Bool.noConfusion h, fun _ => rfl⟩
  · exact fun h => Bool.noConfusion h

theorem inFlight_inv (i : Instr) (ts : List Turn) {s : State} (h : s.Inv) : (inFlight i ts s).Inv :=
  ⟨h.opmem, h.aes, h.sha, h.hm, ⟨fun h => Bool.noConfusion h, fun _ => rfl⟩, fun _ => ⟨rfl, rfl⟩⟩

/-- Whether the step goes on without an error. -/
def completes (r : Result) : Bool := (after r).map (·.flags.err) == some false

/-- Whether the step goes on with an error. -/
def fails (r : Result) : Bool := (after r).map (·.flags.err) == some true

theorem after_next {r : Result} {t : State} (h : after r = some t) : r = .next t := by
  cases r with
  | next s => cases h; rfl
  | fault f => cases h
  | refused f => cases h

theorem next_of_completes {r : Result} (h : completes r = true) : ∃ t, r = .next t ∧ t.flags.err = false := by
  cases r with
  | next s => exact ⟨s, rfl, by simpa [completes, after] using h⟩
  | fault f => cases h
  | refused f => cases h

theorem next_of_fails {r : Result} (h : fails r = true) : ∃ t, r = .next t ∧ t.flags.err = true := by
  cases r with
  | next s => exact ⟨s, rfl, by simpa [fails, after] using h⟩
  | fault f => cases h
  | refused f => cases h

theorem ne_ok_of_error {c : Word} {e : DecodeError} (h : decode c = .error e) : ∀ i, decode c ≠ .ok i := by
  intro i hi
  rw [h] at hi
  cases hi

/-! Encoding and the step -/

/-- One illegal word of each kind of rule R63, and an idle machine whose host writes it. -/
theorem witness_IllegalWordsFail :
    (∀ i, decode 0x00000101#32 ≠ .ok i) ∧ (∀ i, decode 0x00010002#32 ≠ .ok i) ∧ (∀ i, decode 0x00000041#32 ≠ .ok i) ∧
    cold.flags.busy = false ∧
    { cold with turns := [.host (.regWrite 0x00 0x00000041#32), .core] }.turns =
      .host (.regWrite 0x00 0x00000041#32) :: .core :: [] :=
  ⟨ne_ok_of_error (e := .reservedNonzero) rfl, ne_ok_of_error (e := .argumentNonzero) rfl,
    ne_ok_of_error (e := .unknownOpcode) rfl, rfl, rfl⟩

theorem witness_EncodeThenDecode :
    (Instr.setKey 65535).wellFormed = true ∧ ∀ i ∈ commands, i.wellFormed = true := by decide

theorem witness_DecodeThenEncode : decode 0xFFFF0001#32 = .ok (.setKey 65535) := rfl

theorem witness_StepRunsLatchedCommand :
    (∀ i ∈ commands, (inFlight i [.core] fitted).flags.busy = true ∧ decode (inFlight i [.core] fitted).latch = .ok i ∧
      (inFlight i [.core] fitted).turns = .core :: [] ∧ (inFlight i [] fitted).turns = []) ∧
    cold.flags.busy = false ∧ { cold with turns := [.core] }.turns = .core :: [] ∧ cold.turns = [] := by
  refine ⟨fun i hi => ⟨rfl, ?_, rfl, rfl⟩, rfl, rfl, rfl⟩
  show decode (encode i) = .ok i
  revert i
  decide

theorem witness_CommandWriteIssues :
    let s := { cold with turns := [.host (.regWrite 0x00 (encode .shaInit)), .core] }
    cold.flags.busy = false ∧ s.turns = .host (.regWrite 0x00 (encode .shaInit)) :: .core :: [] ∧
    decode (encode .shaInit) = .ok .shaInit ∧ (∃ t, Host.Core.run Sys2Proof.core 1 s = .next t) ∧
    { cold with turns := [.host (.regRead 0x00)] }.turns = .host (.regRead 0x00) :: [] ∧
    (inFlight .zeroize [.host (.regWrite 0x00 (encode .shaInit))] cold).flags.busy = true :=
  ⟨rfl, rfl, rfl, ⟨_, rfl⟩, rfl, rfl⟩

theorem witness_BusyHazard :
    let s := inFlight .zeroize [.host (.regRead 0x04)] fitted
    s.flags.busy = true ∧ s.flags.done = false ∧ s.flags.err = false ∧ s.turns = .host (.regRead 0x04) :: [] ∧
    (∀ a ∈ [Access.regRead 0x00, .regRead 0x08, .regWrite 0x04 8#32, .memReadByte 0, .memWriteByte 0 0#8],
      a ≠ .regRead 0x04 ∧ (inFlight .zeroize [.host a] fitted).turns = .host a :: []) := by
  refine ⟨rfl, rfl, rfl, rfl, fun a ha => ⟨?_, rfl⟩⟩
  revert a
  decide

/-- Also for `ResetMeetsInvariant`. -/
theorem witness_ResetEvent :
    { fitted with turns := [.reset] }.turns = .reset :: [] ∧ (inFlight .zeroize [.reset] fitted).turns = .reset :: [] ∧
    fitted.params.Legal ∧ Params.default.Legal := by
  decide +kernel

theorem witness_StepKeepsInvariant :
    (∀ i ∈ commands, (inFlight i [] fitted).Inv ∧ ∃ t, step (inFlight i [] fitted) = .next t) ∧
    { fitted with turns := [.reset] }.Inv := by
  have h : ∀ i ∈ commands, completes (step (inFlight i [] fitted)) = true := by decide +kernel
  refine ⟨fun i hi => ⟨inFlight_inv i [] fitted_inv, ?_⟩, ?_⟩
  · obtain ⟨t, ht, -⟩ := next_of_completes (h i hi)
    exact ⟨t, ht⟩
  · exact ⟨fitted_inv.opmem, fitted_inv.aes, fitted_inv.sha, fitted_inv.hm, fitted_inv.errors, fitted_inv.busy⟩

/-- Where a run from reset stands after `k` steps. -/
def runs (k : Nat) (ts : List Turn) : Result := Host.Core.run Sys2Proof.core k (State.start smallParams ts)

/-- ZEROIZE, SET_KEY 128, HMAC_INIT, each followed by a read of `STATUS`. -/
def keyedRun : List Turn := command .zeroize ++ command (.setKey 128) ++ command .hmacInit

/-- A run to a state that is not busy, with a key and an ACTIVE HMAC context; a run to a state with `ERR = 1`, whose last
step set it. -/
theorem witness_ReachableInvariants :
    (after (runs 9 keyedRun)).map (fun t => (t.flags.busy, t.aes.valid, t.hm.st)) = some (false, true, .active) ∧
    (after (runs 1 (command (.setKey 129)))).map (·.flags.err) = some false ∧
    (after (runs 2 (command (.setKey 129)))).map (fun t => (t.flags.busy, t.flags.err)) = some (false, true) := by
  decide +kernel

/-! The thirteen commands: for every clause a state that meets its conditions, at the last value of the range on either
side. -/

theorem fitted_reads :
    fitted.opmem.read fitted.regs.keyAddr.toNat 32 = .ok (zeros 32) ∧
    fitted.opmem.read fitted.regs.srcAddr.toNat 16 = .ok (zeros 16) ∧
    fitted.opmem.read fitted.regs.ctrAddr.toNat 16 = .ok (zeros 16) :=
  ⟨read_zeroed 256 224 32 (by decide), read_zeroed 256 240 16 (by decide), read_zeroed 256 240 16 (by decide)⟩

theorem witness_SetKeyRule :
    ¬(129 = 128 ∨ 129 = 192 ∨ 129 = 256) ∧
    past.params.opmemBytes < past.regs.keyAddr.toNat + 256 / 8 ∧
    fitted.regs.keyAddr.toNat + 256 / 8 ≤ fitted.params.opmemBytes ∧
    ∃ key, fitted.opmem.read fitted.regs.keyAddr.toNat (256 / 8) = .ok key :=
  ⟨by decide, by decide, by decide, _, fitted_reads.1⟩

theorem witness_block_commands :
    cold.aes.valid = false ∧ past.aes.valid = true ∧ fitted.aes.valid = true ∧
    past.params.opmemBytes < past.regs.srcAddr.toNat + 16 ∧
    fitted.regs.srcAddr.toNat + 16 ≤ fitted.params.opmemBytes ∧
    fitted.regs.dstAddr.toNat + 16 ≤ fitted.params.opmemBytes ∧
    ∃ b, fitted.opmem.read fitted.regs.srcAddr.toNat 16 = .ok b :=
  ⟨rfl, rfl, rfl, by decide, by decide, by decide, _, fitted_reads.2.1⟩

/-- For `EncryptBlockRule` and `DecryptBlockRule`: an output that ends at the end of OPMEM, and one byte later. -/
theorem witness_block_output :
    let ends := { fitted with regs := { fitted.regs with dstAddr := 240#32 } }
    let after := { fitted with regs := { fitted.regs with dstAddr := 241#32 } }
    ends.aes.valid = true ∧ ends.regs.srcAddr.toNat + 16 ≤ ends.params.opmemBytes ∧
    ends.regs.dstAddr.toNat + 16 = ends.params.opmemBytes ∧
    after.aes.valid = true ∧ after.params.opmemBytes < after.regs.dstAddr.toNat + 16 :=
  ⟨rfl, by decide, by decide, rfl, by decide⟩

theorem witness_EncryptBlockRule :
    fails (exec .encryptBlock cold) = true ∧ fails (exec .encryptBlock past) = true ∧
    completes (exec .encryptBlock fitted) = true := by
  decide +kernel

theorem witness_DecryptBlockRule :
    fails (exec .decryptBlock cold) = true ∧ fails (exec .decryptBlock past) = true ∧
    completes (exec .decryptBlock fitted) = true := by
  decide +kernel

theorem witness_CtrCryptRule :
    cold.aes.valid = false ∧ past.aes.valid = true ∧ fitted.aes.valid = true ∧
    past.params.opmemBytes < past.regs.ctrAddr.toNat + 16 ∧
    fitted.regs.srcAddr.toNat + fitted.regs.srcLen.toNat ≤ fitted.params.opmemBytes ∧
    fitted.regs.dstAddr.toNat + fitted.regs.srcLen.toNat ≤ fitted.params.opmemBytes ∧
    fitted.regs.ctrAddr.toNat + 16 ≤ fitted.params.opmemBytes ∧
    (∃ inp, fitted.opmem.read fitted.regs.srcAddr.toNat fitted.regs.srcLen.toNat = .ok inp) ∧
    (∃ cb, fitted.opmem.read fitted.regs.ctrAddr.toNat 16 = .ok cb) :=
  ⟨rfl, rfl, rfl, by decide, by decide, by decide, by decide, ⟨_, fitted_reads.2.1⟩, ⟨_, fitted_reads.2.2⟩⟩

/-- `fitted` with another `SRC_LEN`. -/
def fittedLength (L : Word) : State := { fitted with regs := { fitted.regs with srcLen := L } }

/-- CTR_CRYPT of no byte, of a short segment, and of a whole one. -/
theorem witness_CtrCryptRule_lengths :
    completes (exec .ctrCrypt (fittedLength 0#32)) = true ∧ completes (exec .ctrCrypt (fittedLength 1#32)) = true ∧
    completes (exec .ctrCrypt (fittedLength 16#32)) = true := by
  decide +kernel

theorem witness_ShaUpdateRule :
    cold.sha.st ≠ .active ∧ past.sha.st = .active ∧ fitted.sha.st = .active ∧
    past.params.opmemBytes < past.regs.srcAddr.toNat + past.regs.srcLen.toNat ∧
    fitted.regs.srcAddr.toNat + fitted.regs.srcLen.toNat ≤ fitted.params.opmemBytes ∧
    ∃ d, fitted.opmem.read fitted.regs.srcAddr.toNat fitted.regs.srcLen.toNat = .ok d :=
  ⟨by decide, rfl, rfl, by decide, by decide, _, fitted_reads.2.1⟩

theorem witness_ShaFinalRule :
    cold.sha.st ≠ .active ∧ past.sha.st = .active ∧ fitted.sha.st = .active ∧
    past.params.opmemBytes < past.regs.dstAddr.toNat + 64 ∧
    fitted.regs.dstAddr.toNat + 64 ≤ fitted.params.opmemBytes :=
  ⟨by decide, rfl, rfl, by decide, by decide⟩

theorem witness_HmacRule :
    past.params.opmemBytes < past.regs.keyAddr.toNat + past.regs.keyLen.toNat ∧
    fitted.regs.keyAddr.toNat + fitted.regs.keyLen.toNat ≤ fitted.params.opmemBytes ∧
    fitted.regs.srcAddr.toNat + fitted.regs.srcLen.toNat ≤ fitted.params.opmemBytes ∧
    fitted.regs.dstAddr.toNat + 64 ≤ fitted.params.opmemBytes ∧
    (∃ key, fitted.opmem.read fitted.regs.keyAddr.toNat fitted.regs.keyLen.toNat = .ok key) ∧
    ∃ data, fitted.opmem.read fitted.regs.srcAddr.toNat fitted.regs.srcLen.toNat = .ok data :=
  ⟨by decide, by decide, by decide, by decide, ⟨_, fitted_reads.1⟩, ⟨_, fitted_reads.2.1⟩⟩

theorem witness_HmacInitRule :
    past.params.opmemBytes < past.regs.keyAddr.toNat + past.regs.keyLen.toNat ∧
    fitted.regs.keyAddr.toNat + fitted.regs.keyLen.toNat ≤ fitted.params.opmemBytes ∧
    ∃ key, fitted.opmem.read fitted.regs.keyAddr.toNat fitted.regs.keyLen.toNat = .ok key :=
  ⟨by decide, by decide, _, fitted_reads.1⟩

theorem witness_HmacUpdateRule :
    cold.hm.st ≠ .active ∧ past.hm.st = .active ∧ fitted.hm.st = .active ∧
    past.params.opmemBytes < past.regs.srcAddr.toNat + past.regs.srcLen.toNat ∧
    fitted.regs.srcAddr.toNat + fitted.regs.srcLen.toNat ≤ fitted.params.opmemBytes ∧
    ∃ d, fitted.opmem.read fitted.regs.srcAddr.toNat fitted.regs.srcLen.toNat = .ok d :=
  ⟨by decide, rfl, rfl, by decide, by decide, _, fitted_reads.2.1⟩

theorem witness_HmacFinalRule :
    cold.hm.st ≠ .active ∧ past.hm.st = .active ∧ fitted.hm.st = .active ∧
    past.params.opmemBytes < past.regs.dstAddr.toNat + 64 ∧
    fitted.regs.dstAddr.toNat + 64 ≤ fitted.params.opmemBytes :=
  ⟨by decide, rfl, rfl, by decide, by decide⟩

theorem witness_Pbkdf2Rule :
    cold.regs.iter = 0#32 ∧ past.regs.iter ≠ 0#32 ∧ fitted.regs.iter ≠ 0#32 ∧
    past.params.opmemBytes < past.regs.dstAddr.toNat + past.regs.dstLen.toNat ∧
    fitted.regs.keyAddr.toNat + fitted.regs.keyLen.toNat ≤ fitted.params.opmemBytes ∧
    fitted.regs.srcAddr.toNat + fitted.regs.srcLen.toNat ≤ fitted.params.opmemBytes ∧
    fitted.regs.dstAddr.toNat + fitted.regs.dstLen.toNat ≤ fitted.params.opmemBytes ∧
    (∃ P, fitted.opmem.read fitted.regs.keyAddr.toNat fitted.regs.keyLen.toNat = .ok P) ∧
    ∃ S, fitted.opmem.read fitted.regs.srcAddr.toNat fitted.regs.srcLen.toNat = .ok S :=
  ⟨rfl, by decide, by decide, by decide, by decide, by decide, by decide, ⟨_, fitted_reads.1⟩, ⟨_, fitted_reads.2.1⟩⟩

theorem witness_ZeroizeRule :
    255 < fitted.params.opmemBytes ∧ 256 ≥ fitted.params.opmemBytes := by decide

/-! Rules about every command -/

theorem fitted_completes : ∀ i ∈ commands, completes (exec i fitted) = true := by decide +kernel

/-- Every command answers a next state, from `fitted` without and from `cold` or `past` with an error where it has one. -/
theorem witness_ExecStateFrame :
    (∀ i ∈ commands, ∃ t, exec i fitted = .next t) ∧
    ∀ i ∈ commands, errorsOf i ≠ [] → ∃ t, exec i past = .next t ∧ t.flags.err = true := by
  have h : ∀ i ∈ commands, errorsOf i ≠ [] → fails (exec i past) = true := by decide +kernel
  refine ⟨fun i hi => ?_, fun i hi he => next_of_fails (h i hi he)⟩
  obtain ⟨t, ht, -⟩ := next_of_completes (fitted_completes i hi)
  exact ⟨t, ht⟩

/-- The byte before the outputs of `fitted`, and the byte after them in a state where they do not reach the end. -/
theorem witness_ExecMemoryFrame :
    (∀ i ∈ commands, (∃ t, exec i fitted = .next t) ∧
      ∀ o ∈ outputOperands i fitted, 191 < o.addr ∨ o.addr + o.len ≤ 191) ∧
    (let s := { fitted with regs := { fitted.regs with dstAddr := 0#32 } };
      completes (exec .hmacFinal s) = true ∧ ∀ o ∈ outputOperands .hmacFinal s, 64 < o.addr ∨ o.addr + o.len ≤ 64) ∧
    256 ≥ fitted.params.opmemBytes := by
  have h : ∀ i ∈ commands, ∀ o ∈ outputOperands i fitted, 191 < o.addr ∨ o.addr + o.len ≤ 191 := by decide +kernel
  exact ⟨fun i hi => ⟨witness_ExecStateFrame.1 i hi, h i hi⟩, by decide +kernel, by decide⟩

theorem witness_Completion :
    (∀ i ∈ commands, (inFlight i [] fitted).flags.busy = true ∧ (inFlight i [] fitted).turns = [] ∧
      completes (step (inFlight i [] fitted)) = true) ∧
    (inFlight .ctrCrypt [.core] past).turns.head? = some .core ∧
    fails (step (inFlight .ctrCrypt [.core] past)) = true := by
  refine ⟨?_, rfl, by decide +kernel⟩
  have h : ∀ i ∈ commands, completes (step (inFlight i [] fitted)) = true := by decide +kernel
  exact fun i hi => ⟨rfl, rfl, h i hi⟩

theorem witness_FirstErrorReported :
    (let s := { issue 0x00FF0011#32 cold with turns := [.core] };
      s.flags.busy = true ∧ s.turns.head? = some .core ∧ decode s.latch = .error .argumentNonzero) ∧
    parameterError (.setKey 129) past = some (1#8, 0#8) ∧ parameterError .pbkdf2 cold = some (8#8, 0#8) ∧
    (∀ e ∈ [(Instr.ctrCrypt, (6#8, 1#8)), (.shaFinal, (6#8, 2#8)), (.hmacFinal, (6#8, 3#8))],
      parameterError e.1 cold = none ∧ contextError e.1 cold = some e.2) ∧
    (∀ i ∈ commands, errorsOf i ≠ [] →
      parameterError i past = none ∧ contextError i past = none ∧ rangeError i past = some (6#8, 4#8)) ∧
    (∀ i ∈ commands, parameterError i fitted = none ∧ contextError i fitted = none ∧ rangeError i fitted = none ∧
      completes (exec i fitted) = true) := by
  refine ⟨⟨rfl, rfl, rfl⟩, ?_⟩
  decide +kernel

theorem fitted_inputs_written : ∀ i ∈ commands, InputsWritten i fitted := by
  intro i hi o ho k hk
  have h : ∀ i ∈ commands, ∀ o ∈ inputOperands i fitted, o.addr + o.len ≤ 256 := by decide +kernel
  have := h i hi o ho
  show ((Memory.zeroed 256).byteAt (o.addr + k)).isSome
  rw [byteAt_zeroed, if_pos (by omega)]
  rfl

theorem witness_CommandsComplete : ∀ i ∈ commands, InputsWritten i fitted := fitted_inputs_written

/-- The last byte of the counter block has not been written. -/
def shortMemory : State := { fitted with opmem := Memory.zeroed 255 }

theorem witness_UnwrittenInputRefused :
    expectedError .ctrCrypt shortMemory = none ∧ ¬InputsWritten .ctrCrypt shortMemory ∧
    (∃ t, exec .zeroize fitted = .next t) ∧ 255 < fitted.params.opmemBytes := by
  refine ⟨by decide +kernel, fun h => ?_, ⟨_, rfl⟩, by decide⟩
  have hb : shortMemory.opmem.byteAt 255 = none := by decide +kernel
  have := h (ctrOperand shortMemory) (.tail _ (.head _)) 15 (by decide)
  rw [show (ctrOperand shortMemory).addr + 15 = 255 from rfl, hb] at this
  cases this

/-- A command that completes and one that is refused, each with another value in a register it does not name. -/
theorem witness_OnlyNamedRegistersMatter :
    let r := { fitted.regs with iter := 7#32, dstLen := 0#32 }
    (∀ name ∈ registersRead .ctrCrypt, r.get name = fitted.regs.get name) ∧
    (∃ t, exec .ctrCrypt fitted = .next t) ∧
    exec .ctrCrypt { fitted with opmem := [] } = .refused (.unwrittenByte 240) :=
  ⟨by decide, by
    obtain ⟨t, ht, -⟩ := next_of_completes (fitted_completes .ctrCrypt (by decide))
    exact ⟨t, ht⟩, rfl⟩

theorem witness_FlagsDoNotMatter :
    (∃ t, exec .ctrCrypt fitted = .next t) ∧
    exec .ctrCrypt { fitted with opmem := [] } = .refused (.unwrittenByte 240) ∧
    fitted.flags.busy = false ∧
    { fitted with turns := [.host (.regWrite 0x04 0x00000008#32)] }.turns =
      .host (.regWrite 0x04 0x00000008#32) :: [] :=
  ⟨witness_OnlyNamedRegistersMatter.2.1, rfl, rfl, rfl⟩

/-- For every part of the state a command or a host access that changes it. -/
theorem witness_StepOwnership :
    (after (step (inFlight (.setKey 256) [] cold))).map (·.aes.valid) = some true ∧ cold.aes.valid = false ∧
    (after (step (inFlight .shaInit [] cold))).map (·.sha.st) = some .active ∧ cold.sha.st = .idle ∧
    (after (step (inFlight .hmac [] cold))).map (·.hm.st) = some .consumed ∧ cold.hm.st = .idle ∧
    (after (step { cold with turns := [.host (.regWrite 0x2C 1#32)] })).map (·.regs.iter) = some 1#32 ∧
    cold.regs.iter = 0#32 ∧
    (after (step { cold with turns := [.host (.memWriteByte 255 1#8)] })).map (·.opmem.byteAt 255) =
      some (some 1#8) ∧
    cold.opmem.byteAt 255 = some 0#8 ∧
    (after (step { cold with turns := [.host (.regWrite 0x00 0x40#32)] })).map (·.latch) = some 0x40#32 ∧
    cold.latch = 0#32 ∧
    (after (step (inFlight .zeroize [] cold))).map (·.latch) = some 0#32 ∧
    (inFlight .zeroize [] cold).latch = 0x40#32 := by
  decide +kernel

/-- Reset, while a command is in flight, changes all of them. -/
theorem witness_StepOwnership_reset :
    (after (step (inFlight .shaInit [.reset] fitted))).map (fun t => (t.aes.valid, t.sha.st, t.hm.st)) =
      some (false, .idle, .idle) ∧
    (after (step (inFlight .shaInit [.reset] fitted))).map (fun t => (t.regs.iter, t.opmem.byteAt 0, t.latch)) =
      some (0#32, none, 0#32) := by
  decide +kernel

/-- States that meet the invariant, and for every flag a step that sets it and one that clears it. -/
theorem witness_FlagsSetAndCleared :
    (fitted.Inv ∧ ∀ i ts, (inFlight i ts fitted).Inv) ∧
    completes (step (inFlight .shaFinal [] fitted)) = true ∧ completes (step (inFlight .hmacFinal [] fitted)) = true ∧
    completes (step (inFlight .zeroize [] fitted)) = true ∧ completes (step (inFlight .shaInit [] fitted)) = true ∧
    (after (step { fitted with turns := [.host (.regWrite 0x00 0#32)] })).map (·.flags.busy) = some true ∧
    (after (step { issue 0#32 fitted with turns := [] })).map (fun t => (t.flags.busy, t.flags.done, t.flags.err)) =
      some (false, true, true) ∧
    (after (step { raise .noKey fitted with turns := [.host (.regWrite 0x00 0#32)] })).map (fun t =>
      (t.flags.done, t.flags.err, t.flags.esticky)) = some (false, false, true) ∧
    (after (step { raise .noKey fitted with turns := [.host (.regWrite 0x04 8#32)] })).map (·.flags.esticky) =
      some false := by
  refine ⟨⟨fitted_inv, fun i ts => inFlight_inv i ts fitted_inv⟩, ?_⟩
  decide +kernel

/-- Other contents behind the same phases: accesses that go on and accesses that are refused. -/
theorem witness_ContextsNotReadable :
    let aes' := AesContext.ofKey (zeros 32) 256
    let sha' : ShaContext := { hash := shaUpdate shaInit [1#8], st := .active }
    let hm' : HmacContext := { macStarted with inner := HashState.zero }
    aes'.valid = fitted.aes.valid ∧ sha'.st = fitted.sha.st ∧ hm'.st = fitted.hm.st ∧
    (∃ t, hostAccess (.regRead 0x04) fitted = .next t) ∧ (∃ t, hostAccess (.regWrite 0x00 2#32) fitted = .next t) ∧
    hostAccess (.regRead 0x05) fitted = .refused (.badRegisterAccess 5) ∧
    hostAccess (.memReadByte 256) fitted = .refused (.noSuchAddress 0x1100) :=
  ⟨rfl, rfl, rfl, ⟨_, rfl⟩, ⟨_, rfl⟩, rfl, rfl⟩

/-! The register block and the window -/

/-- An idle machine whose host makes this access. -/
def accessing (a : Access) : State := { fitted with turns := [.host a] }

theorem witness_StatusAndErrInfoRegisters :
    (accessing (.regRead 0x04)).flags.busy = false ∧ (accessing (.regRead 0x04)).turns = .host (.regRead 0x04) :: [] ∧
    (accessing (.regRead 0x08)).turns = .host (.regRead 0x08) :: [] ∧
    (accessing (.regWrite 0x04 8#32)).turns = .host (.regWrite 0x04 8#32) :: [] ∧
    (accessing (.regWrite 0x08 8#32)).turns = .host (.regWrite 0x08 8#32) :: [] :=
  ⟨rfl, rfl, rfl, rfl, rfl⟩

theorem witness_OperandRegisterAccess :
    (accessing (.regWrite 0x2C 5#32)).flags.busy = false ∧
    (accessing (.regWrite 0x2C 5#32)).turns = .host (.regWrite 0x2C 5#32) :: [] ∧
    (accessing (.regRead 0x10)).turns = .host (.regRead 0x10) :: [] ∧
    (OperandReg.keyAddr, 0x10) ∈ [(OperandReg.keyAddr, 0x10), (.iter, 0x2C)] :=
  ⟨rfl, rfl, rfl, by decide⟩

/-- For `ReservedSpace` and `HostAccessStops`: the reserved offsets at both ends of their range, and the addresses next to the block on either side. -/
theorem witness_ReservedSpace :
    (∀ off ∈ [0x0C, 0x30, 0xFFC], (off = 0x0C ∨ (0x30 ≤ off ∧ off ≤ 0xFFF)) ∧ off % 4 = 0 ∧
      (accessing (.regRead off)).turns = .host (.regRead off) :: []) ∧
    0x0D % 4 ≠ 0 ∧ (0 : Nat) < 0x1000 ∧ 0xFFF < 0x1000 ∧ (2 : Nat) ≠ 4 ∧ (zeros 8).length ≠ 4 ∧
    smallParams.coreBase + 0x1000 + smallParams.opmemBytes ≤ 0x5100 ∧ 0x3FFF < smallParams.coreBase ∧
    { fitted with turns := [.bus (.read 0x5100 1)] }.turns = .bus (.read 0x5100 1) :: [] := by
  refine ⟨fun off h => ⟨?_, ?_, rfl⟩, by decide, by decide, by decide, by decide, by decide, by decide, by decide, rfl⟩
  all_goals (revert off; decide)

/-- The last and the first offset beyond the register block, the first and the last byte of the window on the bus, and a
register write of four bytes. -/
theorem witness_HostAccessStops :
    fitted.flags.busy = false ∧ 0xFFC % 4 = 0 ∧ 0xFFC < 0x1000 ∧ 0x1000 % 4 = 0 ∧ 0x1000 ≤ 0x1000 ∧
    (accessing (.regRead 0x1000)).turns = .host (.regRead 0x1000) :: [] ∧ 255 < fitted.params.opmemBytes ∧
    { fitted with turns := [.bus (.read (fitted.params.coreBase + 0x1000 + 255) 1)] }.turns =
      .bus (.read (fitted.params.coreBase + 0x1000 + 255) 1) :: [] ∧
    { fitted with turns := [.bus (.write (fitted.params.coreBase + 0x18) [1#8, 2#8, 3#8, 4#8])] }.turns =
      .bus (.write (fitted.params.coreBase + 0x18) [1#8, 2#8, 3#8, 4#8]) :: [] :=
  ⟨rfl, by decide, by decide, by decide, by decide, rfl, by decide, rfl, rfl⟩

theorem witness_OpmemWindow :
    (accessing (.memReadByte 255)).flags.busy = false ∧ 255 < fitted.params.opmemBytes ∧
    fitted.params.opmemBytes ≤ 256 ∧ (accessing (.memReadByte 255)).turns = .host (.memReadByte 255) :: [] ∧
    (accessing (.memWriteByte 256 1#8)).turns = .host (.memWriteByte 256 1#8) :: [] :=
  ⟨rfl, by decide, by decide, rfl, rfl⟩

/-- A memory built by writes in falling order, and the cleared one. -/
theorem witness_EqualMemories :
    let m := (Memory.write [] 1 0#8).write 0 0#8
    m.wf 2 ∧ (Memory.zeroed 2).wf 2 ∧ ∀ k, m.byteAt k = (Memory.zeroed 2).byteAt k :=
  ⟨by decide, wf_zeroed 2, fun _ => rfl⟩

/-! The engines -/

theorem witness_FieldLaws : (0xFF#8 : Byte) ≠ 0x00#8 := by decide

/-- The three key sizes, with the first and the last word of each schedule. -/
theorem witness_KeySchedule :
    ∀ bits ∈ [128, 192, 256], (bits = 128 ∨ bits = 192 ∨ bits = 256) ∧ (zeros (bits / 8)).length = bits / 8 ∧
      bits / 32 ≤ bits / 32 ∧ bits / 32 < 4 * (bits / 32 + 6 + 1) ∧
      bits / 32 ≤ 4 * (bits / 32 + 6 + 1) - 1 ∧ 4 * (bits / 32 + 6 + 1) - 1 < 4 * (bits / 32 + 6 + 1) := by decide

theorem witness_MixColumnsMatrix :
    (fixed 16 [0xdb#8, 0x13#8, 0x53#8, 0x45#8]).toList.take 4 = [0xdb#8, 0x13#8, 0x53#8, 0x45#8] := by decide

/-- A key loaded twice, a block enciphered and deciphered, the output at the end of OPMEM. -/
theorem witness_BlockLaws :
    (∃ key, fitted.opmem.read fitted.regs.keyAddr.toNat (256 / 8) = .ok key) ∧
    (∃ t, exec (.setKey 256) fitted = .next t ∧ t.flags.err = false) ∧
    (∃ b, fitted.opmem.read fitted.regs.srcAddr.toNat 16 = .ok b) ∧ fitted.aes.valid = true ∧
    fitted.regs.srcAddr.toNat + 16 ≤ fitted.params.opmemBytes ∧
    fitted.regs.dstAddr.toNat + 16 ≤ fitted.params.opmemBytes ∧
    (∃ t, exec .encryptBlock fitted = .next t ∧ t.flags.err = false ∧
      ∃ u, exec .decryptBlock { t with regs := { fitted.regs with srcAddr := 192#32, dstAddr := 240#32 } } = .next u ∧
        u.flags.err = false) := by
  refine ⟨⟨_, fitted_reads.1⟩, next_of_completes (fitted_completes _ (by decide)), ⟨_, fitted_reads.2.1⟩, rfl, by decide,
    by decide, ?_⟩
  have h : ((after (exec .encryptBlock fitted)).map fun t =>
      (t.flags.err, completes (exec .decryptBlock
        { t with regs := { fitted.regs with srcAddr := 192#32, dstAddr := 240#32 } }))) = some (false, true) := by
    decide +kernel
  obtain ⟨t, ht, he⟩ := Option.map_eq_some_iff.mp h
  simp only [Prod.mk.injEq] at he
  exact ⟨t, after_next ht, he.1, next_of_completes he.2⟩

/-- The first and the last round of each round count, and the last byte of the last round key. -/
theorem witness_BlockFunctionsInverse :
    ∀ nr ∈ [10, 12, 14], (nr = 10 ∨ nr = 12 ∨ nr = 14) ∧ 1 ≤ 1 ∧ 1 < nr ∧ 1 ≤ nr - 1 ∧ nr - 1 < nr ∧
      16 * nr + (15 : Fin 16).val < 240 := by decide

theorem witness_StreamLaws :
    (zeros 16).length % 16 = 0 ∧ (zeros 15).length % 16 ≠ 0 ∧ (zeros 17).length % 16 ≠ 0 ∧
    14 < (zeros 15).length ∧ 16 < (zeros 17).length := by decide

theorem witness_CompressionFunction : (zeros 128).length = 128 ∧ 15 < 16 ∧ 16 ≤ 16 ∧ 16 < 80 ∧ 79 < 80 :=
  ⟨length_zeros 128, by decide, by decide, by decide, by decide⟩

/-- A hash context with what a statement of `fed` bytes says, at its first byte and after one. -/
def hashing (fed : List Byte) : State := { fitted with sha := { hash := shaUpdate shaInit fed, st := .active } }

theorem witness_StreamedHash :
    (∃ t, exec .shaInit cold = .next t) ∧ (hashing [1#8]).sha = { hash := shaUpdate shaInit [1#8], st := .active } ∧
    (∃ d, (hashing [1#8]).opmem.read (hashing [1#8]).regs.srcAddr.toNat (hashing [1#8]).regs.srcLen.toNat = .ok d) ∧
    (∃ t, exec .shaUpdate (hashing [1#8]) = .next t ∧ t.flags.err = false) ∧
    (∃ t, exec .shaFinal (hashing [1#8]) = .next t ∧ t.flags.err = false) :=
  ⟨⟨_, rfl⟩, rfl, ⟨_, fitted_reads.2.1⟩, next_of_completes (by decide +kernel), next_of_completes (by decide +kernel)⟩

/-- The HMAC context of `fed` bytes under a 24-byte key. -/
def macking (fed : List Byte) : State :=
  { fitted with
    hm :=
      { inner := shaUpdate shaInit (xorBytes (hmacKey (zeros 24)) (rep 0x36#8 128) ++ fed)
        outer := shaUpdate shaInit (xorBytes (hmacKey (zeros 24)) (rep 0x5c#8 128))
        st := .active } }

theorem witness_HmacLaws :
    (∃ key, fitted.opmem.read fitted.regs.keyAddr.toNat fitted.regs.keyLen.toNat = .ok key) ∧
    (∃ data, (macking [1#8]).opmem.read fitted.regs.srcAddr.toNat fitted.regs.srcLen.toNat = .ok data) ∧
    (∀ i ∈ [Instr.hmac, .hmacInit, .hmacUpdate, .hmacFinal, .shaInit, .shaUpdate, .shaFinal],
      ∃ t, exec i (macking [1#8]) = .next t ∧ t.flags.err = false) ∧
    hmacKey [] = hmacKey [0#8] ∧ (zeros 24).length + 104 ≤ 128 ∧ (zeros 24).length = 24 ∧
    128 < (zeros 129).length ∧ (zeros 128).length = 128 ∧ (zeros 128).length ≤ 128 := by
  refine ⟨⟨_, fitted_reads.1⟩, ⟨_, fitted_reads.2.1⟩, fun i hi => next_of_completes ?_, by decide +kernel, by decide,
    by decide, by simp, by simp, by simp⟩
  have h : ∀ i ∈ [Instr.hmac, .hmacInit, .hmacUpdate, .hmacFinal, .shaInit, .shaUpdate, .shaFinal],
      completes (exec i (macking [1#8])) = true := by decide +kernel
  exact h i hi

/-- One byte of one block, and the first byte of a second one. -/
theorem witness_Pbkdf2Blocks : 1 ≤ 1 ∧ (0 < 1) ∧ 64 < 65 := by decide

/-! The container and the pipeline -/

/-- A request to decrypt this file, with nothing going wrong around it. -/
def decrypting (file : List Byte) : DecryptRequest :=
  { source := file, password := [0x61#8], outputPath := [], callback := false, failure := none }

theorem witness_ContainerFormat :
    (∀ keyBits ∈ [128, 192, 256], keyBits = 128 ∨ keyBits = 192 ∨ keyBits = 256) ∧ (zeros 8).length = 8 ∧
    0x00#8 ∉ [0x2e#8, 0x74#8, 0x78#8, 0x74#8] ∧ validatePassword (decrypting []).password = true ∧
    (decrypting []).failureBy .readHeader = none ∧
    slice [] 0 5 ≠ [0x41#8, 0x45#8, 0x53#8, 0x43#8, 0x01#8] ∧
    slice (containerSignature ++ [0x02#8]) 0 5 ≠ [0x41#8, 0x45#8, 0x53#8, 0x43#8, 0x01#8] := by
  decide

/-- Passwords the policy rejects: empty, of eleven bytes, with a space. -/
theorem witness_PasswordPolicy :
    validatePassword [] = false ∧ validatePassword (rep 0x61#8 11) = false ∧ validatePassword [0x61#8, 0x20#8] = false ∧
    validatePassword (rep 0x7a#8 10) = true := by decide

/-- The request of V7.1 with this plaintext and a weak nonce. -/
def encrypting (plaintext : List Byte) : EncryptRequest :=
  { source := plaintext, keyBits := 256, password := hex 6 0x616263313233, nonce := hex 8 0x0001020304050607
    nonceStrong := false, extension := hex 4 0x2e747874, callback := false, failure := none }

/-- R174, R179: a failure once the nonce has been drawn does not hide the fallback, and one before it reports none. -/
theorem test_encrypt_weak_nonce_survives_failure :
    ([EncryptStage.openSource, .deriveKeys, .computeMacOverPlaintext, .writeHeaderAndTag].map fun stage =>
      let o := encryptFile Params.default
        { encrypting [1#8] with failure := some { stage := stage, chunksDone := 0, cause := .io } }
      (o.error, o.weakNonce, o.destination)) =
    [(some .ioError, false, .absent), (some .ioError, false, .absent), (some .ioError, true, .absent),
      (some .ioError, true, .unusable)] := by
  decide +kernel

/-- R159: a hardware error is reported under its own code; R178: one call for every chunk finished in either pass. -/
theorem test_encrypt_hardware_error :
    let o := encryptFile Params.default
      { encrypting (zeros 33) with
        callback := true
        failure := some { stage := .streamCipherAndWrite, chunksDone := 2, cause := .hardware 6#8 4#8 } }
    o.error.map HostError.code = some 6 ∧ o.progress.length = 5 := by
  decide +kernel

/-- A layout whose derived bytes do not fit in OPMEM. -/
def badLayout : PipelineAddresses := { pw := 0, dka := 200, hdr := 10, buf := 50, tag := 66, cba := 130 }

/-- R159, R181: a command that fails aborts the operation, is reported with its code and detail, and ZEROIZE follows. -/
theorem test_driver_aborts_on_hardware_error :
    (match driveEncrypt badLayout (encrypting [1#8]) none { State.reset with params := smallParams } with
      | .next c => some (c.error, c.filesDone, (statusWord c.core).toNat, c.core.opmem.byteAt 0)
      | .fault _ => none
      | .refused _ => none) = some (some (.hardware 6#8 4#8), 1, 0x0000000A, some 0#8) := by
  decide +kernel

/-- R181: a file that cannot be opened, and a password that is turned away, end with ZEROIZE too. -/
theorem test_driver_clears_on_every_exit :
    ([(some 0, hex 6 0x616263313233), (none, [])].map fun (failing, password) =>
      match driveEncrypt badLayout { encrypting [1#8] with password := password } failing { withMacKey with params := smallParams } with
      | .next c => some (c.error, (statusWord c.core).toNat, c.core.regs, c.core.opmem.byteAt 0)
      | .fault _ => none
      | .refused _ => none) =
    [some (some .ioError, 0x00000002, OperandRegs.zero, some 0#8),
      some (some .passwordPolicyViolation, 0x00000002, OperandRegs.zero, some 0#8)] := by
  decide +kernel

/-- A `decrypt` with `1F` deciphered to scratch storage, on a small core. -/
def deciphered : Course :=
  { Course.start { State.reset with params := smallParams } none false 105 with scratch := some [some 0x1f#8] }

/-- What a course leaves outside the core. -/
structure Remains where
  error : Option HostError
  destination : Option (List (Option Byte))
  finalPath : Option (List Byte)
  scratch : Option (List (Option Byte))
  calls : Nat
deriving DecidableEq

/-- What is left where the machine goes on. -/
def remains (r : CourseResult) : Option Remains :=
  match r with
  | .next c => some ⟨c.error, c.destination, c.finalPath, c.scratch, c.progress.length⟩
  | .fault _ => none
  | .refused _ => none

/-- R175 steps 9 to 11: the scratch plaintext reaches the destination where the tags are equal; where they are not, or where
the close fails, nothing does; the scratch storage is gone in all three. -/
theorem test_driver_commits_or_discards :
    ([(none, []), (none, [0x01#8]), (some 1, [])].map fun (failing, stored) =>
      remains (driveFile .decrypt failing [.compareTag stored, .commit [0x61#8], .file] deciphered)) =
    [some ⟨none, some [some 0x1f#8], some [0x61#8], none, 0⟩, some ⟨some .authenticationFailure, none, none, none, 0⟩,
      some ⟨some .ioError, none, none, none, 0⟩] := by
  decide +kernel

/-- R178: one call after each chunk where there is a callback, and none where there is none. -/
theorem test_driver_calls_only_a_callback :
    ([true, false].map fun callback =>
      (remains (driveFile .encrypt none [.progress, .progress] { deciphered with callback := callback })).map
        Remains.calls) = [some 2, some 0] := by
  decide +kernel

/-- R179: the fallback to a weak random source stays visible in a course that fails after the draw. -/
theorem test_driver_weak_nonce_survives_failure :
    ([true, false].map fun strong =>
      match driveFile .encrypt (some 0) [.drawNonce strong, .file] deciphered with
      | .next c => some (c.error, c.weakNonce)
      | .fault _ => none
      | .refused _ => none) = [some (some .ioError, false), some (some .ioError, true)] := by
  decide +kernel

/-- R175 step 10: the extension ends at the first NUL, whatever another program put after it. -/
theorem test_extension_ends_at_first_nul :
    extensionOf [0x2e#8, 0x61#8, 0x00#8, 0x62#8, 0x00#8, 0x63#8, 0x64#8, 0x65#8] = [0x2e#8, 0x61#8] := by decide

theorem witness_DecryptAfterEncrypt :
    (∀ plaintext, (encrypting plaintext).nonce.length = 8 ∧ 0x00#8 ∉ (encrypting plaintext).extension ∧
      ∃ file, (encryptFile Params.default (encrypting plaintext)).destination = .complete file ∧
        let y := { decrypting file with password := (encrypting plaintext).password }
        y.source = file ∧ y.password = (encrypting plaintext).password ∧ y.failure = none) ∧
    [0x54#8] ≠ [] := by
  refine ⟨fun plaintext => ⟨by simp [encrypting, hex], by show 0x00#8 ∉ hex 4 0x2e747874; decide, ?_⟩, by decide⟩
  have hp : validatePassword (hex 6 0x616263313233) = true := by decide
  exact ⟨containerOf Params.default 256 (hex 6 0x616263313233) (hex 8 0x0001020304050607) (hex 4 0x2e747874) plaintext,
    by simp [encryptFile, encrypting, hp, legalKeyBits], rfl, rfl, rfl⟩

/-- The header of a container made by hand. -/
def handHeader : List Byte := containerSignature ++ [0x01#8, 0x02#8, 0x02#8, 0x01#8] ++ zeros 32

/-- A container made by hand around a ciphertext of one byte, its tag computed from rule R171. -/
def handMade (keys : DerivedKeys) : List Byte :=
  handHeader ++ (hmacTag keys.macKey (handHeader ++ ctrWithKey keys.aesKey 192 (startBlock (zeros 8)) [0x00#8]) ++
    [0x00#8])

theorem drop_header_and_tag (key data c : List Byte) :
    slice (handHeader ++ (hmacTag key data ++ c)) 0 40 = handHeader ∧
    slice (handHeader ++ (hmacTag key data ++ c)) 40 64 = hmacTag key data ∧
    (handHeader ++ (hmacTag key data ++ c)).drop 104 = c ∧
    checkContainer (handHeader ++ (hmacTag key data ++ [0x00#8])) =
      .ok (192, { newHeader 192 (zeros 8) [] with format := zeros 8 }) := by
  have h : handHeader.length = 40 := by decide
  have ht : (hmacTag key data).length = 64 := length_hmacTag _ _
  refine ⟨List.take_left' h, ?_, ?_, ?_⟩
  · rw [slice, List.drop_left' h, List.take_left' ht]
  · rw [← List.append_assoc, List.drop_left' (by rw [List.length_append, h, ht])]
  · have e : ∀ rest : List Byte, rest.length = 65 → checkContainer (handHeader ++ rest) =
        .ok (192, { newHeader 192 (zeros 8) [] with format := zeros 8 }) := by
      intro rest hr
      have hd : Header.decode (handHeader ++ rest) =
          some { newHeader 192 (zeros 8) [] with format := zeros 8 } := by
        rw [Header.decode, if_neg (by rw [List.length_append, h, hr]; decide)]
        rfl
      rw [checkContainer, hd]
      show (if (handHeader ++ rest).length ≤ headerBytes + tagBytes then _ else _) = _
      rw [if_neg (by rw [List.length_append, h, hr]; decide)]
    exact e _ (by rw [List.length_append, ht]; rfl)

theorem openContainer_handMade {p : Params} {password : List Byte} {keys : DerivedKeys}
    (h : deriveKeys p password 192 = keys) :
    openContainer p 192 { newHeader 192 (zeros 8) [] with format := zeros 8 } password (handMade keys) =
      some (ctrWithKey keys.aesKey 192 (startBlock (zeros 8)) [0x00#8]) := by
  obtain ⟨h1, h2, h3, -⟩ := drop_header_and_tag keys.macKey
    (handHeader ++ ctrWithKey keys.aesKey 192 (startBlock (zeros 8)) [0x00#8]) [0x00#8]
  simp only [openContainer, decipher, h, handMade, headerBytes, tagBytes, h1, h2, h3, newHeader, if_true]

/-- `decrypt` of that container commits an output; of an empty file it fails, and so it does with a mishap. -/
theorem witness_CommitOnlyIfTagMatches :
    (∃ file out, (decryptFile Params.default (decrypting file)).destination = .complete out) ∧
    (decryptFile Params.default (decrypting [])).error ≠ none ∧
    { decrypting [] with
      failure := some { stage := .commitOutput, chunksDone := 0, cause := .io } }.failure ≠ none := by
  have hp : validatePassword [0x61#8] = true := by decide
  refine ⟨?_, by decide, by decide⟩
  obtain ⟨keys, h⟩ : ∃ keys, deriveKeys Params.default [0x61#8] 192 = keys := ⟨_, rfl⟩
  have hc : checkContainer (handMade keys) = _ := (drop_header_and_tag keys.macKey
    (handHeader ++ ctrWithKey keys.aesKey 192 (startBlock (zeros 8)) [0x00#8]) [0x00#8]).2.2.2
  exact ⟨handMade keys, ctrWithKey keys.aesKey 192 (startBlock (zeros 8)) [0x00#8], congrArg DecryptOutcome.destination
    (decryptFile_ok (x := decrypting (handMade keys)) hp rfl hc (openContainer_handMade h))⟩

end Sys2Proof.Tests
end

section
/-! The step, one equation for each turn, and the obligations about issue and reset. -/

namespace Sys2Proof.Machine

/-! One turn (rules R46, R50) -/

theorem step_of_core {s : State} {rest : List Turn} (ht : s.turns = .core :: rest) :
    step s = coreTurn { s with turns := rest } := by
  simp only [step, ht]

theorem step_of_host {s : State} {a : Access} {rest : List Turn} (ht : s.turns = .host a :: rest) :
    step s = hostAccess a { s with turns := rest } := by
  simp only [step, ht]

theorem step_of_reset {s : State} {rest : List Turn} (ht : s.turns = .reset :: rest) :
    step s = .next (applyReset { s with turns := rest }) := by
  simp only [step, ht]

theorem coreTurn_of_busy {s : State} {i : Instr} (hb : s.flags.busy = true) (hd : decode s.latch = .ok i) :
    coreTurn s = exec i s := by
  simp only [coreTurn, hb, if_true, runLatched, hd]

theorem step_of_core_busy {s : State} {i : Instr} {rest : List Turn} (ht : s.turns = .core :: rest)
    (hb : s.flags.busy = true) (hd : decode s.latch = .ok i) : step s = exec i { s with turns := rest } := by
  rw [step_of_core ht]
  exact coreTurn_of_busy hb hd

theorem hostAccess_of_idle {s : State} (hb : s.flags.busy = false) (a : Access) :
    hostAccess a s = idleAccess a s := by
  simp [hostAccess, hb]

/-- The busy hazard (rule R196). -/
theorem hostAccess_of_busy {s : State} {a : Access} (hb : s.flags.busy = true) (ha : a ≠ .regRead statusOffset) :
    hostAccess a s = .refused .accessWhileBusy := by
  simp [hostAccess, hb, allowedWhileBusy, ha]

theorem step_of_host_idle {s : State} {a : Access} {rest : List Turn} (ht : s.turns = .host a :: rest)
    (hb : s.flags.busy = false) : step s = idleAccess a { s with turns := rest } := by
  rw [step_of_host ht]
  exact hostAccess_of_idle (s := { s with turns := rest }) hb a

theorem step_of_host_busy {s : State} {a : Access} {rest : List Turn} (ht : s.turns = .host a :: rest)
    (hb : s.flags.busy = true) (ha : a ≠ .regRead statusOffset) : step s = .refused .accessWhileBusy := by
  rw [step_of_host ht]
  exact hostAccess_of_busy hb ha

theorem core_run_one (s : State) : Host.Core.run Sys2Proof.core 1 s = step s := by
  show Host.Core.run Sys2Proof.core 1 s = Sys2Proof.core.step s
  simp only [Host.Core.run]
  cases Sys2Proof.core.step s <;> rfl

/-! The register `CMD` (rule R22) -/

@[simp] theorem registerValue_cmd (s : State) : registerValue s cmdOffset = 0#32 := rfl

theorem idleAccess_write_cmd (c : Word) (s : State) : idleAccess (.regWrite cmdOffset c) s = .next (issue c s) := rfl

theorem idleAccess_read_cmd (s : State) :
    idleAccess (.regRead cmdOffset) s = .next (reply (.reg cmdOffset 0#32) s) := rfl

theorem step_write_cmd {s : State} {c : Word} {rest : List Turn} (ht : s.turns = .host (.regWrite cmdOffset c) :: rest)
    (hb : s.flags.busy = false) : step s = .next (issue c { s with turns := rest }) := by
  rw [step_of_host_idle ht hb, idleAccess_write_cmd]

theorem step_read_cmd {s : State} {rest : List Turn} (ht : s.turns = .host (.regRead cmdOffset) :: rest)
    (hb : s.flags.busy = false) : step s = .next (reply (.reg cmdOffset 0#32) { s with turns := rest }) := by
  rw [step_of_host_idle ht hb, idleAccess_read_cmd]

/-! Unwritten memory (rules R30, R55) -/

theorem read_of_byteAt_none {m : Memory} {addr n : Nat} (hn : 0 < n) (hb : m.byteAt addr = none) :
    m.read addr n = .error addr := by
  obtain ⟨k, rfl⟩ := Nat.exists_eq_add_of_lt hn
  simp only [Memory.read, hb]

theorem withInput_of_byteAt_none {o : Operand} {s : State} (hn : 0 < o.len) (hb : s.opmem.byteAt o.addr = none)
    (go : List Byte → Result) : withInput o s go = .refused (.unwrittenByte o.addr) := by
  simp only [withInput, read_of_byteAt_none hn hb]

/-- SET_KEY with a key in range whose first byte is unwritten is refused (rules R55, R88). -/
theorem exec_setKey_of_byteAt_none {s : State} {bits : Nat} (hl : legalKeyBits bits = true)
    (hv : s.reg .keyAddr + bits / 8 ≤ s.params.opmemBytes) (hb : s.opmem.byteAt (s.reg .keyAddr) = none) :
    exec (.setKey bits) s = .refused (.unwrittenByte (s.reg .keyAddr)) := by
  have hvalid : allValid [aesKeyOperand bits s] s = true := by simpa [allValid_iff, aesKeyOperand] using hv
  have hlen : 0 < bits / 8 := by
    rcases (legalKeyBits_iff bits).mp hl with rfl | rfl | rfl <;> decide
  show execSetKey bits s = _
  simp only [execSetKey, hl, hvalid, Bool.not_true, Bool.false_eq_true, if_false]
  exact withInput_of_byteAt_none (o := aesKeyOperand bits s) hlen hb _

/-! After the reset event (rule R30) -/

@[simp] theorem statusWord_applyReset (s : State) : statusWord (applyReset s) = 0#32 := by
  simp only [statusWord, applyReset_hm, applyReset_sha, applyReset_aes, applyReset_flags]
  decide

@[simp] theorem errInfoWord_applyReset (s : State) : errInfoWord (applyReset s) = 0#32 := by
  rw [errInfoWord, applyReset_errInfo]
  decide

/-- After the reset event a legal SET_KEY finds its key at address 0, in range and unwritten (rules R7, R30). -/
theorem exec_setKey_applyReset {s : State} (hp : s.params.Legal) {bits : Nat} (hl : legalKeyBits bits = true) :
    exec (.setKey bits) (applyReset s) = .refused (.unwrittenByte 0) := by
  have hv : 0 + bits / 8 ≤ s.params.opmemBytes := by
    rcases (legalKeyBits_iff bits).mp hl with rfl | rfl | rfl <;> exact le_trans (by decide) hp.1
  exact exec_setKey_of_byteAt_none (s := applyReset s) hl hv rfl

end Sys2Proof.Machine

namespace Sys2Proof.Proofs

open Sys2Proof.Machine

/-- Settles O7: a `CMD` write to an idle core is `issue`, which leaves the core busy with the word in `LATCH`; a read
of `CMD` is a `reply`; a write to a busy core meets the busy hazard. -/
theorem commandWriteIssues : Obligations.CommandWriteIssues := by
  intro s c rest
  refine ⟨fun hb ht => step_write_cmd ht hb, fun hb ht i hi t hrun => ?_, fun hb ht => step_read_cmd ht hb,
    fun hb ht => step_of_host_busy ht hb (by simp)⟩
  have hissue : issue c { s with turns := .core :: rest } = t := by
    rw [core_run_one] at hrun
    exact Host.Outcome.next.inj ((step_write_cmd ht hb).symm.trans hrun)
  subst hissue
  exact step_of_core_busy rfl rfl hi

/-- Settles O9: the step is `applyReset`, which leaves every part of the hardware at a value that does not depend on the
state before it, and SET_KEY then meets an unwritten byte. -/
theorem resetEvent : Obligations.ResetEvent := by
  intro s rest ht
  refine ⟨applyReset { s with turns := rest }, step_of_reset ht, rfl, statusWord_applyReset _,
    errInfoWord_applyReset _, registerValue_cmd _, rfl, rfl, rfl, rfl, rfl, rfl, rfl, rfl, rfl, rfl, rfl,
    fun _ => rfl, fun hp bits hl => ?_, rfl⟩
  exact exec_setKey_applyReset hp ((legalKeyBits_iff bits).mpr hl)

end Sys2Proof.Proofs
end

section
/-! What a command with no error condition does: it reads its input operands in order and then succeeds; and the
obligation about inputs that hold an unwritten byte. -/

namespace Sys2Proof.Machine

/-- The result of a command that reads the operands of the list, in order, and then succeeds (rules R9, R151). -/
inductive ReadsInputs (s : State) : List Operand → Result → Prop where
  | done (u : State) : ReadsInputs s [] (succeed u)
  | read {o : Operand} {os : List Operand} {go : List Byte → Result} (rest : ∀ bs, ReadsInputs s os (go bs)) :
      ReadsInputs s (o :: os) (withInput o s go)

/-- Such a command succeeds when all its operands are written, and is refused at an unwritten byte of one otherwise. -/
theorem ReadsInputs.succeeds_or_refused {s : State} {os : List Operand} {r : Result} (h : ReadsInputs s os r) :
    ((∀ o ∈ os, ∀ k < o.len, (s.opmem.byteAt (o.addr + k)).isSome) ∧ ∃ u, r = succeed u) ∨
    ∃ o ∈ os, ∃ k, o.addr ≤ k ∧ k < o.addr + o.len ∧ s.opmem.byteAt k = none ∧ r = .refused (.unwrittenByte k) := by
  induction h with
  | done u => exact .inl ⟨by simp, u, rfl⟩
  | @read o os go rest ih =>
    rcases withInput_cases o s go with ⟨bs, hr, hg⟩ | ⟨k, hle, hlt, hb, hg⟩
    · have ho := (read_isOk_iff s.opmem o.addr o.len).mp ⟨bs, hr⟩
      rw [hg]
      rcases ih bs with ⟨hos, hu⟩ | ⟨o', ho', hk⟩
      · exact .inl ⟨List.forall_mem_cons.mpr ⟨ho, hos⟩, hu⟩
      · exact .inr ⟨o', List.mem_cons_of_mem o ho', hk⟩
    · exact .inr ⟨o, List.mem_cons_self, k, hle, hlt, hb, hg⟩

/-- An error check that passes leaves what comes after it. -/
theorem ReadsInputs.of_guard {s : State} {os : List Operand} {p : Prop} [Decidable p] {fails r : Result} (hp : ¬p)
    (h : ReadsInputs s os r) : ReadsInputs s os (if p then fails else r) := by
  rwa [if_neg hp]

theorem expectedError_eq_none_iff {i : Instr} {s : State} :
    expectedError i s = none ↔ parameterError i s = none ∧ contextError i s = none ∧ OperandsInRange i s := by
  have hr : rangeError i s = none ↔ OperandsInRange i s := by
    simp only [rangeError, ite_eq_left_iff, reduceCtorEq, imp_false, not_not]
  rw [expectedError, Option.or_eq_none_iff, Option.or_eq_none_iff, hr]

/-- The range check of a command passes on any of its operands. -/
theorem OperandsInRange.check_passes {i : Instr} {s : State} (h : OperandsInRange i s) {os : List Operand}
    (hos : os ⊆ inputOperands i s ++ outputOperands i s) : ¬(!allValid os s) = true := by
  have hv : allValid os s = true := (allValid_iff os s).mpr fun o ho => h o (hos ho)
  simp [hv]

/-- A command none of whose error conditions holds passes every check, reads its input operands in the order its rule
lists them, and succeeds. -/
theorem exec_readsInputs {i : Instr} {s : State} (h : expectedError i s = none) :
    ReadsInputs s (inputOperands i s) (exec i s) := by
  obtain ⟨hparam, hctx, hrange⟩ := expectedError_eq_none_iff.mp h
  cases i with
  | setKey bits =>
    have hlegal : legalKeyBits bits = true := (legalKeyBits_iff bits).mpr (by simpa [parameterError, or_iff_not_imp_left] using hparam)
    exact .of_guard (by simp [hlegal]) (.of_guard (hrange.check_passes (.refl _)) (.read fun _ => .done _))
  | encryptBlock =>
    have hkey : s.aes.valid = true := by simpa [contextError] using hctx
    exact .of_guard (by simp [hkey]) (.of_guard (hrange.check_passes (.refl _)) (.read fun _ => .done _))
  | decryptBlock =>
    have hkey : s.aes.valid = true := by simpa [contextError] using hctx
    exact .of_guard (by simp [hkey]) (.of_guard (hrange.check_passes (.refl _)) (.read fun _ => .done _))
  | ctrCrypt =>
    have hkey : s.aes.valid = true := by simpa [contextError] using hctx
    exact .of_guard (by simp [hkey]) (.of_guard (hrange.check_passes (by simp [inputOperands, outputOperands]))
      (.read fun _ => .read fun _ => .done _))
  | shaInit => exact .done _
  | shaUpdate =>
    have hactive : s.sha.st = .active := by simpa [contextError] using hctx
    exact .of_guard (by simp [hashActive, hactive]) (.of_guard (hrange.check_passes (.refl _)) (.read fun _ => .done _))
  | shaFinal =>
    have hactive : s.sha.st = .active := by simpa [contextError] using hctx
    exact .of_guard (by simp [hashActive, hactive]) (.of_guard (hrange.check_passes (.refl _)) (.done _))
  | hmac => exact .of_guard (hrange.check_passes (.refl _)) (.read fun _ => .read fun _ => .done _)
  | hmacInit => exact .of_guard (hrange.check_passes (.refl _)) (.read fun _ => .done _)
  | hmacUpdate =>
    have hactive : s.hm.st = .active := by simpa [contextError] using hctx
    exact .of_guard (by simp [hmacActive, hactive]) (.of_guard (hrange.check_passes (.refl _)) (.read fun _ => .done _))
  | hmacFinal =>
    have hactive : s.hm.st = .active := by simpa [contextError] using hctx
    exact .of_guard (by simp [hmacActive, hactive]) (.of_guard (hrange.check_passes (.refl _)) (.done _))
  | pbkdf2 =>
    have hiter : s.regs.iter ≠ 0 := by simpa [parameterError] using hparam
    have hreg : ¬s.reg .iter = 0 := fun h0 => hiter (BitVec.eq_of_toNat_eq h0)
    exact .of_guard hreg (.of_guard (hrange.check_passes (.refl _)) (.read fun _ => .read fun _ => .done _))
  | zeroize => exact .done _

/-- ZEROIZE writes `0x00` to every byte of OPMEM (rules R55, R140). -/
theorem byteAt_of_exec_zeroize {s t : State} (h : exec .zeroize s = .next t) {k : Nat} (hk : k < t.params.opmemBytes) :
    t.opmem.byteAt k = some 0x00#8 := by
  have ht : complete (zeroizeAll s) = t := Host.Outcome.next.inj h
  subst ht
  rw [complete_params, zeroizeAll_params] at hk
  rw [complete_opmem, zeroizeAll_opmem, byteAt_zeroed, if_pos hk]

end Sys2Proof.Machine

namespace Sys2Proof.Proofs

open Sys2Proof.Machine

/-- Settles O31: a command with no error condition reads its inputs in order and succeeds unless one of them holds an
unwritten byte, where it is refused; ZEROIZE leaves all of OPMEM zeroed. -/
theorem unwrittenInputRefused : Obligations.UnwrittenInputRefused := by
  refine ⟨fun i s hnone hunwritten => ?_, fun s t h k hk => byteAt_of_exec_zeroize h hk⟩
  rcases (exec_readsInputs hnone).succeeds_or_refused with ⟨hwritten, -⟩ | hrefused
  · exact absurd hwritten hunwritten
  · exact hrefused

end Sys2Proof.Proofs
end

section
/-! The decoder: the fields of a command word, when a word decodes to a command, and which words are illegal; and the
obligations about the opcode map and illegal words. -/

namespace Sys2Proof

/-! The fields of a command word (rule R60) -/

theorem append_fields (c : Word) : argField c ++ rsvField c ++ opcField c = c := by
  have hhigh : argField c ++ rsvField c = c.extractLsb' 8 24 :=
    BitVec.extractLsb'_append_extractLsb'_eq_extractLsb' rfl
  rw [hhigh]
  exact BitVec.extractLsb'_append_extractLsb'

@[simp] theorem argField_append (a : BitVec 16) (r o : BitVec 8) : argField (a ++ r ++ o) = a := by
  rw [argField, BitVec.extractLsb'_append_eq_of_le (by decide)]
  exact BitVec.extractLsb'_append_eq_left

@[simp] theorem rsvField_append (a : BitVec 16) (r o : BitVec 8) : rsvField (a ++ r ++ o) = r := by
  rw [rsvField, BitVec.extractLsb'_append_eq_of_le (by decide)]
  exact BitVec.extractLsb'_append_eq_right

@[simp] theorem opcField_append (a : BitVec 16) (r o : BitVec 8) : opcField (a ++ r ++ o) = o :=
  BitVec.extractLsb'_append_eq_right

/-- A command word is its three fields. -/
theorem eq_append_iff {c : Word} {a : BitVec 16} {r o : BitVec 8} :
    c = a ++ r ++ o ↔ argField c = a ∧ rsvField c = r ∧ opcField c = o := by
  constructor
  · rintro rfl
    exact ⟨argField_append a r o, rsvField_append a r o, opcField_append a r o⟩
  · rintro ⟨rfl, rfl, rfl⟩
    exact (append_fields c).symm

theorem toNat_argField (c : Word) : (argField c).toNat = c.toNat / 2 ^ 16 := by
  have := c.isLt
  simp only [argField, BitVec.extractLsb'_toNat, Nat.shiftRight_eq_div_pow]
  omega

/-! When a word decodes to a command (rules R61 to R63) -/

theorem Instr.opcode_ne_one {i : Instr} (hi : ∀ bits, i ≠ .setKey bits) : i.opcode ≠ 0x01#8 := by
  cases i with
  | setKey bits => exact absurd rfl (hi bits)
  | _ => decide

theorem decodeOpcode_eq_ok_iff {b : BitVec 8} {i : Instr} (hb : b ≠ 0x01#8) :
    decodeOpcode b = .ok i ↔ b = i.opcode := by
  constructor
  · intro h
    unfold decodeOpcode at h
    split at h <;> cases h <;> rfl
  · rintro rfl
    cases i with
    | setKey bits => exact absurd rfl hb
    | _ => rfl

/-- What decodes: `RSV` is 0, and either `OPC` is 0x01 and `ARG` is the key size, or `ARG` is 0 and `OPC` is the opcode
of the command. -/
theorem decode_eq_ok_iff {c : Word} {i : Instr} :
    decode c = .ok i ↔ rsvField c = 0#8 ∧
      (opcField c = 0x01#8 ∧ i = .setKey (argField c).toNat ∨
        opcField c ≠ 0x01#8 ∧ argField c = 0#16 ∧ opcField c = i.opcode) := by
  unfold decode
  split
  next hrsv => exact ⟨nofun, fun h => absurd h.1 hrsv⟩
  next hrsv =>
    rw [not_ne_iff] at hrsv
    split
    next hopc => simp [hrsv, hopc, eq_comm]
    next hopc =>
      split
      next harg => exact ⟨nofun, fun ⟨_, h⟩ => h.elim (absurd ·.1 hopc) (absurd ·.2.1 harg)⟩
      next harg =>
        rw [not_ne_iff] at harg
        simp [hrsv, hopc, harg, decodeOpcode_eq_ok_iff hopc]

/-! The rows of the opcode map (rule R62) -/

/-- The row of a command other than SET_KEY fixes all 32 bits. -/
theorem selects_row_iff {c : Word} {i : Instr} (hi : ∀ bits, i ≠ .setKey bits) :
    c &&& i.maskWord = i.matchWord ↔ argField c = 0#16 ∧ rsvField c = 0#8 ∧ opcField c = i.opcode := by
  have hmask : c &&& i.maskWord = c := by
    cases i with
    | setKey bits => exact absurd rfl (hi bits)
    | _ => exact BitVec.and_allOnes
  have hmatch : i.matchWord = 0#16 ++ 0#8 ++ i.opcode := by
    cases i with
    | setKey bits => exact absurd rfl (hi bits)
    | _ => rfl
  rw [hmask, hmatch]
  exact eq_append_iff

theorem decode_eq_ok_iff_selects_row {c : Word} {i : Instr} (hi : ∀ bits, i ≠ .setKey bits) :
    decode c = .ok i ↔ c &&& i.maskWord = i.matchWord := by
  have hne := Instr.opcode_ne_one hi
  rw [decode_eq_ok_iff, selects_row_iff hi]
  constructor
  · rintro ⟨hrsv, ⟨-, hset⟩ | ⟨-, harg, hopc⟩⟩
    · exact absurd hset (hi _)
    · exact ⟨harg, hrsv, hopc⟩
  · rintro ⟨harg, hrsv, hopc⟩
    exact ⟨hrsv, .inr ⟨hopc ▸ hne, harg, hopc⟩⟩

/-- The row of SET_KEY fixes the low half of the word and leaves `ARG` free. -/
theorem selects_setKey_row_iff {c : Word} :
    c &&& 0x0000FFFF#32 = 0x00000001#32 ↔ rsvField c = 0#8 ∧ opcField c = 0x01#8 := by
  have hmask : (0x0000FFFF#32).toNat = 2 ^ 16 - 1 := rfl
  simp only [← BitVec.toNat_inj, BitVec.toNat_and, hmask, Nat.and_two_pow_sub_one_eq_mod, rsvField, opcField,
    BitVec.extractLsb'_toNat, BitVec.toNat_ofNat, Nat.shiftRight_eq_div_pow]
  omega

theorem decode_eq_setKey_iff {c : Word} {bits : Nat} :
    decode c = .ok (.setKey bits) ↔ c &&& 0x0000FFFF#32 = 0x00000001#32 ∧ bits = c.toNat / 2 ^ 16 := by
  rw [decode_eq_ok_iff, selects_setKey_row_iff, ← toNat_argField]
  constructor
  · rintro ⟨hrsv, ⟨hopc, hbits⟩ | ⟨hne, -, hopc⟩⟩
    · exact ⟨⟨hrsv, hopc⟩, Instr.setKey.inj hbits⟩
    · exact absurd hopc hne
  · rintro ⟨⟨hrsv, hopc⟩, rfl⟩
    exact ⟨hrsv, .inl ⟨hopc, rfl⟩⟩

/-! Illegal words (rule R63) -/

/-- The thirteen values of `OPC` that rule R62 lists, one for each command (the key size of SET_KEY does not
matter). -/
def opcodes : List (BitVec 8) :=
  List.map Instr.opcode [.setKey 0, .encryptBlock, .decryptBlock, .ctrCrypt, .shaInit, .shaUpdate, .shaFinal, .hmac,
    .hmacInit, .hmacUpdate, .hmacFinal, .pbkdf2, .zeroize]

theorem mem_opcodes_iff {b : BitVec 8} : b ∈ opcodes ↔ ∃ i : Instr, b = i.opcode := by
  constructor
  · intro hb
    obtain ⟨i, -, hi⟩ := List.mem_map.mp hb
    exact ⟨i, hi.symm⟩
  · rintro ⟨i, rfl⟩
    cases i with
    | setKey bits => exact List.mem_cons_self
    | _ => decide

theorem exists_decode_eq_ok_iff {c : Word} :
    (∃ i, decode c = .ok i) ↔
      rsvField c = 0#8 ∧ (argField c = 0#16 ∨ opcField c = 0x01#8) ∧ opcField c ∈ opcodes := by
  constructor
  · rintro ⟨i, hi⟩
    obtain ⟨hrsv, ⟨hopc, -⟩ | ⟨-, harg, hopc⟩⟩ := decode_eq_ok_iff.mp hi
    · exact ⟨hrsv, .inr hopc, mem_opcodes_iff.mpr ⟨.setKey 0, hopc⟩⟩
    · exact ⟨hrsv, .inl harg, mem_opcodes_iff.mpr ⟨i, hopc⟩⟩
  · rintro ⟨hrsv, harg, hmem⟩
    by_cases hone : opcField c = 0x01#8
    · exact ⟨_, decode_eq_ok_iff.mpr ⟨hrsv, .inl ⟨hone, rfl⟩⟩⟩
    · obtain ⟨i, hopc⟩ := mem_opcodes_iff.mp hmem
      exact ⟨i, decode_eq_ok_iff.mpr ⟨hrsv, .inr ⟨hone, harg.resolve_right hone, hopc⟩⟩⟩

theorem illegal_iff {c : Word} :
    (∀ i, decode c ≠ .ok i) ↔
      rsvField c ≠ 0#8 ∨ (argField c ≠ 0#16 ∧ opcField c ≠ 0x01#8) ∨ opcField c ∉ opcodes := by
  rw [← not_exists, exists_decode_eq_ok_iff]
  tauto

end Sys2Proof

namespace Sys2Proof.Machine

/-! What issuing an illegal word does (rules R46, R63) -/

theorem coreTurn_of_illegal {s : State} (hb : s.flags.busy = true) (hd : ∀ i, decode s.latch ≠ .ok i) :
    coreTurn s = .next (raise .illegalCommand s) := by
  simp only [coreTurn, hb, if_true, runLatched]
  split
  next i hi => exact absurd hi (hd i)
  next => rfl

theorem step_of_core_illegal {s : State} {rest : List Turn} (ht : s.turns = .core :: rest)
    (hb : s.flags.busy = true) (hd : ∀ i, decode s.latch ≠ .ok i) :
    step s = .next (raise .illegalCommand { s with turns := rest }) := by
  rw [step_of_core ht]
  exact coreTurn_of_illegal hb hd

theorem core_run_of_step_next {s t : State} (h : step s = .next t) (k : Nat) :
    Host.Core.run Sys2Proof.core (k + 1) s = Host.Core.run Sys2Proof.core k t := by
  have hstep : Sys2Proof.core.step s = .next t := h
  simp only [Host.Core.run, hstep]

theorem run_write_cmd_illegal {s : State} {c : Word} {rest : List Turn} (hd : ∀ i, decode c ≠ .ok i)
    (hb : s.flags.busy = false) (ht : s.turns = .host (.regWrite cmdOffset c) :: .core :: rest) :
    Host.Core.run Sys2Proof.core 2 s = .next (raise .illegalCommand (issue c { s with turns := rest })) := by
  rw [core_run_of_step_next (step_write_cmd ht hb), core_run_one]
  exact step_of_core_illegal rfl rfl hd

end Sys2Proof.Machine

namespace Sys2Proof.Proofs

open Sys2Proof.Machine

/-- Settles O2: SET_KEY by its own row, every other command by the row that fixes all 32 bits. -/
theorem opcodeTable : Obligations.OpcodeTable := by
  intro c
  refine ⟨fun _ => decode_eq_setKey_iff, ?_, ?_, ?_, ?_, ?_, ?_, ?_, ?_, ?_, ?_, ?_, ?_⟩ <;>
    exact decode_eq_ok_iff_selects_row nofun

/-- Settles O3: a word decodes exactly when its three fields pass the tests of rule R63; issuing any other word is
`issue` followed by `raise`. -/
theorem illegalWordsFail : Obligations.IllegalWordsFail :=
  fun _ => ⟨illegal_iff, fun hd _ _ hb ht => run_write_cmd_illegal hd hb ht⟩

end Sys2Proof.Proofs
end

section
/-! The field GF(2^8) (rule R80): multiplication is additive in both factors and multiplies by x through `xtime`, from
which its laws follow by induction over the bits of a factor; the field inverse and the S-box (rule R81); and the
obligations about both. -/

namespace Sys2Proof.Machine

/-! Multiplication by x -/

theorem ite_xor (p q : Bool) (t : Byte) :
    (if p ^^ q then t else 0#8) = (if p then t else 0#8) ^^^ (if q then t else 0#8) := by
  cases p <;> cases q <;> simp

theorem xtime_xor (a b : Byte) : xtime (a ^^^ b) = xtime a ^^^ xtime b := by
  simp only [xtime, BitVec.shiftLeft_xor_distrib, BitVec.getLsbD_xor, ite_xor]
  ac_rfl

theorem xtimes_xor (i : Nat) (a b : Byte) : xtimes i (a ^^^ b) = xtimes i a ^^^ xtimes i b := by
  induction i with
  | zero => rfl
  | succ i ih => simp only [xtimes, ih, xtime_xor]

theorem xtimes_eq_iterate (i : Nat) : xtimes i = xtime^[i] := by
  induction i with
  | zero => rfl
  | succ i ih =>
    funext a
    rw [xtimes, ih, Function.iterate_succ_apply']

theorem xtimes_xtime (i : Nat) (a : Byte) : xtimes i (xtime a) = xtime (xtimes i a) := by
  rw [xtimes_eq_iterate, ← Function.iterate_succ_apply, Function.iterate_succ_apply']

/-- `xtime` on the number a byte stands for. -/
theorem toNat_xtime (a : Byte) :
    (xtime a).toNat = (2 * a.toNat % 256) ^^^ (if a.toNat ≥ 128 then 0x1B else 0) := by
  have htop : a.getLsbD 7 = decide (a.toNat ≥ 128) := BitVec.msb_eq_decide a
  have hshift : (a <<< 1).toNat = 2 * a.toNat % 256 := by
    rw [BitVec.toNat_shiftLeft, Nat.shiftLeft_eq, pow_one, mul_comm]
  rw [xtime, BitVec.toNat_xor, hshift, htop]
  by_cases h : a.toNat ≥ 128 <;> simp [h]

/-! Multiplication -/

/-- The sum that defines `gmul`, taken over the bits listed and added to `z`. -/
def addProducts (a b : Byte) (bits : List Nat) (z : Byte) : Byte :=
  bits.foldl (fun acc i => if b.getLsbD i then acc ^^^ xtimes i a else acc) z

theorem gmul_eq_addProducts (a b : Byte) : gmul a b = addProducts a b (List.range 8) 0#8 := rfl

theorem addProducts_cons (a b : Byte) (i : Nat) (bits : List Nat) (z : Byte) :
    addProducts a b (i :: bits) z = addProducts a b bits (z ^^^ if b.getLsbD i then xtimes i a else 0#8) := by
  rw [addProducts, List.foldl_cons]
  cases b.getLsbD i <;> simp [addProducts]

theorem addProducts_xor (a b c : Byte) (bits : List Nat) (y z : Byte) :
    addProducts a (b ^^^ c) bits (y ^^^ z) = addProducts a b bits y ^^^ addProducts a c bits z := by
  induction bits generalizing y z with
  | nil => rfl
  | cons i bits ih =>
    rw [addProducts_cons, addProducts_cons, addProducts_cons, ← ih, BitVec.getLsbD_xor, ite_xor]
    congr 1
    ac_rfl

theorem gmul_xor (a b c : Byte) : gmul a (b ^^^ c) = gmul a b ^^^ gmul a c := by
  simp only [gmul_eq_addProducts, ← addProducts_xor, BitVec.xor_zero]

@[simp] theorem gmul_zero (a : Byte) : gmul a 0x00#8 = 0x00#8 := rfl

@[simp] theorem gmul_one (a : Byte) : gmul a 0x01#8 = a := BitVec.zero_xor

theorem gmul_two (a : Byte) : gmul a 0x02#8 = xtime a := BitVec.zero_xor

@[simp] theorem one_gmul (a : Byte) : gmul 0x01#8 a = a := by
  revert a
  decide +kernel

theorem gmul_power (a : Byte) {i : Nat} (hi : i < 8) : gmul a (xtimes i 0x01#8) = xtimes i a := by
  interval_cases i <;> exact BitVec.zero_xor

/-- Every byte is a sum of the powers of x below the eighth. -/
theorem byte_induction {P : Byte → Prop} (xor : ∀ a b, P a → P b → P (a ^^^ b))
    (power : ∀ i < 8, P (xtimes i 0x01#8)) (b : Byte) : P b := by
  have hzero : P 0#8 := xor _ _ (power 0 (by decide)) (power 0 (by decide))
  have hsum : ∀ (bits : List Nat), (∀ i ∈ bits, i < 8) → ∀ z, P z → P (addProducts 0x01#8 b bits z) := by
    intro bits hbits
    induction bits with
    | nil => exact fun z hz => hz
    | cons i bits ih =>
      intro z hz
      obtain ⟨hi, hbits⟩ := List.forall_mem_cons.mp hbits
      rw [addProducts_cons]
      refine ih hbits _ (xor _ _ hz ?_)
      split
      · exact power i hi
      · exact hzero
  rw [← one_gmul b, gmul_eq_addProducts]
  exact hsum _ (fun i => List.mem_range.mp) _ hzero

theorem xor_gmul (a b c : Byte) : gmul (a ^^^ b) c = gmul a c ^^^ gmul b c := by
  induction c using byte_induction with
  | xor c d hc hd =>
    rw [gmul_xor, hc, hd, gmul_xor, gmul_xor]
    ac_rfl
  | power i hi => rw [gmul_power _ hi, gmul_power _ hi, gmul_power _ hi, xtimes_xor]

theorem xtime_gmul (a b : Byte) : gmul (xtime a) b = xtime (gmul a b) := by
  induction b using byte_induction with
  | xor b c hb hc => rw [gmul_xor, hb, hc, ← xtime_xor, ← gmul_xor]
  | power i hi => rw [gmul_power _ hi, gmul_power _ hi, xtimes_xtime]

theorem xtimes_gmul (i : Nat) (a b : Byte) : gmul (xtimes i a) b = xtimes i (gmul a b) := by
  induction i with
  | zero => rfl
  | succ i ih => rw [xtimes, xtime_gmul, ih, xtimes]

theorem gmul_comm (a b : Byte) : gmul a b = gmul b a := by
  induction b using byte_induction with
  | xor b c hb hc => rw [gmul_xor, xor_gmul, hb, hc]
  | power i hi => rw [gmul_power _ hi, xtimes_gmul, one_gmul]

@[simp] theorem zero_gmul (a : Byte) : gmul 0x00#8 a = 0x00#8 := by
  rw [gmul_comm, gmul_zero]

theorem gmul_assoc (a b c : Byte) : gmul (gmul a b) c = gmul a (gmul b c) := by
  induction c using byte_induction with
  | xor c d hc hd => rw [gmul_xor, hc, hd, gmul_xor, gmul_xor]
  | power i hi => rw [gmul_power _ hi, gmul_power _ hi, gmul_comm a (xtimes i b),
      xtimes_gmul, gmul_comm b]

/-! The inverse and the S-box (rule R81) -/

/-- The affine map of rule R81. -/
def affineMap (b : Byte) : Byte :=
  b ^^^ b.rotateLeft 1 ^^^ b.rotateLeft 2 ^^^ b.rotateLeft 3 ^^^ b.rotateLeft 4 ^^^ 0x63#8

/-- The affine map that undoes `affineMap`. -/
def invAffineMap (b : Byte) : Byte := b.rotateLeft 1 ^^^ b.rotateLeft 3 ^^^ b.rotateLeft 6 ^^^ 0x05#8

theorem affineMap_invAffineMap (b : Byte) : affineMap (invAffineMap b) = b := by
  revert b
  decide +kernel

/-- The field inverse, 0 for 0, read back from the S-box: the byte whose affine image is `SBOX[a]`. -/
def fieldInverse (a : Byte) : Byte := invAffineMap (sbox a)

@[simp] theorem fieldInverse_zero : fieldInverse 0#8 = 0#8 := by decide

theorem gmul_fieldInverse {a : Byte} (ha : a ≠ 0#8) : gmul a (fieldInverse a) = 0x01#8 := by
  revert a
  decide +kernel

theorem eq_fieldInverse_of_gmul_eq_one {a c : Byte} (ha : a ≠ 0#8) (hc : gmul a c = 0x01#8) : c = fieldInverse a := by
  calc c = gmul (gmul a (fieldInverse a)) c := by rw [gmul_fieldInverse ha, one_gmul]
    _ = gmul (fieldInverse a) (gmul a c) := by rw [gmul_comm a, gmul_assoc]
    _ = fieldInverse a := by rw [hc, gmul_one]

theorem sbox_eq_affineMap_fieldInverse (a : Byte) : sbox a = affineMap (fieldInverse a) :=
  (affineMap_invAffineMap _).symm

@[simp] theorem invSbox_sbox (a : Byte) : invSbox (sbox a) = a := by
  revert a
  decide +kernel

@[simp] theorem sbox_invSbox (a : Byte) : sbox (invSbox a) = a := by
  revert a
  decide +kernel

end Sys2Proof.Machine

namespace Sys2Proof.Proofs

open Sys2Proof.Machine

/-- Settles O43: the laws of `gmul` follow by induction over the bits of a factor; the inverse is read back from the
S-box. -/
theorem fieldLaws : Obligations.FieldLaws := by
  refine ⟨toNat_xtime, fun a b => ?_, gmul_comm, gmul_assoc, gmul_xor,
    fun a => ⟨gmul_one a, gmul_two a, gmul_zero a⟩,
    fun a ha => ⟨fieldInverse a, gmul_fieldInverse ha, fun _ => eq_fieldInverse_of_gmul_eq_one ha⟩,
    by decide, by decide, by decide⟩
  simp only [gmul, xtimes_eq_iterate]

/-- Settles O44: each entry of the table is the affine map of the field inverse, and the two tables undo each other. -/
theorem sboxDefinition : Obligations.SboxDefinition := by
  refine ⟨fun a => ⟨fieldInverse a, ?_, sbox_eq_affineMap_fieldInverse a⟩,
    fun a => ⟨invSbox_sbox a, sbox_invSbox a⟩, by decide⟩
  by_cases ha : a = 0#8
  · exact .inl ⟨ha, by rw [ha, fieldInverse_zero]⟩
  · exact .inr ⟨ha, gmul_fieldInverse ha⟩

end Sys2Proof.Proofs
end

section
/-! The columns of the state (rule R86): what `mixColumns` and `invMixColumns` do to one column, and that the second
matrix undoes the first; and the obligation about them. -/

namespace Sys2Proof.Machine

/-! The cells of a block (rule R83) -/

theorem getElem_eq_cell (S : Block) {i : Nat} (hi : i < 16) : S[i] = cell S ⟨i / 4, by omega⟩ (i % 4) := by
  have h : i % 4 % 4 + 4 * (i / 4) = i := by omega
  simp only [cell, h]

theorem getElem_column_eq_cell (S : Block) (c r : Fin 4) : S[4 * c.val + r.val] = cell S c r.val := by
  have h : r.val % 4 + 4 * c.val = 4 * c.val + r.val := by omega
  simp only [cell, h]

theorem cell_congr (S : Block) (c : Fin 4) {r r' : Nat} (h : r % 4 = r' % 4) : cell S c r = cell S c r' := by
  simp only [cell, h]

theorem cell_mod (S : Block) (c : Fin 4) (r : Nat) : cell S c (r % 4) = cell S c r := cell_congr S c (Nat.mod_mod ..)

theorem cell_mod_add (S : Block) (c : Fin 4) (r k : Nat) : cell S c (r % 4 + k) = cell S c (r + k) :=
  cell_congr S c (Nat.mod_add_mod ..)

theorem cell_add_four (S : Block) (c : Fin 4) (r : Nat) : cell S c (r + 4) = cell S c r :=
  cell_congr S c (Nat.add_mod_right ..)

theorem block_ext_cell {S T : Block} (h : ∀ c r, cell S c r = cell T c r) : S = T := by
  ext i hi
  rw [getElem_eq_cell S hi, getElem_eq_cell T hi, h]

theorem take_four_eq_cells (S : Block) : S.toList.take 4 = [cell S 0 0, cell S 0 1, cell S 0 2, cell S 0 3] := by
  apply List.ext_getElem
  · simp
  · intro i h1 h2
    have hi : i < 4 := h2
    interval_cases i <;> simp [cell]

/-! One row of each matrix -/

/-- The row `2 3 1 1` of `MixColumns`. -/
def mixRow (a b c d : Byte) : Byte := gmul 0x02#8 a ^^^ gmul 0x03#8 b ^^^ c ^^^ d

/-- The row `14 11 13 9` of `InvMixColumns`. -/
def invMixRow (a b c d : Byte) : Byte := gmul 0x0E#8 a ^^^ gmul 0x0B#8 b ^^^ gmul 0x0D#8 c ^^^ gmul 0x09#8 d

theorem cell_mixColumns (S : Block) (c : Fin 4) (r : Nat) :
    cell (mixColumns S) c r = mixRow (cell S c r) (cell S c (r + 1)) (cell S c (r + 2)) (cell S c (r + 3)) := by
  have hrow : (r % 4 + 4 * c.val) % 4 = r % 4 := by omega
  have hcol : (r % 4 + 4 * c.val) / 4 = c.val := by omega
  rw [cell, mixColumns, Vector.getElem_ofFn]
  simp only [hrow, hcol, cell_mod, cell_mod_add, mixRow]

theorem cell_invMixColumns (S : Block) (c : Fin 4) (r : Nat) :
    cell (invMixColumns S) c r =
      invMixRow (cell S c r) (cell S c (r + 1)) (cell S c (r + 2)) (cell S c (r + 3)) := by
  have hrow : (r % 4 + 4 * c.val) % 4 = r % 4 := by omega
  have hcol : (r % 4 + 4 * c.val) / 4 = c.val := by omega
  rw [cell, invMixColumns, Vector.getElem_ofFn]
  simp only [hrow, hcol, cell_mod, cell_mod_add, invMixRow]

/-- The four rows of a column, each the one before it rotated by one place (rule R86). -/
theorem mixColumns_column (S : Block) (c : Fin 4) :
    cell (mixColumns S) c 0 = mixRow (cell S c 0) (cell S c 1) (cell S c 2) (cell S c 3) ∧
    cell (mixColumns S) c 1 = mixRow (cell S c 1) (cell S c 2) (cell S c 3) (cell S c 0) ∧
    cell (mixColumns S) c 2 = mixRow (cell S c 2) (cell S c 3) (cell S c 0) (cell S c 1) ∧
    cell (mixColumns S) c 3 = mixRow (cell S c 3) (cell S c 0) (cell S c 1) (cell S c 2) :=
  ⟨cell_mixColumns S c 0, cell_mixColumns S c 1, cell_mixColumns S c 2, cell_mixColumns S c 3⟩

theorem invMixColumns_column (S : Block) (c : Fin 4) :
    cell (invMixColumns S) c 0 = invMixRow (cell S c 0) (cell S c 1) (cell S c 2) (cell S c 3) ∧
    cell (invMixColumns S) c 1 = invMixRow (cell S c 1) (cell S c 2) (cell S c 3) (cell S c 0) ∧
    cell (invMixColumns S) c 2 = invMixRow (cell S c 2) (cell S c 3) (cell S c 0) (cell S c 1) ∧
    cell (invMixColumns S) c 3 = invMixRow (cell S c 3) (cell S c 0) (cell S c 1) (cell S c 2) :=
  ⟨cell_invMixColumns S c 0, cell_invMixColumns S c 1, cell_invMixColumns S c 2, cell_invMixColumns S c 3⟩

/-- The product of the two matrices is the identity, seen in one row: the coefficients of `a` add up to 1, those of `b`,
`c` and `d` to 0. -/
theorem invMixRow_mixRow (a b c d : Byte) :
    invMixRow (mixRow a b c d) (mixRow b c d a) (mixRow c d a b) (mixRow d a b c) = a := by
  have ha : gmul 0x0E#8 0x02#8 ^^^ 0x0B#8 ^^^ 0x0D#8 ^^^ gmul 0x09#8 0x03#8 = 0x01#8 := by decide
  have hb : gmul 0x0E#8 0x03#8 ^^^ gmul 0x0B#8 0x02#8 ^^^ 0x0D#8 ^^^ 0x09#8 = 0x00#8 := by decide
  have hc : 0x0E#8 ^^^ gmul 0x0B#8 0x03#8 ^^^ gmul 0x0D#8 0x02#8 ^^^ 0x09#8 = 0x00#8 := by decide
  have hd : 0x0E#8 ^^^ 0x0B#8 ^^^ gmul 0x0D#8 0x03#8 ^^^ gmul 0x09#8 0x02#8 = 0x00#8 := by decide
  calc invMixRow (mixRow a b c d) (mixRow b c d a) (mixRow c d a b) (mixRow d a b c)
      = gmul (gmul 0x0E#8 0x02#8 ^^^ 0x0B#8 ^^^ 0x0D#8 ^^^ gmul 0x09#8 0x03#8) a ^^^
        gmul (gmul 0x0E#8 0x03#8 ^^^ gmul 0x0B#8 0x02#8 ^^^ 0x0D#8 ^^^ 0x09#8) b ^^^
        gmul (0x0E#8 ^^^ gmul 0x0B#8 0x03#8 ^^^ gmul 0x0D#8 0x02#8 ^^^ 0x09#8) c ^^^
        gmul (0x0E#8 ^^^ 0x0B#8 ^^^ gmul 0x0D#8 0x03#8 ^^^ gmul 0x09#8 0x02#8) d := by
        simp only [invMixRow, mixRow, gmul_xor, xor_gmul, gmul_assoc]
        ac_rfl
    _ = a := by rw [ha, hb, hc, hd]; simp

theorem invMixColumns_mixColumns (S : Block) : invMixColumns (mixColumns S) = S := by
  apply block_ext_cell
  intro c r
  have h4 : cell S c (r + 4) = cell S c r := cell_add_four S c r
  have h5 : cell S c (r + 5) = cell S c (r + 1) := cell_add_four S c (r + 1)
  have h6 : cell S c (r + 6) = cell S c (r + 2) := cell_add_four S c (r + 2)
  simp only [cell_invMixColumns, cell_mixColumns, Nat.add_assoc, Nat.reduceAdd, h4, h5, h6, invMixRow_mixRow]

end Sys2Proof.Machine

namespace Sys2Proof.Proofs

open Sys2Proof.Machine

/-- Settles O46: cell by cell each function is its row of the matrix, rotated; the rows of the two matrices multiply to
the identity. -/
theorem mixColumnsMatrix : Obligations.MixColumnsMatrix := by
  refine ⟨fun S c => ?_, fun S h => ?_, invMixColumns_mixColumns⟩
  · obtain ⟨b0, b1, b2, b3⟩ := mixColumns_column S c
    obtain ⟨d0, d1, d2, d3⟩ := invMixColumns_column S c
    simp only [getElem_column_eq_cell]
    rw [Fin.val_zero, Fin.val_one, Fin.val_two, show (3 : Fin 4).val = 3 from rfl, b0, b1, b2, b3, d0, d1, d2, d3]
    simp only [mixRow, invMixRow, true_and]
    refine ⟨?_, ?_, ?_, ?_, ?_, ?_⟩ <;> ac_rfl
  · obtain ⟨b0, b1, b2, b3⟩ := mixColumns_column S 0
    rw [take_four_eq_cells] at h ⊢
    simp only [List.cons.injEq, and_true] at h
    obtain ⟨a0, a1, a2, a3⟩ := h
    rw [b0, b1, b2, b3, a0, a1, a2, a3]
    decide

end Sys2Proof.Proofs
end

section
/-! The key schedule (rule R82): its words as they stand while the expansion adds them, the recurrence they meet, and the
round keys they make; and the obligation about it. -/

namespace Sys2Proof.Machine

/-! The words of the schedule -/

/-- The schedule after `k` words have been added to the key's own. -/
def scheduleWords (key : List Byte) (nk k : Nat) : List (List Byte) :=
  (List.range' nk k).foldl (appendKeyWord nk) (masterKeyWords key nk)

theorem keyExpand_eq_scheduleWords (key : List Byte) (bits : Nat) :
    keyExpand key bits =
      scheduleWords key (bits / 32) (4 * (bits / 32 + 6 + 1) - bits / 32) := rfl

theorem scheduleWords_succ (key : List Byte) (nk k : Nat) :
    scheduleWords key nk (k + 1) = appendKeyWord nk (scheduleWords key nk k) (nk + k) := by
  rw [scheduleWords, List.range'_1_concat, List.foldl_append]
  rfl

@[simp] theorem length_scheduleWords (key : List Byte) (nk k : Nat) : (scheduleWords key nk k).length = nk + k := by
  induction k with
  | zero => simp [scheduleWords, masterKeyWords]
  | succ k ih => simp [scheduleWords_succ, appendKeyWord, ih, Nat.add_assoc]

/-- A word, once there, stays. -/
theorem scheduleWords_getD_of_le (key : List Byte) {nk k m i : Nat} (hkm : k ≤ m) (hi : i < nk + k) :
    (scheduleWords key nk m).getD i [] = (scheduleWords key nk k).getD i [] := by
  induction m, hkm using Nat.le_induction with
  | base => rfl
  | succ m hm ih =>
    rw [← ih, scheduleWords_succ, appendKeyWord, List.getD_append _ _ _ _ (by simp; omega)]

theorem scheduleWords_getD_master (key : List Byte) {nk i : Nat} (k : Nat) (hi : i < nk) :
    (scheduleWords key nk k).getD i [] = slice key (4 * i) 4 := by
  rw [scheduleWords_getD_of_le key (Nat.zero_le k) hi]
  simp [scheduleWords, masterKeyWords, List.getD_eq_getElem?_getD, hi]

/-- The recurrence of rule R82. -/
theorem scheduleWords_getD_recurrence (key : List Byte) {nk k i : Nat} (hnk : 0 < nk) (hle : nk ≤ i) (hi : i < nk + k) :
    let w := scheduleWords key nk k
    w.getD i [] = xorBytes (w.getD (i - nk) []) (scheduleTemp nk i (w.getD (i - 1) [])) := by
  intro w
  obtain ⟨j, rfl⟩ := Nat.exists_eq_add_of_le hle
  have hprev : ∀ l < nk + j, w.getD l [] = (scheduleWords key nk j).getD l [] :=
    fun l hl => scheduleWords_getD_of_le key (by omega) hl
  have hnew : w.getD (nk + j) [] = (scheduleWords key nk (j + 1)).getD (nk + j) [] :=
    scheduleWords_getD_of_le key (by omega) (by omega)
  rw [hnew, hprev _ (by omega), hprev _ (by omega), scheduleWords_succ, appendKeyWord,
    List.getD_append_right _ _ _ _ (by simp)]
  simp

/-! Words of four bytes -/

theorem length_scheduleTemp {nk i : Nat} {prev : List Byte} (h : prev.length = 4) :
    (scheduleTemp nk i prev).length = 4 := by
  simp only [scheduleTemp]
  split
  · simp [subWord, rotWord, rcon, h]
  · split <;> simp [subWord, h]

theorem length_scheduleWords_getD {key : List Byte} {nk k : Nat} (hnk : 0 < nk) (hkey : key.length = 4 * nk) {i : Nat}
    (hi : i < nk + k) : ((scheduleWords key nk k).getD i []).length = 4 := by
  induction i using Nat.strong_induction_on with
  | _ i ih =>
    rcases Nat.lt_or_ge i nk with hlt | hge
    · rw [scheduleWords_getD_master key k hlt]
      simp [hkey]; omega
    · have hback := ih (i - nk) (by omega) (by omega)
      have htemp := length_scheduleTemp (nk := nk) (i := i) (ih (i - 1) (by omega) (by omega))
      rw [scheduleWords_getD_recurrence key hnk hge hi, length_xorBytes, hback, htemp, Nat.min_self]

/-- The round constants of rule R82 in figures. -/
theorem rcon_eq {j : Nat} (h1 : 1 ≤ j) (h10 : j ≤ 10) :
    rcon j = [[0x01#8, 0x02#8, 0x04#8, 0x08#8, 0x10#8, 0x20#8, 0x40#8, 0x80#8, 0x1b#8, 0x36#8].getD (j - 1) 0#8,
      0x00#8, 0x00#8, 0x00#8] := by
  interval_cases j <;> rfl

theorem scheduleTemp_word {nk i : Nat} (b0 b1 b2 b3 : Byte) (h1 : 1 ≤ i / nk) (h10 : i / nk ≤ 10) :
    scheduleTemp nk i [b0, b1, b2, b3] =
      if i % nk = 0 then
        [sbox b1 ^^^ [0x01#8, 0x02#8, 0x04#8, 0x08#8, 0x10#8, 0x20#8, 0x40#8, 0x80#8, 0x1b#8, 0x36#8].getD
            (i / nk - 1) 0#8, sbox b2, sbox b3, sbox b0]
      else if nk = 8 ∧ i % 8 = 4 then [sbox b0, sbox b1, sbox b2, sbox b3]
      else [b0, b1, b2, b3] := by
  rw [scheduleTemp, rcon_eq h1 h10]
  simp [subWord, rotWord, xorBytes]

/-! The round keys (rules R16, R82) -/

theorem slice_add (l : List Byte) (a m n : Nat) : slice l a (m + n) = slice l a m ++ slice l (a + m) n := by
  rw [slice, slice, slice, List.take_add, List.drop_drop]

theorem slice_flatten_word {ws : List (List Byte)} (h : ∀ w ∈ ws, w.length = 4) {i : Nat} (hi : i < ws.length) :
    slice ws.flatten (4 * i) 4 = ws.getD i [] := by
  induction ws generalizing i with
  | nil => simp at hi
  | cons w ws ih =>
    obtain ⟨hw, hws⟩ := List.forall_mem_cons.mp h
    cases i with
    | zero => simp [slice, List.take_left' hw]
    | succ i =>
      have hdrop : (w ++ ws.flatten).drop (4 * (i + 1)) = ws.flatten.drop (4 * i) := by
        rw [show 4 * (i + 1) = w.length + 4 * i by omega, List.drop_length_add_append]
      rw [List.getD_cons_succ, ← ih hws (by simpa using hi), List.flatten_cons, slice, hdrop, slice]

theorem slice_fixed {n a k : Nat} {l : List Byte} (hn : a + k ≤ n) (hl : a + k ≤ l.length) :
    slice (fixed n l).toList a k = slice l a k := by
  have h := congrArg (List.drop a) (take_fixed n (a + k) l hn hl)
  simpa [slice, List.drop_take] using h

theorem length_scheduleWords_mem {key : List Byte} {nk k : Nat} (hnk : 0 < nk) (hkey : key.length = 4 * nk) :
    ∀ w ∈ scheduleWords key nk k, w.length = 4 := by
  intro w hw
  obtain ⟨i, hi, rfl⟩ := List.getElem_of_mem hw
  rw [← List.getD_eq_getElem _ [] hi]
  exact length_scheduleWords_getD hnk hkey (by simpa using hi)

/-- Round key `r` is made of the words `4r` to `4r+3`. -/
theorem roundKey_eq_words {ws : List (List Byte)} (h : ∀ w ∈ ws, w.length = 4) {r : Nat} (hr : 4 * r + 4 ≤ ws.length)
    (h60 : r < 15) :
    slice (fixed 240 ws.flatten).toList (16 * r) 16 =
      ws.getD (4 * r) [] ++ ws.getD (4 * r + 1) [] ++ ws.getD (4 * r + 2) [] ++ ws.getD (4 * r + 3) [] := by
  have hlen : ws.flatten.length = 4 * ws.length := by
    rw [List.length_flatten, List.map_congr_left h, List.map_const', List.sum_replicate, smul_eq_mul, mul_comm]
  have hsplit : slice ws.flatten (16 * r) 16 =
      slice ws.flatten (4 * (4 * r)) 4 ++ slice ws.flatten (4 * (4 * r + 1)) 4 ++
        slice ws.flatten (4 * (4 * r + 2)) 4 ++ slice ws.flatten (4 * (4 * r + 3)) 4 := by
    rw [show 4 * (4 * r) = 16 * r by omega, show 4 * (4 * r + 1) = 16 * r + 4 by omega,
      show 4 * (4 * r + 2) = 16 * r + (4 + 4) by omega, show 4 * (4 * r + 3) = 16 * r + (4 + 4 + 4) by omega,
      ← slice_add, ← slice_add, ← slice_add]
  rw [slice_fixed (by omega) (by omega), hsplit, slice_flatten_word h (by omega), slice_flatten_word h (by omega),
    slice_flatten_word h (by omega), slice_flatten_word h (by omega)]

end Sys2Proof.Machine

namespace Sys2Proof.Proofs

open Sys2Proof.Machine

/-- Settles O45: the expansion adds one word at a time and changes none that is there, so each word meets the recurrence
in the finished schedule; every word has four bytes, so a round key is four words. -/
theorem keySchedule : Obligations.KeySchedule := by
  intro key bits nk hbits hnk hkey
  have hcount : nk = 4 ∨ nk = 6 ∨ nk = 8 := by omega
  have hkey : key.length = 4 * nk := by omega
  have hexpand : keyExpand key bits = scheduleWords key nk (4 * (nk + 6 + 1) - nk) := by
    rw [keyExpand_eq_scheduleWords, hnk]
  have hlength : (scheduleWords key nk (4 * (nk + 6 + 1) - nk)).length = 4 * (nk + 6 + 1) := by
    rw [length_scheduleWords]
    omega
  simp only [hexpand]
  refine ⟨hlength, fun i hi => scheduleWords_getD_master key _ hi, fun i hle hi => ?_, fun r hr =>
    roundKey_eq_words (length_scheduleWords_mem (by omega) hkey) (by omega) (by omega)⟩
  obtain ⟨b0, b1, b2, b3, hprev⟩ := List.length_eq_four.mp
    (length_scheduleWords_getD (k := 4 * (nk + 6 + 1) - nk) (i := i - 1) (by omega) hkey (by omega))
  have hpos : 1 ≤ i / nk := (Nat.one_le_div_iff (by omega)).mpr hle
  have hmax : i / nk ≤ 10 := by
    rcases hcount with rfl | rfl | rfl <;> omega
  refine ⟨b0, b1, b2, b3, hprev, ?_⟩
  rw [scheduleWords_getD_recurrence key (by omega) hle (by omega), hprev, scheduleTemp_word b0 b1 b2 b3 hpos hmax]

end Sys2Proof.Proofs
end

section
/-! SET_KEY and the two block commands (rules R88 to R90), one equation for each way they can end; and the obligations
about them. -/

namespace Sys2Proof.Machine

/-! SET_KEY (rule R88) -/

theorem allValid_aesKeyOperand_iff (bits : Nat) (s : State) :
    allValid [aesKeyOperand bits s] s = true ↔ s.regs.keyAddr.toNat + bits / 8 ≤ s.params.opmemBytes := by
  rw [allValid_iff, List.forall_mem_singleton]
  rfl

theorem exec_setKey_of_illegal {s : State} {bits : Nat} (hl : legalKeyBits bits = false) :
    exec (.setKey bits) s = .next (raise .invalidKeyLength s) := by
  show execSetKey bits s = _
  rw [execSetKey, hl]
  rfl

theorem exec_setKey_of_badRange {s : State} {bits : Nat} (hl : legalKeyBits bits = true)
    (hv : s.params.opmemBytes < s.regs.keyAddr.toNat + bits / 8) :
    exec (.setKey bits) s = .next (raise .badRange s) := by
  have hinvalid : allValid [aesKeyOperand bits s] s = false := by
    rw [← Bool.not_eq_true, allValid_aesKeyOperand_iff, Nat.not_le]
    exact hv
  show execSetKey bits s = _
  rw [execSetKey, hl, hinvalid]
  rfl

theorem exec_setKey_of_read {s : State} {bits : Nat} {key : List Byte} (hl : legalKeyBits bits = true)
    (hv : s.regs.keyAddr.toNat + bits / 8 ≤ s.params.opmemBytes)
    (hr : s.opmem.read s.regs.keyAddr.toNat (bits / 8) = .ok key) :
    exec (.setKey bits) s = .next (complete (setAes (AesContext.ofKey key bits) s)) := by
  show execSetKey bits s = _
  rw [execSetKey, hl, (allValid_aesKeyOperand_iff bits s).mpr hv]
  exact withInput_ok (o := aesKeyOperand bits s) hr _

/-- The stored schedule with its padding written out. -/
theorem AesContext.ofKey_eq_padded (key : List Byte) (bits : Nat) :
    AesContext.ofKey key bits =
      { rk := fixed 240 ((keyExpand key bits).flatten ++ zeros (240 - 16 * (bits / 32 + 6 + 1)))
        nr := bits / 32 + 6
        nk := bits / 32
        bits := bits
        valid := true } := by
  rw [fixed_append_zeros]
  rfl

/-! The block commands (rules R89, R90): one command, two block functions -/

/-- The command that puts one block through a block function. -/
def blockCommand (cipher : RoundKeys → Nat → Block → Block) (s : State) : Result :=
  if !s.aes.valid then failed .noKey s
  else if !allValid [srcBlockOperand s, dstOperand 16 s] s then failed .badRange s
  else
    withInput (srcBlockOperand s) s fun b =>
      succeed (store (dstOperand 16 s) (cipher s.aes.rk s.aes.nr (fixed 16 b)).toList s)

theorem exec_encryptBlock (s : State) : exec .encryptBlock s = blockCommand aesEnc s := rfl

theorem exec_decryptBlock (s : State) : exec .decryptBlock s = blockCommand aesDec s := rfl

theorem allValid_blockOperands_iff (s : State) :
    allValid [srcBlockOperand s, dstOperand 16 s] s = true ↔
      s.regs.srcAddr.toNat + 16 ≤ s.params.opmemBytes ∧ s.regs.dstAddr.toNat + 16 ≤ s.params.opmemBytes := by
  rw [allValid_iff, List.forall_mem_cons, List.forall_mem_singleton]
  rfl

theorem blockCommand_of_noKey {s : State} (cipher : RoundKeys → Nat → Block → Block) (hk : s.aes.valid = false) :
    blockCommand cipher s = .next (raise .noKey s) := by
  rw [blockCommand, hk]
  rfl

theorem blockCommand_of_badRange {s : State} (cipher : RoundKeys → Nat → Block → Block) (hk : s.aes.valid = true)
    (hv : s.params.opmemBytes < s.regs.srcAddr.toNat + 16 ∨ s.params.opmemBytes < s.regs.dstAddr.toNat + 16) :
    blockCommand cipher s = .next (raise .badRange s) := by
  have hinvalid : allValid [srcBlockOperand s, dstOperand 16 s] s = false := by
    rw [← Bool.not_eq_true, allValid_blockOperands_iff]
    omega
  rw [blockCommand, hk, hinvalid]
  rfl

theorem blockCommand_of_read {s : State} (cipher : RoundKeys → Nat → Block → Block) {b : List Byte}
    (hk : s.aes.valid = true) (hs : s.regs.srcAddr.toNat + 16 ≤ s.params.opmemBytes)
    (hd : s.regs.dstAddr.toNat + 16 ≤ s.params.opmemBytes) (hr : s.opmem.read s.regs.srcAddr.toNat 16 = .ok b) :
    blockCommand cipher s =
      .next (complete (store (dstOperand 16 s) (cipher s.aes.rk s.aes.nr (fixed 16 b)).toList s)) := by
  rw [blockCommand, hk, (allValid_blockOperands_iff s).mpr ⟨hs, hd⟩]
  exact withInput_ok (o := srcBlockOperand s) hr _

end Sys2Proof.Machine

namespace Sys2Proof.Proofs

open Sys2Proof.Machine

/-- Settles O13: the two errors in the order of the checks, then the key as read, expanded and padded. -/
theorem setKeyRule : Obligations.SetKeyRule := by
  refine ⟨by decide, by decide, by decide, fun s bits => ⟨fun hillegal => ?_, fun hlegal => ?_⟩⟩
  · exact exec_setKey_of_illegal (Bool.eq_false_iff.mpr fun h => hillegal ((legalKeyBits_iff bits).mp h))
  · have hl := (legalKeyBits_iff bits).mpr hlegal
    refine ⟨exec_setKey_of_badRange hl, fun hv key hr => ?_⟩
    rw [exec_setKey_of_read hl hv hr, AesContext.ofKey_eq_padded]
    rfl

/-- Settles O14: the block command with the function `AES_ENC`. -/
theorem encryptBlockRule : Obligations.EncryptBlockRule :=
  ⟨by decide, fun _ => ⟨blockCommand_of_noKey aesEnc, fun hk => ⟨blockCommand_of_badRange aesEnc hk,
    fun hs hd _ => blockCommand_of_read aesEnc hk hs hd⟩⟩⟩

/-- Settles O15: the block command with the function `AES_DEC`. -/
theorem decryptBlockRule : Obligations.DecryptBlockRule :=
  ⟨by decide, fun _ => ⟨blockCommand_of_noKey aesDec, fun hk => ⟨blockCommand_of_badRange aesDec hk,
    fun hs hd _ => blockCommand_of_read aesDec hk hs hd⟩⟩⟩

end Sys2Proof.Proofs
end

section
/-! The counter block as a number and byte by byte, and CTR_CRYPT, one equation for each way it can end; and the
obligations about them (rules R101, R102). -/

namespace Sys2Proof.Machine

/-! The increment (rule R101) -/

theorem toList_ctrInc (cb : Block) : (ctrInc cb).toList = be128 ((frombe cb.toList + 1) % 2 ^ 128) :=
  toList_fixed_be128 _

/-- `be128` keeps a number modulo `2^128`, so the bound of rule R101 cuts off nothing that is encoded. -/
theorem be128_mod (v : Nat) : be128 (v % 2 ^ 128) = be128 v := by
  have h : frombe (be128 v) = v % 2 ^ 128 := by rw [be128, frombe_beBytes]; norm_num
  calc be128 (v % 2 ^ 128) = beBytes (be128 v).length (frombe (be128 v)) := by rw [h, be128, be128, length_beBytes]
    _ = be128 v := beBytes_frombe _

theorem ctrInc_fixed_be128 (v : Nat) : ctrInc (fixed 16 (be128 v)) = fixed 16 (be128 (v + 1)) := by
  have h : (frombe (be128 v) + 1) % 2 ^ 128 = (v + 1) % 2 ^ 128 := by
    rw [← be128_mod, frombe_be128, Nat.mod_add_mod]
  rw [ctrInc, toList_fixed_be128, h, be128_mod]

theorem frombe_append_singleton (l : List Byte) (b : Byte) : frombe (l ++ [b]) = frombe l * 256 + b.toNat := by
  rw [frombe_append, List.length_singleton, Nat.pow_one]
  simp [frombe]

/-- The carry out of the lowest byte. -/
theorem frombe_append_singleton_succ (l : List Byte) (b : Byte) :
    (frombe (l ++ [b]) + 1) / 256 = if b = 0xFF#8 then frombe l + 1 else frombe l := by
  have hb : b = 0xFF#8 ↔ b.toNat = 255 := BitVec.toNat_inj.symm
  have hlt := b.isLt
  simp only [frombe_append_singleton, hb]
  split <;> omega

theorem ofNat_frombe_append_singleton_succ (l : List Byte) (b : Byte) :
    BitVec.ofNat 8 (frombe (l ++ [b]) + 1) = b + 1#8 := by
  apply BitVec.eq_of_toNat_eq
  rw [frombe_append_singleton, BitVec.toNat_ofNat, BitVec.toNat_add, BitVec.toNat_ofNat]
  omega

/-- Adding 1 adds 1 to the lowest byte, and to the bytes above it if there is a carry. -/
theorem beBytes_frombe_append_singleton_succ (l : List Byte) (b : Byte) :
    beBytes (l.length + 1) (frombe (l ++ [b]) + 1) =
      (if b = 0xFF#8 then beBytes l.length (frombe l + 1) else l) ++ [b + 1#8] := by
  rw [beBytes, frombe_append_singleton_succ, ofNat_frombe_append_singleton_succ]
  split
  · rfl
  · rw [beBytes_frombe]

/-- Adding 1 to a big-endian number adds 1 to the bytes with nothing but `0xFF` to their right. -/
theorem getD_beBytes_frombe_succ {l : List Byte} {i : Nat} (hi : i < l.length) :
    (beBytes l.length (frombe l + 1)).getD i 0#8 =
      if ∀ c ∈ l.drop (i + 1), c = 0xFF#8 then l.getD i 0#8 + 1#8 else l.getD i 0#8 := by
  induction l using List.reverseRecOn with
  | nil => simp at hi
  | append_singleton l b ih =>
    rw [List.length_append, List.length_singleton] at hi ⊢
    rw [beBytes_frombe_append_singleton_succ]
    rcases Nat.lt_succ_iff_lt_or_eq.mp hi with hlt | rfl
    · have hdrop : (l ++ [b]).drop (i + 1) = l.drop (i + 1) ++ [b] := List.drop_append_of_le_length hlt
      rw [hdrop, List.getD_append _ _ _ _ hlt]
      by_cases hb : b = 0xFF#8
      · rw [if_pos hb, List.getD_append _ _ _ _ (by simpa using hlt), ih hlt]
        simp only [List.forall_mem_append, List.forall_mem_singleton, hb, and_true]
      · rw [if_neg hb, List.getD_append _ _ _ _ hlt, if_neg (by simp [hb])]
    · have hlen : (if b = 0xFF#8 then beBytes l.length (frombe l + 1) else l).length = l.length := by
        split <;> simp
      rw [List.getD_append_right _ _ _ _ hlen.le, hlen, List.getD_append_right _ _ _ _ le_rfl]
      simp

/-- The bytes to the right of byte `i` of a block. -/
theorem forall_mem_drop_toList_iff (cb : Block) (i : Fin 16) (P : Byte → Prop) :
    (∀ c ∈ cb.toList.drop (i.val + 1), P c) ↔ ∀ k : Fin 16, i < k → P cb[k] := by
  constructor
  · intro h k hik
    refine h _ (List.mem_drop_iff_getElem.mpr ⟨k.val - (i.val + 1), ?_, ?_⟩)
    · rw [Vector.length_toList]
      omega
    · simp [show i.val + 1 + (k.val - (i.val + 1)) = k.val by omega]
  · intro h c hc
    obtain ⟨j, hj, rfl⟩ := List.mem_drop_iff_getElem.mp hc
    rw [Vector.length_toList] at hj
    simpa using h ⟨i.val + 1 + j, by omega⟩ (Fin.lt_def.mpr (by simp; omega))

theorem getElem_ctrInc (cb : Block) (i : Fin 16) :
    (ctrInc cb)[i] = if ∀ k : Fin 16, i < k → cb[k] = 0xFF#8 then cb[i] + 1#8 else cb[i] := by
  have hget : ∀ b : Block, b.toList.getD i.val 0#8 = b[i] := fun b => by simp
  have hsucc : (ctrInc cb).toList = beBytes cb.toList.length (frombe cb.toList + 1) := by
    rw [toList_ctrInc, be128_mod, be128, Vector.length_toList]
  rw [← hget, hsucc, getD_beBytes_frombe_succ (by simp), hget]
  simp only [forall_mem_drop_toList_iff]

theorem frombe_ctrInc_iterate (cb : Block) (n : Nat) :
    frombe ((ctrInc^[n]) cb).toList = (frombe cb.toList + n) % 2 ^ 128 := by
  rw [ctrInc_iterate, toList_fixed_be128, frombe_be128]

/-! CTR_CRYPT (rule R102) -/

/-- The output and the counter block of CTR_CRYPT in the closed form of rule R102. -/
theorem ctrStream_eq_closedForm (ks : Block → Block) {cb : List Byte} (hcb : cb.length = 16) (inp : List Byte) :
    ctrStream ks (fixed 16 cb) inp =
      ((List.range inp.length).map fun i =>
        inp.getD i 0#8 ^^^ (ks (fixed 16 (be128 ((frombe cb + i / 16) % 2 ^ 128)))).toList.getD (i % 16) 0#8,
      fixed 16 (be128 ((frombe cb + (inp.length + 15) / 16) % 2 ^ 128))) := by
  simp only [ctrStream_eq, ctrInc_iterate, toList_fixed hcb]

theorem allValid_streamOperands_iff (s : State) :
    allValid [srcOperand s, dstOperand (s.reg .srcLen) s, ctrOperand s] s = true ↔
      s.regs.srcAddr.toNat + s.regs.srcLen.toNat ≤ s.params.opmemBytes ∧
        s.regs.dstAddr.toNat + s.regs.srcLen.toNat ≤ s.params.opmemBytes ∧
          s.regs.ctrAddr.toNat + 16 ≤ s.params.opmemBytes := by
  rw [allValid_iff, List.forall_mem_cons, List.forall_mem_cons, List.forall_mem_singleton]
  rfl

theorem exec_ctrCrypt_of_noKey {s : State} (hk : s.aes.valid = false) :
    exec .ctrCrypt s = .next (raise .noKey s) := by
  show execCtrCrypt s = _
  rw [execCtrCrypt, hk]
  rfl

theorem exec_ctrCrypt_of_badRange {s : State} (hk : s.aes.valid = true)
    (hv : s.params.opmemBytes < s.regs.srcAddr.toNat + s.regs.srcLen.toNat ∨
      s.params.opmemBytes < s.regs.dstAddr.toNat + s.regs.srcLen.toNat ∨
        s.params.opmemBytes < s.regs.ctrAddr.toNat + 16) :
    exec .ctrCrypt s = .next (raise .badRange s) := by
  have hinvalid : allValid [srcOperand s, dstOperand (s.reg .srcLen) s, ctrOperand s] s = false := by
    rw [← Bool.not_eq_true, allValid_streamOperands_iff]
    omega
  show execCtrCrypt s = _
  rw [execCtrCrypt, hk, hinvalid]
  rfl

theorem exec_ctrCrypt_of_read {s : State} {inp cb : List Byte} (hk : s.aes.valid = true)
    (hs : s.regs.srcAddr.toNat + s.regs.srcLen.toNat ≤ s.params.opmemBytes)
    (hd : s.regs.dstAddr.toNat + s.regs.srcLen.toNat ≤ s.params.opmemBytes)
    (hc : s.regs.ctrAddr.toNat + 16 ≤ s.params.opmemBytes)
    (hinp : s.opmem.read s.regs.srcAddr.toNat s.regs.srcLen.toNat = .ok inp)
    (hcb : s.opmem.read s.regs.ctrAddr.toNat 16 = .ok cb) :
    exec .ctrCrypt s =
      .next (complete (store (ctrOperand s) (ctrStream (aesEnc s.aes.rk s.aes.nr) (fixed 16 cb) inp).2.toList
        (store (dstOperand (s.reg .srcLen) s) (ctrStream (aesEnc s.aes.rk s.aes.nr) (fixed 16 cb) inp).1 s))) := by
  show execCtrCrypt s = _
  rw [execCtrCrypt, hk, (allValid_streamOperands_iff s).mpr ⟨hs, hd, hc⟩]
  exact (withInput_ok (o := srcOperand s) hinp _).trans (withInput_ok (o := ctrOperand s) hcb _)

end Sys2Proof.Machine

namespace Sys2Proof.Proofs

open Sys2Proof.Machine

/-- Settles O16: the two errors in the order of the checks, then the keystream applied byte by byte, with the counter
block written after the output. -/
theorem ctrCryptRule : Obligations.CtrCryptRule := by
  refine ⟨by decide, fun s => ⟨exec_ctrCrypt_of_noKey, fun hk => ⟨exec_ctrCrypt_of_badRange hk,
    fun hs hd hc inp cb hinp hcb => ?_⟩⟩⟩
  rw [exec_ctrCrypt_of_read hk hs hd hc hinp hcb, ctrStream_eq_closedForm _ (read_length hcb), read_length hinp,
    toList_fixed_be128]
  rfl

/-- Settles O49: the increment is of the number the block encodes, so a byte changes exactly when the carry from its
right reaches it. -/
theorem counterIncrement : Obligations.CounterIncrement :=
  ⟨toList_ctrInc, getElem_ctrInc, frombe_ctrInc_iterate, ctrInc_fixed_be128 _, ctrInc_fixed_be128 _, by decide⟩

end Sys2Proof.Proofs
end

section
/-! The compression function (rule R114), its schedule word by word and its working variables round by round; the
commands of the Hash Engine (rules R118 to R120), one equation for each way they can end; and the obligations about
them. -/

namespace Sys2Proof.Machine

/-! The message schedule (rule R114) -/

/-- The schedule after `k` words have been added to the message's own. -/
def messageScheduleWords (M : List Byte) (k : Nat) : List DWord :=
  (List.range' 16 k).foldl appendMessageWord (messageWords M)

theorem messageSchedule_eq_messageScheduleWords (M : List Byte) : messageSchedule M = messageScheduleWords M 64 := rfl

theorem messageScheduleWords_succ (M : List Byte) (k : Nat) :
    messageScheduleWords M (k + 1) = appendMessageWord (messageScheduleWords M k) (16 + k) := by
  rw [messageScheduleWords, List.range'_1_concat, List.foldl_append]
  rfl

@[simp] theorem length_messageScheduleWords (M : List Byte) (k : Nat) : (messageScheduleWords M k).length = 16 + k := by
  induction k with
  | zero => simp [messageScheduleWords, messageWords]
  | succ k ih => rw [messageScheduleWords_succ, appendMessageWord, List.length_append, ih, List.length_singleton]; omega

@[simp] theorem length_messageSchedule (M : List Byte) : (messageSchedule M).length = 80 :=
  length_messageScheduleWords M 64

/-- A word, once there, stays. -/
theorem messageScheduleWords_getD_of_le (M : List Byte) {k m t : Nat} (hkm : k ≤ m) (ht : t < 16 + k) :
    (messageScheduleWords M m).getD t 0#64 = (messageScheduleWords M k).getD t 0#64 := by
  induction m, hkm using Nat.le_induction with
  | base => rfl
  | succ m hm ih =>
    rw [← ih, messageScheduleWords_succ, appendMessageWord, List.getD_append _ _ _ _ (by simp; omega)]

/-- A word of the message is the number that its eight bytes encode. -/
theorem toNat_messageSchedule_getD_of_lt (M : List Byte) {t : Nat} (ht : t < 16) :
    ((messageSchedule M).getD t 0#64).toNat = frombe (slice M (8 * t) 8) := by
  have hword : (messageSchedule M).getD t 0#64 = BitVec.ofNat 64 (frombe (slice M (8 * t) 8)) := by
    rw [messageSchedule_eq_messageScheduleWords, messageScheduleWords_getD_of_le M (Nat.zero_le 64) ht]
    simp [messageScheduleWords, messageWords, ht]
  have hlt : frombe (slice M (8 * t) 8) < 2 ^ 64 :=
    calc frombe (slice M (8 * t) 8) < 256 ^ (slice M (8 * t) 8).length := frombe_lt _
      _ ≤ 256 ^ 8 := Nat.pow_le_pow_right (by decide) (List.length_take_le _ _)
      _ = 2 ^ 64 := by norm_num
  rw [hword, BitVec.toNat_ofNat, Nat.mod_eq_of_lt hlt]

theorem messageSchedule_getD_recurrence (M : List Byte) {t : Nat} (hle : 16 ≤ t) (ht : t < 80) :
    let W := fun t => (messageSchedule M).getD t 0#64
    W t = ssig1 (W (t - 2)) + W (t - 7) + ssig0 (W (t - 15)) + W (t - 16) := by
  obtain ⟨k, rfl⟩ := Nat.exists_eq_add_of_le hle
  have hprev : ∀ l < 16 + k, (messageSchedule M).getD l 0#64 = (messageScheduleWords M k).getD l 0#64 :=
    fun l hl => messageScheduleWords_getD_of_le M (by omega) hl
  have hnew : (messageSchedule M).getD (16 + k) 0#64 = (messageScheduleWords M (k + 1)).getD (16 + k) 0#64 :=
    messageScheduleWords_getD_of_le M (by omega) (by omega)
  simp only [hnew, hprev _ (show 16 + k - 2 < 16 + k by omega), hprev _ (show 16 + k - 7 < 16 + k by omega),
    hprev _ (show 16 + k - 15 < 16 + k by omega), hprev _ (show 16 + k - 16 < 16 + k by omega)]
  rw [messageScheduleWords_succ, appendMessageWord, List.getD_append_right _ _ _ _ (by simp)]
  simp

/-! The 80 rounds (rule R114) -/

theorem length_roundConstants : roundConstants.length = 80 := rfl

/-- The working variables after the first `t` rounds. -/
def workingAfter (H : Vector DWord 8) (M : List Byte) (t : Nat) : Working :=
  ((List.zip roundConstants (messageSchedule M)).take t).foldl shaRound
    { a := H[0], b := H[1], c := H[2], d := H[3], e := H[4], f := H[5], g := H[6], h := H[7] }

theorem workingAfter_zero (H : Vector DWord 8) (M : List Byte) :
    workingAfter H M 0 =
      { a := H[0], b := H[1], c := H[2], d := H[3], e := H[4], f := H[5], g := H[6], h := H[7] } := rfl

theorem workingAfter_succ (H : Vector DWord 8) (M : List Byte) {t : Nat} (ht : t < 80) :
    workingAfter H M (t + 1) =
      shaRound (workingAfter H M t) (roundConstants.getD t 0#64, (messageSchedule M).getD t 0#64) := by
  have hK : t < roundConstants.length := ht.trans_eq length_roundConstants.symm
  have hW : t < (messageSchedule M).length := ht.trans_eq (length_messageSchedule M).symm
  have hzip : t < (List.zip roundConstants (messageSchedule M)).length := by
    rw [List.length_zip]
    exact lt_min hK hW
  rw [workingAfter, ← List.take_concat_get' _ _ hzip, List.foldl_append, List.getElem_zip,
    List.getD_eq_getElem _ _ hK, List.getD_eq_getElem _ _ hW]
  rfl

/-- The fold of the working variables into the hash. -/
theorem compress_eq_add_workingAfter (H : Vector DWord 8) (M : List Byte) :
    let v := workingAfter H M 80
    compress H M =
      #v[H[0] + v.a, H[1] + v.b, H[2] + v.c, H[3] + v.d, H[4] + v.e, H[5] + v.f, H[6] + v.g, H[7] + v.h] := by
  have hall : (List.zip roundConstants (messageSchedule M)).take 80 = List.zip roundConstants (messageSchedule M) := by
    apply List.take_of_length_le
    rw [List.length_zip, length_roundConstants, length_messageSchedule, Nat.min_self]
  rw [workingAfter, hall]
  rfl

/-! SHA_INIT (rule R118) -/

theorem exec_shaInit (s : State) : exec .shaInit s = .next (complete (setSha shaInit .active s)) := rfl

theorem hashActive_iff (s : State) : hashActive s = true ↔ s.sha.st = .active := by
  rw [hashActive, beq_iff_eq]

/-! SHA_UPDATE (rule R119) -/

theorem allValid_srcOperand_iff (s : State) :
    allValid [srcOperand s] s = true ↔ s.regs.srcAddr.toNat + s.regs.srcLen.toNat ≤ s.params.opmemBytes := by
  rw [allValid_iff, List.forall_mem_singleton]
  rfl

theorem exec_shaUpdate_of_noHash {s : State} (ha : s.sha.st ≠ .active) :
    exec .shaUpdate s = .next (raise .noHash s) := by
  show execShaUpdate s = _
  rw [execShaUpdate, Bool.eq_false_iff.mpr (mt (hashActive_iff s).mp ha)]
  rfl

theorem exec_shaUpdate_of_badRange {s : State} (ha : s.sha.st = .active)
    (hv : s.params.opmemBytes < s.regs.srcAddr.toNat + s.regs.srcLen.toNat) :
    exec .shaUpdate s = .next (raise .badRange s) := by
  show execShaUpdate s = _
  rw [execShaUpdate, (hashActive_iff s).mpr ha,
    Bool.eq_false_iff.mpr (mt (allValid_srcOperand_iff s).mp (Nat.not_le.mpr hv))]
  rfl

theorem exec_shaUpdate_of_read {s : State} {d : List Byte} (ha : s.sha.st = .active)
    (hv : s.regs.srcAddr.toNat + s.regs.srcLen.toNat ≤ s.params.opmemBytes)
    (hr : s.opmem.read s.regs.srcAddr.toNat s.regs.srcLen.toNat = .ok d) :
    exec .shaUpdate s = .next (complete (setSha (shaUpdate s.sha.hash d) .active s)) := by
  show execShaUpdate s = _
  rw [execShaUpdate, (hashActive_iff s).mpr ha, (allValid_srcOperand_iff s).mpr hv, ha]
  exact withInput_ok (o := srcOperand s) hr _

/-! SHA_FINAL (rule R120) -/

theorem allValid_dstOperand_iff (len : Nat) (s : State) :
    allValid [dstOperand len s] s = true ↔ s.regs.dstAddr.toNat + len ≤ s.params.opmemBytes := by
  rw [allValid_iff, List.forall_mem_singleton]
  rfl

theorem exec_shaFinal_of_noHash {s : State} (ha : s.sha.st ≠ .active) :
    exec .shaFinal s = .next (raise .noHash s) := by
  show execShaFinal s = _
  rw [execShaFinal, Bool.eq_false_iff.mpr (mt (hashActive_iff s).mp ha)]
  rfl

theorem exec_shaFinal_of_badRange {s : State} (ha : s.sha.st = .active)
    (hv : s.params.opmemBytes < s.regs.dstAddr.toNat + 64) : exec .shaFinal s = .next (raise .badRange s) := by
  show execShaFinal s = _
  rw [execShaFinal, (hashActive_iff s).mpr ha,
    Bool.eq_false_iff.mpr (mt (allValid_dstOperand_iff 64 s).mp (Nat.not_le.mpr hv))]
  rfl

theorem exec_shaFinal_of_valid {s : State} (ha : s.sha.st = .active)
    (hv : s.regs.dstAddr.toNat + 64 ≤ s.params.opmemBytes) :
    exec .shaFinal s =
      .next (complete (setSha HashState.zero .consumed (store (dstOperand 64 s) (shaFinal s.sha.hash) s))) := by
  show execShaFinal s = _
  rw [execShaFinal, (hashActive_iff s).mpr ha, (allValid_dstOperand_iff 64 s).mpr hv]
  rfl

end Sys2Proof.Machine

namespace Sys2Proof.Proofs

open Sys2Proof.Machine

/-- Settles O51: the schedule adds one word at a time and changes none that is there, so each word meets the recurrence
in the finished schedule; the working variables after each prefix of the rounds are the sequence asked for. -/
theorem compressionFunction : Obligations.CompressionFunction := by
  intro H M _
  refine ⟨length_messageSchedule M, fun _ => toNat_messageSchedule_getD_of_lt M,
    fun _ => messageSchedule_getD_recurrence M, workingAfter H M, workingAfter_zero H M, fun t ht => ?_,
    compress_eq_add_workingAfter H M⟩
  rw [workingAfter_succ H M ht, shaRound]

/-- Settles O17: the command has no check and no input. -/
theorem shaInitRule : Obligations.ShaInitRule :=
  ⟨by decide, exec_shaInit⟩

/-- Settles O18: the two errors in the order of the checks, then the bytes read fed to the hash. -/
theorem shaUpdateRule : Obligations.ShaUpdateRule :=
  ⟨by decide, fun _ => ⟨exec_shaUpdate_of_noHash, fun ha => ⟨exec_shaUpdate_of_badRange ha,
    fun hv _ hr => exec_shaUpdate_of_read ha hv hr⟩⟩⟩

/-- Settles O19: the two errors in the order of the checks, then the digest stored before the context is consumed. -/
theorem shaFinalRule : Obligations.ShaFinalRule :=
  ⟨by decide, fun _ => ⟨exec_shaFinal_of_noHash, fun ha => ⟨exec_shaFinal_of_badRange ha,
    exec_shaFinal_of_valid ha⟩⟩⟩

end Sys2Proof.Proofs
end

section
/-! The commands of the MAC Engine (rules R127 to R130), one equation for each way they can end, and the obligations
about them. -/

namespace Sys2Proof.Machine

theorem hmacActive_iff (s : State) : hmacActive s = true ↔ s.hm.st = .active := by
  rw [hmacActive, beq_iff_eq]

/-! HMAC, one-shot (rule R127) -/

theorem allValid_hmacOperands_iff (s : State) :
    allValid [keyOperand s, srcOperand s, dstOperand 64 s] s = true ↔
      s.regs.keyAddr.toNat + s.regs.keyLen.toNat ≤ s.params.opmemBytes ∧
      s.regs.srcAddr.toNat + s.regs.srcLen.toNat ≤ s.params.opmemBytes ∧
      s.regs.dstAddr.toNat + 64 ≤ s.params.opmemBytes := by
  rw [allValid_iff, List.forall_mem_cons, List.forall_mem_cons, List.forall_mem_singleton]
  rfl

theorem exec_hmac_of_badRange {s : State}
    (hv : s.params.opmemBytes < s.regs.keyAddr.toNat + s.regs.keyLen.toNat ∨
      s.params.opmemBytes < s.regs.srcAddr.toNat + s.regs.srcLen.toNat ∨
      s.params.opmemBytes < s.regs.dstAddr.toNat + 64) :
    exec .hmac s = .next (raise .badRange s) := by
  have hinvalid : allValid [keyOperand s, srcOperand s, dstOperand 64 s] s = false := by
    rw [← Bool.not_eq_true, allValid_hmacOperands_iff]
    omega
  show execHmac s = _
  rw [execHmac, hinvalid]
  rfl

theorem exec_hmac_of_read {s : State} {key data : List Byte}
    (hk : s.regs.keyAddr.toNat + s.regs.keyLen.toNat ≤ s.params.opmemBytes)
    (hs : s.regs.srcAddr.toNat + s.regs.srcLen.toNat ≤ s.params.opmemBytes)
    (hd : s.regs.dstAddr.toNat + 64 ≤ s.params.opmemBytes)
    (hkey : s.opmem.read s.regs.keyAddr.toNat s.regs.keyLen.toNat = .ok key)
    (hdata : s.opmem.read s.regs.srcAddr.toNat s.regs.srcLen.toNat = .ok data) :
    exec .hmac s = .next (complete (consumeHmac (store (dstOperand 64 s) (hmacTag key data) s))) := by
  show execHmac s = _
  rw [execHmac, (allValid_hmacOperands_iff s).mpr ⟨hk, hs, hd⟩]
  exact (withInput_ok (o := keyOperand s) hkey _).trans (withInput_ok (o := srcOperand s) hdata _)

/-! HMAC_INIT (rule R128) -/

theorem allValid_keyOperand_iff (s : State) :
    allValid [keyOperand s] s = true ↔ s.regs.keyAddr.toNat + s.regs.keyLen.toNat ≤ s.params.opmemBytes := by
  rw [allValid_iff, List.forall_mem_singleton]
  rfl

theorem exec_hmacInit_of_badRange {s : State}
    (hv : s.params.opmemBytes < s.regs.keyAddr.toNat + s.regs.keyLen.toNat) :
    exec .hmacInit s = .next (raise .badRange s) := by
  show execHmacInit s = _
  rw [execHmacInit, Bool.eq_false_iff.mpr (mt (allValid_keyOperand_iff s).mp (Nat.not_le.mpr hv))]
  rfl

theorem exec_hmacInit_of_read {s : State} {key : List Byte}
    (hv : s.regs.keyAddr.toNat + s.regs.keyLen.toNat ≤ s.params.opmemBytes)
    (hr : s.opmem.read s.regs.keyAddr.toNat s.regs.keyLen.toNat = .ok key) :
    exec .hmacInit s = .next (complete (setHmac (hmacInit key) .active s)) := by
  show execHmacInit s = _
  rw [execHmacInit, (allValid_keyOperand_iff s).mpr hv]
  exact withInput_ok (o := keyOperand s) hr _

/-! HMAC_UPDATE (rule R129) -/

theorem exec_hmacUpdate_of_noHmac {s : State} (ha : s.hm.st ≠ .active) :
    exec .hmacUpdate s = .next (raise .noHmac s) := by
  show execHmacUpdate s = _
  rw [execHmacUpdate, Bool.eq_false_iff.mpr (mt (hmacActive_iff s).mp ha)]
  rfl

theorem exec_hmacUpdate_of_badRange {s : State} (ha : s.hm.st = .active)
    (hv : s.params.opmemBytes < s.regs.srcAddr.toNat + s.regs.srcLen.toNat) :
    exec .hmacUpdate s = .next (raise .badRange s) := by
  show execHmacUpdate s = _
  rw [execHmacUpdate, (hmacActive_iff s).mpr ha,
    Bool.eq_false_iff.mpr (mt (allValid_srcOperand_iff s).mp (Nat.not_le.mpr hv))]
  rfl

theorem exec_hmacUpdate_of_read {s : State} {d : List Byte} (ha : s.hm.st = .active)
    (hv : s.regs.srcAddr.toNat + s.regs.srcLen.toNat ≤ s.params.opmemBytes)
    (hr : s.opmem.read s.regs.srcAddr.toNat s.regs.srcLen.toNat = .ok d) :
    exec .hmacUpdate s = .next (complete (setHmac (hmacUpdate (s.hm.inner, s.hm.outer) d) .active s)) := by
  show execHmacUpdate s = _
  rw [execHmacUpdate, (hmacActive_iff s).mpr ha, (allValid_srcOperand_iff s).mpr hv, ha]
  exact withInput_ok (o := srcOperand s) hr _

/-! HMAC_FINAL (rule R130) -/

theorem exec_hmacFinal_of_noHmac {s : State} (ha : s.hm.st ≠ .active) :
    exec .hmacFinal s = .next (raise .noHmac s) := by
  show execHmacFinal s = _
  rw [execHmacFinal, Bool.eq_false_iff.mpr (mt (hmacActive_iff s).mp ha)]
  rfl

theorem exec_hmacFinal_of_badRange {s : State} (ha : s.hm.st = .active)
    (hv : s.params.opmemBytes < s.regs.dstAddr.toNat + 64) : exec .hmacFinal s = .next (raise .badRange s) := by
  show execHmacFinal s = _
  rw [execHmacFinal, (hmacActive_iff s).mpr ha,
    Bool.eq_false_iff.mpr (mt (allValid_dstOperand_iff 64 s).mp (Nat.not_le.mpr hv))]
  rfl

theorem exec_hmacFinal_of_valid {s : State} (ha : s.hm.st = .active)
    (hv : s.regs.dstAddr.toNat + 64 ≤ s.params.opmemBytes) :
    exec .hmacFinal s = .next (complete (consumeHmac
      (store (dstOperand 64 s) (hmacFinal (s.hm.inner, s.hm.outer)) s))) := by
  show execHmacFinal s = _
  rw [execHmacFinal, (hmacActive_iff s).mpr ha, (allValid_dstOperand_iff 64 s).mpr hv]
  rfl

end Sys2Proof.Machine

namespace Sys2Proof.Proofs

open Sys2Proof.Machine

/-- Settles O20: one check of all three operands in any phase of `HM`, then the tag stored before the context is
consumed. -/
theorem hmacRule : Obligations.HmacRule :=
  ⟨by decide, fun _ => ⟨exec_hmac_of_badRange,
    fun hk hs hd _ _ hkey hdata => exec_hmac_of_read hk hs hd hkey hdata⟩⟩

/-- Settles O21: the one check, then both hash instances started afresh on the padded key. -/
theorem hmacInitRule : Obligations.HmacInitRule :=
  ⟨by decide, fun _ => ⟨exec_hmacInit_of_badRange, fun hv _ hr => exec_hmacInit_of_read hv hr⟩⟩

/-- Settles O22: the two errors in the order of the checks, then the bytes read fed to the inner instance alone. -/
theorem hmacUpdateRule : Obligations.HmacUpdateRule :=
  ⟨by decide, fun _ => ⟨exec_hmacUpdate_of_noHmac, fun ha => ⟨exec_hmacUpdate_of_badRange ha,
    fun hv _ hr => exec_hmacUpdate_of_read ha hv hr⟩⟩⟩

/-- Settles O23: the two errors in the order of the checks, then the tag stored before the context is consumed. -/
theorem hmacFinalRule : Obligations.HmacFinalRule :=
  ⟨by decide, fun _ => ⟨exec_hmacFinal_of_noHmac, fun ha => ⟨exec_hmacFinal_of_badRange ha,
    exec_hmacFinal_of_valid ha⟩⟩⟩

end Sys2Proof.Proofs
end

section
/-! The derived bytes of PBKDF2 one by one (rule R135), and the command, one equation for each way it can end (rule
R136); and the obligations about them. -/

namespace Sys2Proof.Machine

/-! The blocks (rule R135) -/

theorem getD_xorBytes {a b : List Byte} (h : a.length = b.length) (k : Nat) :
    (xorBytes a b).getD k 0#8 = a.getD k 0#8 ^^^ b.getD k 0#8 := by
  rcases Nat.lt_or_ge k a.length with hk | hk
  · have hb : k < b.length := h ▸ hk
    simp [xorBytes, List.getD_eq_getElem?_getD, hk, hb]
  · simp [xorBytes, List.getD_eq_getElem?_getD, hk, h ▸ hk]

/-- One step of the exclusive-or of byte `k` over the values `HMAC(P, ·)` iterated from `U`. -/
def xorTagByte (P U : List Byte) (k : Nat) (acc : Byte) (j : Nat) : Byte :=
  acc ^^^ (((fun u => hmacTag P u)^[j] U).getD k 0#8)

/-- The loop, entered with the value reached after `m` evaluations, folds in the next `n` values. -/
theorem getD_pbkdf2Iterate (P U : List Byte) (k n m : Nat) {T : List Byte} (hT : T.length = 64) :
    (pbkdf2Iterate P n ((fun u => hmacTag P u)^[m] U) T).getD k 0#8 =
      (List.range' (m + 1) n).foldl (xorTagByte P U k) (T.getD k 0#8) := by
  induction n generalizing m T with
  | zero => rfl
  | succ n ih =>
    have hnext : hmacTag P ((fun u => hmacTag P u)^[m] U) = (fun u => hmacTag P u)^[m + 1] U :=
      (Function.iterate_succ_apply' _ _ _).symm
    have htag : ((fun u => hmacTag P u)^[m + 1] U).length = 64 := by rw [← hnext, length_hmacTag]
    rw [pbkdf2Iterate, hnext, ih (m + 1) (by rw [length_xorBytes, hT, htag, Nat.min_self]),
      getD_xorBytes (hT.trans htag.symm), List.range'_succ, List.foldl_cons, xorTagByte]

theorem getD_pbkdf2Block (P S : List Byte) {c : Nat} (hc : 1 ≤ c) (i k : Nat) :
    (pbkdf2Block P S c i).getD k 0#8 =
      (List.range c).foldl (xorTagByte P (hmacTag P (S ++ be32 i)) k) 0#8 := by
  obtain ⟨n, rfl⟩ := Nat.exists_eq_add_of_le' hc
  have hfirst : xorTagByte P (hmacTag P (S ++ be32 i)) k 0#8 0 = (hmacTag P (S ++ be32 i)).getD k 0#8 :=
    BitVec.zero_xor
  rw [List.range_eq_range', List.range'_succ, List.foldl_cons, hfirst]
  exact getD_pbkdf2Iterate P _ k n 0 (length_hmacTag _ _)

/-- A concatenation of blocks of equal length, byte by byte. -/
theorem getD_flatten_blocks {w : Nat} {bs : List (List Byte)} (h : ∀ b ∈ bs, b.length = w) (q : Nat) {r : Nat}
    (hr : r < w) : bs.flatten.getD (w * q + r) 0#8 = (bs.getD q []).getD r 0#8 := by
  induction bs generalizing q with
  | nil => rfl
  | cons b bs ih =>
    obtain ⟨hb, hbs⟩ := List.forall_mem_cons.mp h
    rw [List.flatten_cons]
    cases q with
    | zero => rw [Nat.mul_zero, Nat.zero_add, List.getD_append _ _ _ _ (hb ▸ hr), List.getD_cons_zero]
    | succ q =>
      have hle : b.length ≤ w * (q + 1) + r := by rw [hb, Nat.mul_succ]; omega
      have hsub : w * (q + 1) + r - b.length = w * q + r := by rw [hb, Nat.mul_succ]; omega
      rw [List.getD_append_right _ _ _ _ hle, hsub, ih hbs, List.getD_cons_succ]

/-- Byte `k` lies in the block of index `k / 64 + 1`. -/
theorem getD_pbkdf2 (P S : List Byte) (c : Nat) {dkLen k : Nat} (hk : k < dkLen) :
    (pbkdf2 P S c dkLen).getD k 0#8 = (pbkdf2Block P S c (k / 64 + 1)).getD (k % 64) 0#8 := by
  have hblock : k / 64 < blockCount dkLen := by rw [blockCount]; omega
  have hlen : ∀ b ∈ (List.range (blockCount dkLen)).map fun q => pbkdf2Block P S c (q + 1), b.length = 64 := by
    simp
  calc (pbkdf2 P S c dkLen).getD k 0#8
      = ((List.range (blockCount dkLen)).map fun q => pbkdf2Block P S c (q + 1)).flatten.getD
          (64 * (k / 64) + k % 64) 0#8 := by
        rw [Nat.div_add_mod, pbkdf2, List.flatMap_def, List.getD_eq_getElem?_getD, List.getElem?_take_of_lt hk,
          ← List.getD_eq_getElem?_getD]
    _ = (pbkdf2Block P S c (k / 64 + 1)).getD (k % 64) 0#8 := by
        rw [getD_flatten_blocks hlen _ (Nat.mod_lt k (by decide))]
        simp [List.getD_eq_getElem?_getD, hblock]

/-! PBKDF2 (rule R136) -/

theorem reg_iter_eq_zero_iff (s : State) : s.reg .iter = 0 ↔ s.regs.iter = 0#32 :=
  (BitVec.toNat_eq (x := s.regs.iter) (y := 0#32)).symm

theorem allValid_pbkdf2Operands_iff (s : State) :
    allValid [keyOperand s, srcOperand s, dstOperand (s.reg .dstLen) s] s = true ↔
      s.regs.keyAddr.toNat + s.regs.keyLen.toNat ≤ s.params.opmemBytes ∧
      s.regs.srcAddr.toNat + s.regs.srcLen.toNat ≤ s.params.opmemBytes ∧
      s.regs.dstAddr.toNat + s.regs.dstLen.toNat ≤ s.params.opmemBytes := by
  rw [allValid_iff, List.forall_mem_cons, List.forall_mem_cons, List.forall_mem_singleton]
  rfl

theorem exec_pbkdf2_of_iter_zero {s : State} (hi : s.regs.iter = 0#32) :
    exec .pbkdf2 s = .next (raise .invalidParameter s) := by
  show execPbkdf2 s = _
  rw [execPbkdf2, if_pos ((reg_iter_eq_zero_iff s).mpr hi)]
  rfl

theorem exec_pbkdf2_of_badRange {s : State} (hi : s.regs.iter ≠ 0#32)
    (hv : s.params.opmemBytes < s.regs.keyAddr.toNat + s.regs.keyLen.toNat ∨
      s.params.opmemBytes < s.regs.srcAddr.toNat + s.regs.srcLen.toNat ∨
      s.params.opmemBytes < s.regs.dstAddr.toNat + s.regs.dstLen.toNat) :
    exec .pbkdf2 s = .next (raise .badRange s) := by
  have hinvalid : allValid [keyOperand s, srcOperand s, dstOperand (s.reg .dstLen) s] s = false := by
    rw [← Bool.not_eq_true, allValid_pbkdf2Operands_iff]
    omega
  show execPbkdf2 s = _
  rw [execPbkdf2, if_neg (mt (reg_iter_eq_zero_iff s).mp hi), hinvalid]
  rfl

theorem exec_pbkdf2_of_read {s : State} {P S : List Byte} (hi : s.regs.iter ≠ 0#32)
    (hk : s.regs.keyAddr.toNat + s.regs.keyLen.toNat ≤ s.params.opmemBytes)
    (hs : s.regs.srcAddr.toNat + s.regs.srcLen.toNat ≤ s.params.opmemBytes)
    (hd : s.regs.dstAddr.toNat + s.regs.dstLen.toNat ≤ s.params.opmemBytes)
    (hP : s.opmem.read s.regs.keyAddr.toNat s.regs.keyLen.toNat = .ok P)
    (hS : s.opmem.read s.regs.srcAddr.toNat s.regs.srcLen.toNat = .ok S) :
    exec .pbkdf2 s = .next (complete (consumeHmac
      (store (dstOperand (s.reg .dstLen) s) (pbkdf2 P S (s.reg .iter) (s.reg .dstLen)) s))) := by
  show execPbkdf2 s = _
  rw [execPbkdf2, if_neg (mt (reg_iter_eq_zero_iff s).mp hi), (allValid_pbkdf2Operands_iff s).mpr ⟨hk, hs, hd⟩]
  exact (withInput_ok (o := keyOperand s) hP _).trans (withInput_ok (o := srcOperand s) hS _)

end Sys2Proof.Machine

namespace Sys2Proof.Proofs

open Sys2Proof.Machine

/-- Settles O56: byte `k` is a byte of one block, and the iteration of that block folds in one HMAC value after the
other, `U_1` included. -/
theorem pbkdf2Blocks : Obligations.Pbkdf2Blocks :=
  fun P S c dkLen hc => ⟨length_pbkdf2 P S c dkLen, fun k hk =>
    (getD_pbkdf2 P S c hk).trans (getD_pbkdf2Block P S hc (k / 64 + 1) (k % 64))⟩

/-- Settles O24: the two errors in the order of the checks, then the derived bytes stored before `HM` is consumed. -/
theorem pbkdf2Rule : Obligations.Pbkdf2Rule :=
  ⟨by decide, fun _ => ⟨exec_pbkdf2_of_iter_zero, fun hi => ⟨exec_pbkdf2_of_badRange hi,
    fun hk hs hd _ _ hP hS => exec_pbkdf2_of_read hi hk hs hd hP hS⟩⟩⟩

end Sys2Proof.Proofs
end

section
/-! The control command ZEROIZE (rule R140): its one completion, as the reset state (rule R30) but for what it keeps; and the
obligation about it. -/

namespace Sys2Proof.Machine

theorem exec_zeroize (s : State) : exec .zeroize s = .next (complete (zeroizeAll s)) := rfl

/-- ZEROIZE leaves the reset state but for OPMEM, `DONE`, `ESTICKY` and the model's own fields (rules R30, R140). -/
theorem complete_zeroizeAll_eq_reset (s : State) :
    complete (zeroizeAll s) =
      { State.reset with
        params := s.params
        flags := { busy := false, done := true, err := false, esticky := s.flags.esticky }
        opmem := Memory.zeroed s.params.opmemBytes
        turns := s.turns
        replies := s.replies } := rfl

end Sys2Proof.Machine

namespace Sys2Proof.Proofs

open Sys2Proof.Machine

/-- Settles O25: the one completion, read as the cleared state and as the reset state, with OPMEM zeroed to its last
byte. -/
theorem zeroizeRule : Obligations.ZeroizeRule := by
  refine ⟨by decide, fun s => ⟨Memory.zeroed s.params.opmemBytes, exec_zeroize s, ?_, ?_, ?_⟩⟩
  · rw [exec_zeroize, complete_zeroizeAll_eq_reset]
  · exact fun k hk => by rw [byteAt_zeroed, if_pos hk]
  · exact fun k hk => by rw [byteAt_zeroed, if_neg (Nat.not_lt.mpr hk)]

end Sys2Proof.Proofs
end

section
/-! The container (rules R170, R171, R175) and the password policy (rule R173): the header and the file read back at
their offsets, and the checks that turn a request away; and the obligations about them. -/

namespace Sys2Proof.Machine

/-! Reading a part of a byte string -/

theorem slice_append_middle {a b : List Byte} {m n : Nat} (ha : a.length = m) (hb : b.length = n) (c : List Byte) :
    slice (a ++ b ++ c) m n = b := by
  rw [slice, List.append_assoc, List.drop_left' ha, List.take_left' hb]

theorem getD_slice {k n : Nat} (hk : k < n) (l : List Byte) (a : Nat) (d : Byte) :
    (slice l a n).getD k d = l.getD (a + k) d := by
  rw [List.getD_eq_getElem?_getD, slice, List.getElem?_take_of_lt hk, List.getElem?_drop, List.getD_eq_getElem?_getD]

theorem slice_one {l : List Byte} {a : Nat} (ha : a < l.length) (d : Byte) : slice l a 1 = [l.getD a d] := by
  rw [slice, List.drop_eq_getElem_cons ha, List.take_succ_cons, List.take_zero, List.getD_eq_getElem _ _ ha]

/-! The header (rule R170) -/

/-- The fields given as byte strings fill their places in the 40 bytes. -/
structure Header.FieldSizes (h : Header) : Prop where
  signature : h.signature.length = 4
  nonce : h.nonce.length = 8
  format : h.format.length = 8
  reserved : h.reserved.length = 16

theorem Header.decode_eq_some_iff {file : List Byte} {h : Header} :
    Header.decode file = some h ↔
      40 ≤ file.length ∧ slice file 0 4 = h.signature ∧ file.getD 4 0#8 = h.version ∧
      file.getD 5 0#8 = h.keyLengthCode ∧ file.getD 6 0#8 = h.modeCode ∧ file.getD 7 0#8 = h.hmacEnabled ∧
      slice file 8 8 = h.nonce ∧ slice file 16 8 = h.format ∧ slice file 24 16 = h.reserved := by
  obtain ⟨signature, version, keyLengthCode, modeCode, hmacEnabled, nonce, format, reserved⟩ := h
  rw [Header.decode, headerBytes]
  split
  · next hshort => simp [Nat.not_le.mpr hshort]
  · next hlong => simp [Nat.not_lt.mp hlong]

theorem Header.length_encode {h : Header} (hs : h.FieldSizes) : h.encode.length = 40 := by
  simp [Header.encode, hs.signature, hs.nonce, hs.format, hs.reserved]

/-- The four bytes between the signature and the nonce. -/
def Header.codes (h : Header) : List Byte := [h.version, h.keyLengthCode, h.modeCode, h.hmacEnabled]

@[simp] theorem Header.length_codes (h : Header) : h.codes.length = 4 := rfl

theorem Header.encode_eq (h : Header) : h.encode = h.signature ++ h.codes ++ h.nonce ++ h.format ++ h.reserved := rfl

/-- The first 40 bytes of a file are read as the header they encode, whatever follows them. -/
theorem Header.decode_encode_append {h : Header} (hs : h.FieldSizes) (rest : List Byte) :
    Header.decode (h.encode ++ rest) = some h := by
  have hsignature : slice (h.encode ++ rest) 0 4 = h.signature := by
    simpa [encode_eq] using slice_append_middle (a := []) rfl hs.signature
      (h.codes ++ h.nonce ++ h.format ++ h.reserved ++ rest)
  have hcodes : slice (h.encode ++ rest) 4 4 = h.codes := by
    simpa [encode_eq] using slice_append_middle hs.signature h.length_codes
      (h.nonce ++ h.format ++ h.reserved ++ rest)
  have hcode (i : Nat) (hi : i < 4) : (h.encode ++ rest).getD (4 + i) 0#8 = h.codes.getD i 0#8 := by
    rw [← hcodes, getD_slice hi]
  have hnonce : slice (h.encode ++ rest) 8 8 = h.nonce := by
    simpa [encode_eq] using slice_append_middle (a := h.signature ++ h.codes)
      (by simp [hs.signature]) hs.nonce (h.format ++ h.reserved ++ rest)
  have hformat : slice (h.encode ++ rest) 16 8 = h.format := by
    simpa [encode_eq] using slice_append_middle (a := h.signature ++ h.codes ++ h.nonce)
      (by simp [hs.signature, hs.nonce]) hs.format (h.reserved ++ rest)
  have hreserved : slice (h.encode ++ rest) 24 16 = h.reserved := by
    simpa [encode_eq] using slice_append_middle (a := h.signature ++ h.codes ++ h.nonce ++ h.format)
      (by simp [hs.signature, hs.nonce, hs.format]) hs.reserved rest
  exact Header.decode_eq_some_iff.mpr ⟨by simp [Header.length_encode hs], hsignature, hcode 0 (by decide),
    hcode 1 (by decide), hcode 2 (by decide), hcode 3 (by decide), hnonce, hformat, hreserved⟩

/-! The `format` field (rules R170, R175) -/

/-- Seven bytes of extension at most leave room for a NUL. -/
theorem formatField_eq (ext : List Byte) :
    formatField ext = ext.take 7 ++ 0x00#8 :: zeros (7 - (ext.take 7).length) := by
  have hroom : 8 - (ext.take 7).length = (7 - (ext.take 7).length) + 1 := by
    have := List.length_take_le 7 ext
    omega
  rw [formatField, hroom]
  rfl

@[simp] theorem length_formatField (ext : List Byte) : (formatField ext).length = 8 := by
  have hle := List.length_take_le 7 ext
  rw [formatField, List.length_append, length_zeros]
  omega

theorem getD_formatField_seven (ext : List Byte) (d : Byte) : (formatField ext).getD 7 d = 0x00#8 := by
  have hle := List.length_take_le 7 ext
  rw [formatField, List.getD_append_right _ _ _ _ hle, zeros, List.getD_replicate _ (by omega)]

theorem extensionOf_append_nul {ext : List Byte} (h : 0x00#8 ∉ ext) (rest : List Byte) :
    extensionOf (ext ++ 0x00#8 :: rest) = ext := by
  have hkeep : ∀ b ∈ ext, (b != 0x00#8) = true := fun b hb => bne_iff_ne.mpr fun h0 => h (h0 ▸ hb)
  rw [extensionOf, if_pos (by simp), List.takeWhile_append_of_pos hkeep]
  simp

theorem extensionOf_formatField {ext : List Byte} (h : 0x00#8 ∉ ext) :
    extensionOf (formatField ext) = ext.take 7 := by
  rw [formatField_eq]
  exact extensionOf_append_nul (mt List.mem_of_mem_take h) _

theorem newHeader_fieldSizes (keyBits : Nat) {nonce : List Byte} (hn : nonce.length = 8) (ext : List Byte) :
    (newHeader keyBits nonce ext).FieldSizes :=
  ⟨rfl, hn, length_formatField ext, length_zeros 16⟩

/-! The container file (rule R171) -/

@[simp] theorem length_ctrWithKey (aesKey : List Byte) (keyBits : Nat) (cb : Block) (data : List Byte) :
    (ctrWithKey aesKey keyBits cb data).length = data.length :=
  length_ctrStream _ _ _

/-- Where a container is cut: after its header, and after its tag. -/
theorem containerOf_eq (p : Params) (keyBits : Nat) (password nonce ext plaintext : List Byte) :
    containerOf p keyBits password nonce ext plaintext =
      (newHeader keyBits nonce ext).encode ++
        (hmacTag (deriveKeys p password keyBits).macKey ((newHeader keyBits nonce ext).encode ++ plaintext) ++
          ctrWithKey (deriveKeys p password keyBits).aesKey keyBits (startBlock nonce) plaintext) :=
  List.append_assoc _ _ _

theorem length_containerOf (p : Params) (keyBits : Nat) (password : List Byte) {nonce : List Byte}
    (hn : nonce.length = 8) (ext plaintext : List Byte) :
    (containerOf p keyBits password nonce ext plaintext).length = 40 + 64 + plaintext.length := by
  rw [containerOf_eq, List.length_append, Header.length_encode (newHeader_fieldSizes keyBits hn ext),
    List.length_append, length_hmacTag, length_ctrWithKey, Nat.add_assoc]

/-! The checks on a container (rule R175 steps 2 to 4) -/

theorem signatureOk_iff (h : Header) :
    signatureOk h = true ↔ h.signature = containerSignature ∧ h.version = containerVersion := by
  simp [signatureOk]

/-- The first five bytes of a file whose header passes the check. -/
theorem slice_of_signatureOk {file : List Byte} {h : Header} (hd : Header.decode file = some h)
    (hok : signatureOk h = true) : slice file 0 5 = containerSignature ++ [containerVersion] := by
  obtain ⟨hlen, hsignature, hversion, -⟩ := Header.decode_eq_some_iff.mp hd
  obtain ⟨hs, hv⟩ := (signatureOk_iff h).mp hok
  rw [slice_add file 0 4 1, slice_one (by omega) 0#8, hsignature, hversion, hs, hv]

theorem checkContainer_of_slice_ne {file : List Byte}
    (hne : slice file 0 5 ≠ containerSignature ++ [containerVersion]) :
    checkContainer file = .error .malformedContainer := by
  rw [checkContainer]
  cases hd : Header.decode file with
  | none => rfl
  | some h =>
    have hbad : signatureOk h = false := Bool.eq_false_iff.mpr fun hok => hne (slice_of_signatureOk hd hok)
    simp only [hbad, Bool.not_false, if_true]

theorem decryptFile_of_checkContainer_error {p : Params} {x : DecryptRequest} {e : HostError}
    (hp : validatePassword x.password = true) (hf : x.failureBy .readHeader = none)
    (hc : checkContainer x.source = .error e) : decryptFile p x = decryptFailed e none [] := by
  simp only [decryptFile, decryptOpen, hp, hf, hc, Bool.not_true, Bool.false_eq_true, if_false, closed_decryptFailed]

/-! The password policy (rule R173) -/

theorem isAlphanumeric_iff (b : Byte) :
    isAlphanumeric b = true ↔ (0x30 ≤ b.toNat ∧ b.toNat ≤ 0x39) ∨ (0x41 ≤ b.toNat ∧ b.toNat ≤ 0x5a) ∨
      (0x61 ≤ b.toNat ∧ b.toNat ≤ 0x7a) := by
  simp only [isAlphanumeric, Bool.or_eq_true, Bool.and_eq_true, decide_eq_true_eq, or_assoc]

theorem validatePassword_iff (password : List Byte) :
    validatePassword password = true ↔
      (1 ≤ password.length ∧ password.length ≤ 10) ∧ ∀ b ∈ password, isAlphanumeric b = true := by
  simp only [validatePassword, Bool.and_eq_true, decide_eq_true_eq, List.all_eq_true]

theorem encryptFile_of_invalidPassword (p : Params) {x : EncryptRequest} (hp : validatePassword x.password = false) :
    encryptFile p x = encryptRejected .passwordPolicyViolation := by
  simp only [encryptFile, hp, Bool.not_false, if_true]

theorem decryptFile_of_invalidPassword (p : Params) {x : DecryptRequest} (hp : validatePassword x.password = false) :
    decryptFile p x = decryptFailed .passwordPolicyViolation none [] := by
  simp only [decryptFile, decryptOpen, hp, Bool.not_false, if_true, closed_decryptFailed]

end Sys2Proof.Machine

namespace Sys2Proof.Proofs

open Sys2Proof.Machine

/-- Settles O57: a header is read back as the one encoded, which gives each field at its offset; the file is cut where
the header and the 64-byte tag end; a file with another signature or version fails the header check. -/
theorem containerFormat : Obligations.ContainerFormat := by
  refine ⟨fun p keyBits password nonce ext plaintext _ hn => ?_, fun ext rest h => extensionOf_append_nul h rest,
    fun p x hp hf hne => ?_⟩
  · have hs := newHeader_fieldSizes keyBits hn ext
    have hlen := Header.length_encode hs
    obtain ⟨-, hsignature, hversion, hkeyLength, hmode, hhmac, hnonce, hformat, hreserved⟩ :=
      Header.decode_eq_some_iff.mp (by simpa using Header.decode_encode_append hs [])
    intro h file
    have hfile : file = h ++ _ := containerOf_eq p keyBits password nonce ext plaintext
    refine ⟨hlen, hsignature, hversion, hkeyLength, hmode, hhmac, hnonce, hformat, ?_, hreserved, ?_, ?_, ?_, ?_, ?_,
      extensionOf_formatField⟩
    · calc h.getD 23 0xFF#8 = (slice h 16 8).getD 7 0xFF#8 := (getD_slice (k := 7) (n := 8) (by decide) h 16 _).symm
        _ = (formatField ext).getD 7 0xFF#8 := congrArg (fun field => List.getD field 7 0xFF#8) hformat
        _ = 0x00#8 := getD_formatField_seven ext _
    · exact length_containerOf p keyBits password hn ext plaintext
    · exact hfile ▸ List.take_left' hlen
    · exact slice_append_middle hlen (length_hmacTag _ _) _
    · exact List.drop_left' (by simp [hlen])
    · exact hfile ▸ Header.decode_encode_append hs _
  · rw [decryptFile_of_checkContainer_error hp hf (checkContainer_of_slice_ne hne)]
    exact ⟨rfl, rfl⟩

/-- Settles O58: the policy read off the three tests of `validatePassword`, which is the first test of both
procedures. -/
theorem passwordPolicy : Obligations.PasswordPolicy := by
  refine ⟨fun password => ?_, fun p x hp => ?_, fun p x hp => ?_⟩
  · simp only [validatePassword_iff, isAlphanumeric_iff]
  · rw [encryptFile_of_invalidPassword p hp]
    exact ⟨rfl, rfl⟩
  · rw [decryptFile_of_invalidPassword p hp]
    exact ⟨rfl, rfl⟩

end Sys2Proof.Proofs
end

section
/-! How a command in flight completes: what each of the two completions leaves in `STATUS` and `ERRINFO`, and which
error a command reports when several conditions hold; and the obligations about the exceptions (rules R151 to
R153). -/

namespace Sys2Proof.Machine

/-! The two completions (rules R151, R152) -/

theorem CommandError.code_ne_zero (e : CommandError) : e.code ≠ 0#8 := by
  cases e <;> decide

theorem errInfoWord_complete (s : State) : errInfoWord (complete s) = 0#32 := by
  rw [errInfoWord, complete_errInfo]
  decide

/-- Bit 4 of `STATUS`, `KEY_VALID` (rule R23). -/
theorem statusWord_keyValid (s : State) : (statusWord s).getLsbD 4 = s.aes.valid := by
  rw [statusWord]
  iterate 5 rw [BitVec.getLsbD_append]
  simp

/-- Bits 6:5 of `STATUS`, `SHA_ST` (rule R23). -/
theorem statusWord_shaPhase (s : State) : (statusWord s).extractLsb' 5 2 = s.sha.st.code := by
  rw [statusWord]
  iterate 5 rw [BitVec.extractLsb'_append_eq_of_le (by decide)]
  exact BitVec.extractLsb'_append_eq_right

/-- Bits 8:7 of `STATUS`, `HMAC_ST` (rule R23). -/
theorem statusWord_hmacPhase (s : State) : (statusWord s).extractLsb' 7 2 = s.hm.st.code := by
  rw [statusWord]
  iterate 6 rw [BitVec.extractLsb'_append_eq_of_le (by decide)]
  exact BitVec.extractLsb'_append_eq_right

/-- No assignment of a command is to `STATUS` itself. -/
theorem CommandEffect.flags_eq {s u : State} {i : Instr} (h : CommandEffect s i u) : u.flags = s.flags := by
  cases h <;> simp

/-- The step of the core's turn, whether the turn is listed or not. -/
theorem step_of_isCoreTurn {s : State} (h : s.isCoreTurn) : step s = coreTurn { s with turns := s.turns.tail } := by
  rcases h with hnil | hcore
  · have hs : ({ s with turns := s.turns.tail } : State) = s := by rw [hnil, List.tail_nil, ← hnil]
    rw [hs, step, hnil]
  · obtain ⟨rest, hturns⟩ := List.head?_eq_some_iff.mp hcore
    rw [step_of_core hturns, hturns, List.tail_cons]

/-- A command that answers a next state has failed and done nothing else, or has succeeded. -/
theorem exec_completes {i : Instr} {s t : State} (h : exec i s = .next t) :
    (∃ e, t = raise e s) ∨ ∃ u, u.flags = s.flags ∧ t = complete u := by
  rcases exec_next h with ⟨e, -, ht⟩ | ⟨u, -, heffect, ht⟩
  · exact .inl ⟨e, ht⟩
  · exact .inr ⟨u, heffect.flags_eq, ht⟩

/-- The same of the core's turn on any latched word, legal or not. -/
theorem coreTurn_completes {s t : State} (hb : s.flags.busy = true) (h : coreTurn s = .next t) :
    (∃ e, t = raise e s) ∨ ∃ u, u.flags = s.flags ∧ t = complete u := by
  rcases coreTurn_next h with ⟨hidle, -⟩ | ⟨-, i, -, hexec⟩ | ⟨-, -, ht⟩
  · cases hb.symm.trans hidle
  · exact exec_completes hexec
  · exact .inl ⟨.illegalCommand, ht⟩

/-! The error a command reports (rules R153, R158) -/

/-- A result that fails wherever the condition of a class does not hold reports the error that class names. -/
theorem reports_of_ite_none {p : Prop} [Decidable p] {x e : Byte × Byte} {s : State} {r : Result}
    (h : (if p then none else some x) = some e) (hfails : ¬p → r = .next (failedFrom x.1 x.2 s)) :
    r = .next (failedFrom e.1 e.2 s) := by
  obtain ⟨hp, he⟩ := Option.ite_none_left_eq_some.mp h
  cases he
  exact hfails hp

/-- Class 2: a parameter error is reported whatever else holds. -/
theorem exec_of_parameterError {i : Instr} {s : State} {e : Byte × Byte} (h : parameterError i s = some e) :
    exec i s = .next (failedFrom e.1 e.2 s) := by
  cases i with
  | setKey bits =>
    exact reports_of_ite_none h fun hillegal =>
      exec_setKey_of_illegal (Bool.eq_false_iff.mpr (mt (legalKeyBits_iff bits).mp hillegal))
  | pbkdf2 =>
    obtain ⟨hiter, he⟩ := Option.ite_none_right_eq_some.mp h
    cases he
    exact exec_pbkdf2_of_iter_zero hiter
  | _ => cases h

/-- Class 3: a context-phase error is reported; the commands that have one have no parameter error. -/
theorem exec_of_contextError {i : Instr} {s : State} {e : Byte × Byte} (h : contextError i s = some e) :
    exec i s = .next (failedFrom e.1 e.2 s) := by
  cases i with
  | encryptBlock =>
    exact reports_of_ite_none h fun hkey => blockCommand_of_noKey aesEnc (Bool.eq_false_iff.mpr hkey)
  | decryptBlock =>
    exact reports_of_ite_none h fun hkey => blockCommand_of_noKey aesDec (Bool.eq_false_iff.mpr hkey)
  | ctrCrypt => exact reports_of_ite_none h fun hkey => exec_ctrCrypt_of_noKey (Bool.eq_false_iff.mpr hkey)
  | shaUpdate => exact reports_of_ite_none h exec_shaUpdate_of_noHash
  | shaFinal => exact reports_of_ite_none h exec_shaFinal_of_noHash
  | hmacUpdate => exact reports_of_ite_none h exec_hmacUpdate_of_noHmac
  | hmacFinal => exact reports_of_ite_none h exec_hmacFinal_of_noHmac
  | _ => cases h

/-- The range check of a command fails on any list that has all of its operands. -/
theorem check_fails_of_not_operandsInRange {i : Instr} {s : State} (h : ¬OperandsInRange i s) {os : List Operand}
    (hos : inputOperands i s ++ outputOperands i s ⊆ os) : (!allValid os s) = true := by
  have hinvalid : ¬allValid os s = true := fun hv => h fun o ho => (allValid_iff os s).mp hv o (hos ho)
  simp [hinvalid]

/-- A command that passes the checks of its parameters and contexts reports an operand out of range. -/
theorem exec_of_not_operandsInRange {i : Instr} {s : State} (hparam : parameterError i s = none)
    (hctx : contextError i s = none) (hrange : ¬OperandsInRange i s) : exec i s = .next (raise .badRange s) := by
  have hcheck {os : List Operand} := check_fails_of_not_operandsInRange hrange (os := os)
  cases i with
  | setKey bits =>
    have hlegal : legalKeyBits bits = true :=
      (legalKeyBits_iff bits).mpr (by simpa [parameterError, or_iff_not_imp_left] using hparam)
    exact (if_neg (by simp [hlegal])).trans (if_pos (hcheck (.refl _)))
  | encryptBlock =>
    have hkey : s.aes.valid = true := by simpa [contextError] using hctx
    exact (if_neg (by simp [hkey])).trans (if_pos (hcheck (.refl _)))
  | decryptBlock =>
    have hkey : s.aes.valid = true := by simpa [contextError] using hctx
    exact (if_neg (by simp [hkey])).trans (if_pos (hcheck (.refl _)))
  | ctrCrypt =>
    have hkey : s.aes.valid = true := by simpa [contextError] using hctx
    exact (if_neg (by simp [hkey])).trans (if_pos (hcheck (by simp [inputOperands, outputOperands])))
  | shaUpdate =>
    have hactive : s.sha.st = .active := by simpa [contextError] using hctx
    exact (if_neg (by simp [hashActive, hactive])).trans (if_pos (hcheck (.refl _)))
  | shaFinal =>
    have hactive : s.sha.st = .active := by simpa [contextError] using hctx
    exact (if_neg (by simp [hashActive, hactive])).trans (if_pos (hcheck (.refl _)))
  | hmac => exact if_pos (hcheck (.refl _))
  | hmacInit => exact if_pos (hcheck (.refl _))
  | hmacUpdate =>
    have hactive : s.hm.st = .active := by simpa [contextError] using hctx
    exact (if_neg (by simp [hmacActive, hactive])).trans (if_pos (hcheck (.refl _)))
  | hmacFinal =>
    have hactive : s.hm.st = .active := by simpa [contextError] using hctx
    exact (if_neg (by simp [hmacActive, hactive])).trans (if_pos (hcheck (.refl _)))
  | pbkdf2 =>
    have hiter : s.regs.iter ≠ 0#32 := by simpa [parameterError] using hparam
    exact (if_neg (mt (reg_iter_eq_zero_iff s).mp hiter)).trans (if_pos (hcheck (.refl _)))
  | _ => exact absurd (List.forall_mem_nil _) hrange

/-- Class 4: `BAD_RANGE` is reported where neither a parameter nor a context-phase error holds. -/
theorem exec_of_rangeError {i : Instr} {s : State} {e : Byte × Byte} (hparam : parameterError i s = none)
    (hctx : contextError i s = none) (h : rangeError i s = some e) : exec i s = .next (failedFrom e.1 e.2 s) :=
  reports_of_ite_none h (exec_of_not_operandsInRange hparam hctx)

/-- The error that a failed command leaves in `ERRINFO` is one of its row in rule R158. -/
theorem mem_errorsOf_of_exec_fails {i : Instr} {s : State} {e : Byte × Byte}
    (h : exec i s = .next (failedFrom e.1 e.2 s)) : e ∈ errorsOf i := by
  rcases exec_next h with ⟨e', hmem, hraise⟩ | ⟨u, -, -, hcomplete⟩
  · have hcode : e.1 = e'.code := congrArg (fun t => t.errInfo.code) hraise
    have hdetail : e.2 = e'.detail := congrArg (fun t => t.errInfo.detail) hraise
    rwa [← hcode, ← hdetail] at hmem
  · have herr : true = false := congrArg (fun t => t.flags.err) hcomplete
    cases herr

/-- A command none of whose error conditions holds does not end with an error. -/
theorem err_eq_false_of_exec_next {i : Instr} {s t : State} (hnone : expectedError i s = none)
    (h : exec i s = .next t) : t.flags.err = false := by
  rcases (exec_readsInputs hnone).succeeds_or_refused with ⟨-, u, hu⟩ | ⟨o, -, k, -, -, -, hrefused⟩
  · have ht : complete u = t := Host.Outcome.next.inj (hu.symm.trans h)
    rw [← ht, complete_flags]
  · cases hrefused.symm.trans h

end Sys2Proof.Machine

namespace Sys2Proof.Proofs

open Sys2Proof.Machine

/-- Settles O28: the core's turn ends in `raise` of the old state or in `complete` of a state with the old flags. -/
theorem completion : Obligations.Completion := by
  intro s t hb hcore h
  have hends := coreTurn_completes (s := { s with turns := s.turns.tail }) hb ((step_of_isCoreTurn hcore).symm.trans h)
  refine ⟨fun herr => ?_, fun herr => ?_, statusWord_keyValid t, statusWord_shaPhase t, statusWord_hmacPhase t⟩
  · rcases hends with ⟨e, rfl⟩ | ⟨u, hflags, rfl⟩
    · cases herr
    · rw [complete_flags, hflags]
      exact ⟨rfl, errInfoWord_complete u⟩
  · rcases hends with ⟨e, rfl⟩ | ⟨u, -, rfl⟩
    · exact ⟨e.code, e.detail, e.code_ne_zero, rfl, rfl⟩
    · cases herr

/-- Settles O29: each class of errors is reported once the classes before it are ruled out, and what is reported is in
the command's row by the inversion of `exec`. -/
theorem firstErrorReported : Obligations.FirstErrorReported := by
  refine ⟨fun s hb hcore hd => ?_, fun i s => ⟨fun e he => ?_, fun _ e he => ?_, fun hparam hctx e he => ?_,
    fun hparam hctx hrange t => ?_⟩⟩
  · exact (step_of_isCoreTurn hcore).trans (coreTurn_of_illegal hb hd)
  · have hfails := exec_of_parameterError he
    exact ⟨hfails, mem_errorsOf_of_exec_fails hfails⟩
  · have hfails := exec_of_contextError he
    exact ⟨hfails, mem_errorsOf_of_exec_fails hfails⟩
  · have hfails := exec_of_rangeError hparam hctx he
    exact ⟨hfails, mem_errorsOf_of_exec_fails hfails⟩
  · exact err_eq_false_of_exec_next (by rw [expectedError, hparam, hctx, hrange]; rfl)

end Sys2Proof.Proofs
end

section
/-! Encoding and decoding undo each other on the words that stand for a command; and the obligations about the two
directions (rules R60 to R63). -/

namespace Sys2Proof

@[simp] theorem argField_encode (i : Instr) : argField (encode i) = i.argument := argField_append _ _ _

@[simp] theorem rsvField_encode (i : Instr) : rsvField (encode i) = 0#8 := rsvField_append _ _ _

@[simp] theorem opcField_encode (i : Instr) : opcField (encode i) = i.opcode := opcField_append _ _ _

theorem Instr.argument_of_ne_setKey {i : Instr} (hi : ∀ bits, i ≠ .setKey bits) : i.argument = 0#16 := by
  cases i with
  | setKey bits => exact absurd rfl (hi bits)
  | _ => rfl

theorem Instr.wellFormed_of_ne_setKey {i : Instr} (hi : ∀ bits, i ≠ .setKey bits) : i.wellFormed = true := by
  cases i with
  | setKey bits => exact absurd rfl (hi bits)
  | _ => rfl

theorem Instr.wellFormed_setKey_iff {bits : Nat} : (Instr.setKey bits).wellFormed = true ↔ bits < 2 ^ 16 := by
  rw [Instr.wellFormed, decide_eq_true_iff]

theorem Instr.eq_setKey_or_ne (i : Instr) : (∃ bits, i = .setKey bits) ∨ ∀ bits, i ≠ .setKey bits := by
  rw [← not_exists]
  exact em _

/-- A key size that fits `ARG` comes back from it; the field of every other command is 0. -/
theorem decode_encode {i : Instr} (hw : i.wellFormed = true) : decode (encode i) = .ok i := by
  rw [decode_eq_ok_iff, argField_encode, rsvField_encode, opcField_encode]
  rcases i.eq_setKey_or_ne with ⟨bits, rfl⟩ | hi
  · have hbits : bits = (BitVec.ofNat 16 bits).toNat :=
      (Nat.mod_eq_of_lt (Instr.wellFormed_setKey_iff.mp hw)).symm
    exact ⟨rfl, .inl ⟨rfl, congrArg Instr.setKey hbits⟩⟩
  · exact ⟨rfl, .inr ⟨Instr.opcode_ne_one hi, Instr.argument_of_ne_setKey hi, rfl⟩⟩

theorem wellFormed_of_decode {c : Word} {i : Instr} (h : decode c = .ok i) : i.wellFormed = true := by
  obtain ⟨-, ⟨-, rfl⟩ | ⟨hne, -, hopc⟩⟩ := decode_eq_ok_iff.mp h
  · exact Instr.wellFormed_setKey_iff.mpr (argField c).isLt
  · exact Instr.wellFormed_of_ne_setKey fun bits hi => hne (hopc.trans (by rw [hi]; rfl))

/-- The three fields that `encode` lays out are those of the word. -/
theorem encode_of_decode {c : Word} {i : Instr} (h : decode c = .ok i) : encode i = c := by
  refine (eq_append_iff.mpr ?_).symm
  obtain ⟨hrsv, ⟨hopc, rfl⟩ | ⟨hne, harg, hopc⟩⟩ := decode_eq_ok_iff.mp h
  · exact ⟨by simp [Instr.argument], hrsv, hopc⟩
  · have hi : ∀ bits, i ≠ .setKey bits := fun bits hi => hne (hopc.trans (by rw [hi]; rfl))
    exact ⟨harg.trans (Instr.argument_of_ne_setKey hi).symm, hrsv, hopc⟩

end Sys2Proof

namespace Sys2Proof.Proofs

open Sys2Proof.Machine

/-- Settles O4: the decoder reads back the three fields that the encoder lays out. -/
theorem encodeThenDecode : Obligations.EncodeThenDecode := fun _ => decode_encode

/-- Settles O5: a word that decodes has exactly the fields that the encoder gives its command. -/
theorem decodeThenEncode : Obligations.DecodeThenEncode :=
  fun _ _ h => ⟨wellFormed_of_decode h, encode_of_decode h⟩

/-- Settles O1: each word is the encoding of its command, and the command is well formed. -/
theorem commandWordsDecode : Obligations.CommandWordsDecode :=
  ⟨decode_encode (i := .setKey 128) rfl, decode_encode (i := .setKey 192) rfl, decode_encode (i := .setKey 256) rfl,
    decode_encode (i := .encryptBlock) rfl, decode_encode (i := .decryptBlock) rfl, decode_encode (i := .ctrCrypt) rfl,
    decode_encode (i := .shaInit) rfl, decode_encode (i := .shaUpdate) rfl, decode_encode (i := .shaFinal) rfl,
    decode_encode (i := .hmac) rfl, decode_encode (i := .hmacInit) rfl, decode_encode (i := .hmacUpdate) rfl,
    decode_encode (i := .hmacFinal) rfl, decode_encode (i := .pbkdf2) rfl, decode_encode (i := .zeroize) rfl⟩

end Sys2Proof.Proofs
end

section
/-! The register block, the OPMEM window and the bus as the host meets them: one equation for each access; and the
obligations about the core's turn, the busy hazard and the host's accesses (`10_state.md`, `20_memory.md`,
`70_reset_and_hazards.md`). -/

namespace Sys2Proof.Machine

/-! The core's turn (rules R46, R166) -/

theorem coreTurn_of_idle {s : State} (hb : s.flags.busy = false) : coreTurn s = .next s := by
  simp [coreTurn, hb]

theorem step_of_no_turns {s : State} (ht : s.turns = []) : step s = coreTurn s := by
  simp only [step, ht]

theorem step_of_bus {s : State} {b : BusAccess} {rest : List Turn} (ht : s.turns = .bus b :: rest) :
    step s = hostBus b { s with turns := rest } := by
  simp only [step, ht]

/-! Which register accesses go on (rules R32, R45) -/

theorem withRegister_of_aligned {off : Nat} (ha : off % 4 = 0) (hoff : off < 0x1000) (t : State) :
    withRegister off t = .next t := by
  rw [withRegister, windowOffset, if_neg (not_not.mpr ha), if_neg (Nat.not_le.mpr hoff)]

theorem withRegister_of_misaligned {off : Nat} (ha : off % 4 ≠ 0) (t : State) :
    withRegister off t = .refused (.badRegisterAccess off) := by
  rw [withRegister, if_pos ha]

theorem withRegister_of_beyond {off : Nat} (ha : off % 4 = 0) (hoff : 0x1000 ≤ off) (t : State) :
    withRegister off t = .refused (.noSuchAddress off) := by
  rw [withRegister, windowOffset, if_neg (not_not.mpr ha), if_pos hoff]

theorem withWindow_of_lt {k : Nat} {s : State} (hk : k < s.params.opmemBytes) (t : State) :
    withWindow k s t = .next t := if_pos hk

theorem withWindow_of_le {k : Nat} {s : State} (hk : s.params.opmemBytes ≤ k) (t : State) :
    withWindow k s t = .refused (.noSuchAddress (0x1000 + k)) := if_neg (Nat.not_lt.mpr hk)

section Idle

variable {s : State} {rest : List Turn} {off : Nat} {v : Word}

theorem step_read_register (ht : s.turns = .host (.regRead off) :: rest) (hb : s.flags.busy = false) :
    step s = withRegister off (reply (.reg off (registerValue s off)) { s with turns := rest }) :=
  step_of_host_idle ht hb

theorem step_write_register (ht : s.turns = .host (.regWrite off v) :: rest) (hb : s.flags.busy = false) :
    step s = withRegister off (registerWrite off v { s with turns := rest }) :=
  step_of_host_idle ht hb

/-- A read or a write of a register comes to the same test of its offset. -/
theorem step_register (ht : s.turns = .host (.regRead off) :: rest ∨ s.turns = .host (.regWrite off v) :: rest)
    (hb : s.flags.busy = false) : ∃ t, step s = withRegister off t := by
  rcases ht with ht | ht
  · exact ⟨_, step_read_register ht hb⟩
  · exact ⟨_, step_write_register ht hb⟩

/-- A read or a write of a byte of the window comes to the same test of its address. -/
theorem step_window {k : Nat} {b : Byte}
    (ht : s.turns = .host (.memReadByte k) :: rest ∨ s.turns = .host (.memWriteByte k b) :: rest)
    (hb : s.flags.busy = false) : ∃ t, step s = withWindow k { s with turns := rest } t := by
  rcases ht with ht | ht
  · exact ⟨_, step_of_host_idle ht hb⟩
  · exact ⟨_, step_of_host_idle ht hb⟩

end Idle

/-! `STATUS` and `ERRINFO` (rules R23, R24) -/

/-- A read of `STATUS` goes on, busy or not (rule R196). -/
theorem step_read_status {s : State} {rest : List Turn} (ht : s.turns = .host (.regRead statusOffset) :: rest) :
    step s = .next (reply (.reg statusOffset (statusWord s)) { s with turns := rest }) := by
  rw [step_of_host ht, hostAccess, allowedWhileBusy, beq_self_eq_true, Bool.not_true, Bool.and_false]
  rfl

/-- Bits 3 to 0 of `STATUS` (rule R23). -/
theorem statusWord_flags (s : State) :
    (statusWord s).getLsbD 0 = s.flags.busy ∧ (statusWord s).getLsbD 1 = s.flags.done ∧
      (statusWord s).getLsbD 2 = s.flags.err ∧ (statusWord s).getLsbD 3 = s.flags.esticky := by
  simp only [statusWord, BitVec.getLsbD_append]
  simp

/-- Bits 31:9 of `STATUS` are reserved (rule R23). -/
theorem statusWord_reserved (s : State) : (statusWord s).extractLsb' 9 23 = 0#23 := by
  rw [statusWord]
  iterate 6 rw [BitVec.extractLsb'_append_eq_of_le (by decide)]
  exact BitVec.extractLsb'_append_eq_left

/-- Bits 2:0 of `STATUS` while a command is in flight (rule R196). -/
theorem statusWord_busy {s : State} (hb : s.flags.busy = true) (hd : s.flags.done = false)
    (he : s.flags.err = false) : (statusWord s).extractLsb' 0 3 = 0b001#3 := by
  obtain ⟨h0, h1, h2, -⟩ := statusWord_flags s
  ext i hi
  rw [← BitVec.getLsbD_eq_getElem, BitVec.getLsbD_extractLsb', Nat.zero_add]
  interval_cases i
  · rw [h0, hb]; simp
  · rw [h1, hd]; simp
  · rw [h2, he]; simp

/-- The four fields of `ERRINFO` (rule R24). -/
theorem errInfoWord_fields (s : State) :
    (errInfoWord s).extractLsb' 0 8 = s.errInfo.code ∧ (errInfoWord s).extractLsb' 8 8 = s.errInfo.detail ∧
      (errInfoWord s).extractLsb' 16 8 = s.errInfo.opc ∧ (errInfoWord s).extractLsb' 24 8 = 0#8 := by
  rw [errInfoWord]
  refine ⟨BitVec.extractLsb'_append_eq_right, ?_, ?_, ?_⟩ <;> rw [BitVec.extractLsb'_append_eq_of_le (by decide)]
  · exact BitVec.extractLsb'_append_eq_right
  · rw [BitVec.extractLsb'_append_eq_of_le (by decide)]
    exact BitVec.extractLsb'_append_eq_right
  · rw [BitVec.extractLsb'_append_eq_of_le (by decide)]
    exact BitVec.extractLsb'_append_eq_left

theorem registerWrite_status (v : Word) (s : State) :
    registerWrite statusOffset v s =
      { s with flags := { s.flags with esticky := s.flags.esticky && !v.getLsbD 3 } } := by
  show (if v.getLsbD 3 then clearSticky s else s) = _
  cases v.getLsbD 3
  · rw [if_neg nofun, Bool.not_false, Bool.and_true]
  · rw [if_pos rfl, Bool.not_true, Bool.and_false]
    rfl

/-! The operand registers and the reserved space (rules R20, R32) -/

theorem OperandReg.offset_valid (name : OperandReg) : name.offset % 4 = 0 ∧ name.offset < 0x1000 := by
  cases name <;> decide

theorem registerValue_offset (s : State) (name : OperandReg) : registerValue s name.offset = s.regs.get name := by
  cases name <;> rfl

theorem registerWrite_offset (s : State) (name : OperandReg) (v : Word) :
    registerWrite name.offset v s = { s with regs := s.regs.set name v } := by
  cases name <;> rfl

/-- The offsets of rule R20. -/
theorem eq_offset_of_mem {name : OperandReg} {off : Nat}
    (h : (name, off) ∈ [(OperandReg.keyAddr, 0x10), (.keyLen, 0x14), (.srcAddr, 0x18), (.srcLen, 0x1C),
      (.dstAddr, 0x20), (.dstLen, 0x24), (.ctrAddr, 0x28), (.iter, 0x2C)]) : off = name.offset := by
  cases name <;> simpa [OperandReg.offset] using h

theorem operandRegAt_eq_none {off : Nat} (h : off = 0x0C ∨ 0x30 ≤ off) : operandRegAt off = none := by
  rw [operandRegAt, List.find?_eq_none]
  intro name _ hname
  have hoff : name.offset = off := by simpa using hname
  have hbounds : 0x10 ≤ name.offset ∧ name.offset < 0x30 := by cases name <;> decide
  omega

theorem registerValue_reserved (s : State) {off : Nat} (h : off = 0x0C ∨ 0x30 ≤ off) :
    registerValue s off = 0#32 := by
  rw [registerValue, if_neg (by rw [statusOffset]; omega), if_neg (by rw [errInfoOffset]; omega),
    operandRegAt_eq_none h]

theorem registerWrite_reserved (s : State) (v : Word) {off : Nat} (h : off = 0x0C ∨ 0x30 ≤ off) :
    registerWrite off v s = s := by
  rw [registerWrite, if_neg (by rw [cmdOffset]; omega), if_neg (by rw [statusOffset]; omega), operandRegAt_eq_none h]

/-! The bus (rules R40, R45) -/

theorem busTarget_register (p : Params) {off : Nat} (h : off < 0x1000) :
    busTarget p (p.coreBase + off) = .register off := by
  rw [busTarget, windowOffset, if_neg (by omega), Nat.add_sub_cancel_left, if_pos h]

theorem busTarget_window (p : Params) {k : Nat} (h : k < p.opmemBytes) :
    busTarget p (p.coreBase + 0x1000 + k) = .window k := by
  rw [busTarget, if_neg (by omega), Nat.add_assoc, Nat.add_sub_cancel_left, if_neg (by rw [windowOffset]; omega),
    if_pos (by rw [windowOffset]; omega), windowOffset, Nat.add_sub_cancel_left]

theorem busTarget_outside (p : Params) {addr : Nat}
    (h : p.coreBase + 0x1000 + p.opmemBytes ≤ addr ∨ addr < p.coreBase) : busTarget p addr = .outside := by
  rw [busTarget, windowOffset]
  rcases h with h | h
  · rw [if_neg (by omega), if_neg (by omega), if_neg (by omega)]
  · rw [if_pos h]

theorem hostBus_outside {s : State} {addr : Nat} (h : busTarget s.params addr = .outside) (width : Nat)
    (bytes : List Byte) :
    hostBus (.read addr width) s = .refused (.noSuchAddress addr) ∧
      hostBus (.write addr bytes) s = .refused (.noSuchAddress addr) := by
  simp only [hostBus, busRead, busWrite, h, and_self]

/-- A value is its high bits and its lowest byte lane. -/
theorem ofNat_add_lane (w n : Nat) (b : Byte) : BitVec.ofNat (w + 8) (b.toNat + 256 * n) = BitVec.ofNat w n ++ b := by
  have hb := b.isLt
  have hmod : (b.toNat + 256 * n) % 2 ^ (w + 8) = 2 ^ 8 * (n % 2 ^ w) + b.toNat := by
    rw [Nat.pow_add', Nat.mod_mul, show (b.toNat + 256 * n) % 2 ^ 8 = b.toNat by omega,
      show (b.toNat + 256 * n) / 2 ^ 8 = n by omega, Nat.add_comm]
  apply BitVec.eq_of_toNat_eq
  rw [BitVec.toNat_append, BitVec.toNat_ofNat, BitVec.toNat_ofNat, ← Nat.shiftLeft_add_eq_or_of_lt hb,
    Nat.shiftLeft_eq, Nat.mul_comm (n % 2 ^ w), hmod]

/-- The byte lanes of a 32-bit register access, the lowest first (rule R45). -/
theorem ofNat_fromLanes (b0 b1 b2 b3 : Byte) :
    BitVec.ofNat 32 (fromLanes [b0, b1, b2, b3]) = b3 ++ b2 ++ b1 ++ b0 := by
  simp only [fromLanes, Nat.mul_zero, Nat.add_zero]
  rw [ofNat_add_lane 24, ofNat_add_lane 16, ofNat_add_lane 8, BitVec.ofNat_toNat, BitVec.setWidth_eq]

end Sys2Proof.Machine

namespace Sys2Proof.Proofs

open Sys2Proof.Machine

/-- Settles O6: the core's turn, listed or not, is `coreTurn`, which runs the latched word or does nothing. -/
theorem stepRunsLatchedCommand : Obligations.StepRunsLatchedCommand := by
  intro s i rest
  refine ⟨fun hb hd => ⟨fun ht => step_of_core_busy ht hb hd, fun ht => ?_⟩, fun hb => ⟨fun ht => ?_, fun ht => ?_⟩⟩
  · exact (step_of_no_turns ht).trans (coreTurn_of_busy hb hd)
  · exact (step_of_core ht).trans (coreTurn_of_idle (s := { s with turns := rest }) hb)
  · exact (step_of_no_turns ht).trans (coreTurn_of_idle hb)

/-- Settles O8: a read of `STATUS` is a `reply` with `statusWord`, read bit by bit; anything else meets the busy
hazard. -/
theorem busyHazard : Obligations.BusyHazard := by
  intro s rest hb
  refine ⟨fun ⟨hd, he⟩ ht => ⟨statusWord s, step_read_status ht, statusWord_busy hb hd he, ?_, statusWord_keyValid s,
    statusWord_shaPhase s, statusWord_hmacPhase s, statusWord_reserved s⟩, fun a ha ht => step_of_host_busy ht hb ha⟩
  exact (statusWord_flags s).2.2.2

/-- Settles O37: the two registers bit by bit, and the one bit of `STATUS` that a write reaches. -/
theorem statusAndErrInfoRegisters : Obligations.StatusAndErrInfoRegisters := by
  intro s rest v hb
  refine ⟨fun ht => ⟨statusWord s, step_read_status ht, ?_⟩, fun ht => ⟨errInfoWord s, ?_, errInfoWord_fields s⟩,
    fun ht => ?_, fun ht => ?_⟩
  · obtain ⟨hbusy, hdone, herr, hsticky⟩ := statusWord_flags s
    exact ⟨hbusy, hdone, herr, hsticky, statusWord_keyValid s, statusWord_shaPhase s, statusWord_hmacPhase s,
      statusWord_reserved s⟩
  · exact (step_read_register ht hb).trans (withRegister_of_aligned (by decide) (by decide) _)
  · rw [step_write_register ht hb, withRegister_of_aligned (by decide) (by decide)]
    exact congrArg _ (registerWrite_status v _)
  · exact (step_write_register ht hb).trans (withRegister_of_aligned (by decide) (by decide) _)

/-- Settles O38: each offset is that of one register, which a write sets and a read returns. -/
theorem operandRegisterAccess : Obligations.OperandRegisterAccess := by
  intro s rest name off v hb hmem
  obtain rfl := eq_offset_of_mem hmem
  obtain ⟨ha, hoff⟩ := name.offset_valid
  refine ⟨fun ht => ⟨s.regs.set name v, ?_, regs_get_set_same _ _ _, fun other => regs_get_set_other _ _⟩,
    fun ht => ?_⟩
  · rw [step_write_register ht hb, withRegister_of_aligned ha hoff, registerWrite_offset]
  · rw [step_read_register ht hb, withRegister_of_aligned ha hoff, registerValue_offset]
    rfl

/-- Settles O40: the test of the offset for a register access, the address map for a bus access. -/
theorem hostAccessStops : Obligations.HostAccessStops := by
  intro s rest hb
  refine ⟨fun off v ht => ?_, fun off width hoff ht => ?_, fun off bytes hoff ht => ?_, fun k width hk ht => ?_,
    fun k bytes hk ht => ?_, fun addr width bytes h ht => ?_⟩
  · obtain ⟨t, hstep⟩ := step_register ht hb
    exact ⟨fun ha => hstep.trans (withRegister_of_misaligned ha t),
      fun ha hoff => hstep.trans (withRegister_of_beyond ha hoff t),
      fun ha hoff => ⟨t, hstep.trans (withRegister_of_aligned ha hoff t)⟩⟩
  · rw [step_of_bus ht]
    simp only [hostBus, busRead, busTarget_register s.params hoff]
    rfl
  · rw [step_of_bus ht]
    simp only [hostBus, busWrite, busTarget_register s.params hoff]
    refine ⟨fun hlen => if_neg hlen, fun b0 b1 b2 b3 hbytes => ?_⟩
    rw [hbytes, ← ofNat_fromLanes]
    rfl
  · rw [step_of_bus ht]
    simp only [hostBus, busRead, busTarget_window s.params hk, expand, List.map_map]
    rfl
  · rw [step_of_bus ht]
    simp only [hostBus, busWrite, busTarget_window s.params hk, expand, List.map_map]
    rfl
  · obtain ⟨hread, hwrite⟩ := hostBus_outside (s := { s with turns := rest }) (busTarget_outside s.params h) width bytes
    rcases ht with ht | ht
    · exact (step_of_bus ht).trans hread
    · exact (step_of_bus ht).trans hwrite

/-- Settles O39: no register stands at a reserved offset; the refusals are among those of O40. -/
theorem reservedSpace : Obligations.ReservedSpace := by
  intro s rest hb
  obtain ⟨hregister, hbusRead, hbusWrite, -, -, houtside⟩ := hostAccessStops s rest hb
  refine ⟨fun off v hres ha => ⟨fun ht => ?_, fun ht => ?_⟩, fun off v ha ht => ⟨_, (hregister off v ht).1 ha⟩,
    fun off width bytes hoff hwidth hlen ht => ?_, fun addr width bytes h ht => ⟨_, houtside addr width bytes h ht⟩⟩
  · rw [step_read_register ht hb, withRegister_of_aligned ha (by omega), registerValue_reserved s (by omega)]
    rfl
  · rw [step_write_register ht hb, withRegister_of_aligned ha (by omega), registerWrite_reserved _ v (by omega)]
  · rcases ht with ht | ht
    · exact ⟨_, (hbusRead off width hoff ht).trans (if_neg hwidth)⟩
    · exact ⟨_, (hbusWrite off bytes hoff ht).1 hlen⟩

/-- Settles O41: below `OPMEM_BYTES` a byte is written and read alone; from there on the access is refused. -/
theorem opmemWindow : Obligations.OpmemWindow := by
  intro s rest k b hb
  refine ⟨fun hk => ⟨fun ht => ⟨s.opmem.write k b, ?_, byteAt_write_same _ _ _, fun a => byteAt_write_other _ _⟩,
    fun ht => ?_⟩, fun hk ht => ?_⟩
  · exact (step_of_host_idle ht hb).trans (withWindow_of_lt (s := { s with turns := rest }) hk _)
  · exact (step_of_host_idle ht hb).trans (withWindow_of_lt (s := { s with turns := rest }) hk _)
  · obtain ⟨t, hstep⟩ := step_window ht hb
    exact hstep.trans (withWindow_of_le (s := { s with turns := rest }) hk t)

end Sys2Proof.Proofs
end

section
/-! The invariant (rules R17, R26, R31; U26): it holds after reset, every command and every access of the host keeps it;
and the obligations about it. -/

namespace Sys2Proof.Machine

/-! The cleared contexts (rules R30, R140) -/

theorem AesContext.cleared_wf : AesContext.cleared.Wf := ⟨nofun, fun _ => rfl⟩

theorem ShaContext.cleared_wf : ShaContext.cleared.Wf := ⟨nofun, fun _ => rfl⟩

theorem HmacContext.cleared_wf : HmacContext.cleared.Wf := ⟨nofun, fun _ => ⟨rfl, rfl⟩⟩

theorem inv_applyReset (s : State) : (applyReset s).Inv where
  opmem := wf_nil _
  aes := AesContext.cleared_wf
  sha := ShaContext.cleared_wf
  hm := HmacContext.cleared_wf
  errors := ⟨nofun, fun _ => rfl⟩
  busy := nofun

theorem start_eq_applyReset (p : Params) (ts : List Turn) :
    State.start p ts = applyReset (State.start p ts) := rfl

theorem inv_start (p : Params) (ts : List Turn) : (State.start p ts).Inv := by
  rw [start_eq_applyReset]
  exact inv_applyReset _

/-! The commands (rules R16 to R18, R26) -/

/-- The parts of the invariant that a command's own assignments can touch. -/
structure State.PartsWf (s : State) : Prop where
  opmem : s.opmem.wf s.params.opmemBytes
  aes : s.aes.Wf
  sha : s.sha.Wf
  hm : s.hm.Wf

theorem State.Inv.partsWf {s : State} (h : s.Inv) : s.PartsWf := ⟨h.opmem, h.aes, h.sha, h.hm⟩

theorem State.PartsWf.inv_complete {s : State} (h : s.PartsWf) : (complete s).Inv where
  opmem := h.opmem
  aes := h.aes
  sha := h.sha
  hm := h.hm
  errors := ⟨nofun, fun _ => rfl⟩
  busy := nofun

theorem State.PartsWf.inv_raise {s : State} (h : s.PartsWf) (e : CommandError) : (raise e s).Inv where
  opmem := h.opmem
  aes := h.aes
  sha := h.sha
  hm := h.hm
  errors := ⟨fun _ => ⟨rfl, e.code_ne_zero⟩, nofun⟩
  busy := nofun

/-- An operand in range is stored inside OPMEM. -/
theorem State.PartsWf.store {s : State} (h : s.PartsWf) {o : Operand} {bs : List Byte} (hlen : bs.length = o.len)
    (hrange : o.addr + o.len ≤ s.params.opmemBytes) : (store o bs s).PartsWf :=
  ⟨wf_writeBytes bs (hlen ▸ hrange) h.opmem, h.aes, h.sha, h.hm⟩

theorem State.PartsWf.setAes {s : State} (h : s.PartsWf) {c : AesContext} (hc : c.Wf) : (setAes c s).PartsWf :=
  ⟨h.opmem, hc, h.sha, h.hm⟩

theorem State.PartsWf.setSha {s : State} (h : s.PartsWf) {hash : HashState} {st : Phase}
    (hc : (ShaContext.mk hash st).Wf) : (setSha hash st s).PartsWf :=
  ⟨h.opmem, h.aes, hc, h.hm⟩

theorem State.PartsWf.setHmac {s : State} (h : s.PartsWf) {io : HashState × HashState} {st : Phase}
    (hc : (HmacContext.mk io.1 io.2 st).Wf) : (setHmac io st s).PartsWf :=
  ⟨h.opmem, h.aes, h.sha, hc⟩

theorem State.PartsWf.consumeHmac {s : State} (h : s.PartsWf) : (consumeHmac s).PartsWf :=
  ⟨h.opmem, h.aes, h.sha, nofun, fun _ => ⟨rfl, rfl⟩⟩

theorem State.PartsWf.zeroizeAll (s : State) : (zeroizeAll s).PartsWf :=
  ⟨wf_zeroed _, AesContext.cleared_wf, ShaContext.cleared_wf, HmacContext.cleared_wf⟩

/-- A hash started on a whole block has nothing buffered. -/
theorem shaUpdate_shaInit_block {D : List Byte} (hD : D.length = 128) : (shaUpdate shaInit D).n = 0 := by
  rw [shaUpdate_n (by decide), hD]
  rfl

theorem ShaContext.active_wf {hash : HashState} (h : hash.Wf) : (ShaContext.mk hash .active).Wf :=
  ⟨fun _ => h, fun hst => absurd rfl hst⟩

theorem HmacContext.active_wf {inner outer : HashState} (hi : inner.Wf) (ho : outer.Wf) (hn : outer.n = 0) :
    (HmacContext.mk inner outer .active).Wf :=
  ⟨fun _ => ⟨hi, ho, hn⟩, fun hst => absurd rfl hst⟩

/-- The effect of a command keeps memory and contexts well formed. -/
theorem CommandEffect.partsWf {s u : State} {i : Instr} (heffect : CommandEffect s i u) (hrange : OperandsInRange i s)
    (h : s.PartsWf) : u.PartsWf := by
  have hout : ∀ o ∈ outputOperands i s, o.addr + o.len ≤ s.params.opmemBytes :=
    fun o ho => hrange o (List.mem_append_right _ ho)
  cases heffect with
  | setKey hlegal hread => exact h.setAes (AesContext.ofKey_wf hlegal (read_length hread))
  | encryptBlock hvalid hread => exact h.store Vector.length_toList (hout _ List.mem_cons_self)
  | decryptBlock hvalid hread => exact h.store Vector.length_toList (hout _ List.mem_cons_self)
  | ctrCrypt hvalid hread hctr =>
    refine (h.store ?_ (hout _ List.mem_cons_self)).store Vector.length_toList
      (hout _ (List.mem_cons_of_mem _ List.mem_cons_self))
    exact (length_ctrStream _ _ _).trans (read_length hread)
  | shaInit => exact h.setSha (ShaContext.active_wf shaInit_wf)
  | shaUpdate hactive hread =>
    rw [hactive]
    exact h.setSha (ShaContext.active_wf (shaUpdate_wf (h.sha.1 hactive) _))
  | shaFinal hactive =>
    exact (h.store (length_shaFinal _) (hout _ List.mem_cons_self)).setSha ⟨nofun, fun _ => rfl⟩
  | hmac hkey hread => exact (h.store (length_hmacTag _ _) (hout _ List.mem_cons_self)).consumeHmac
  | hmacInit hkey =>
    exact h.setHmac (HmacContext.active_wf (shaUpdate_wf shaInit_wf _) (shaUpdate_wf shaInit_wf _)
      (shaUpdate_shaInit_block (length_paddedKey _ _)))
  | hmacUpdate hactive hread =>
    obtain ⟨hinner, houter, hn⟩ := h.hm.1 hactive
    rw [hactive]
    exact h.setHmac (HmacContext.active_wf (shaUpdate_wf hinner _) houter hn)
  | hmacFinal hactive => exact (h.store (length_hmacFinal _) (hout _ List.mem_cons_self)).consumeHmac
  | pbkdf2 hiter hkey hread => exact (h.store (length_pbkdf2 _ _ _ _) (hout _ List.mem_cons_self)).consumeHmac
  | zeroize => exact .zeroizeAll s

theorem exec_keeps_inv {i : Instr} {s t : State} (h : s.Inv) (hexec : exec i s = .next t) : t.Inv := by
  rcases exec_next hexec with ⟨e, -, rfl⟩ | ⟨u, hrange, heffect, rfl⟩
  · exact h.partsWf.inv_raise e
  · exact (heffect.partsWf hrange h.partsWf).inv_complete

/-! The accesses of the host (rules R22, R23, R45) -/

/-- The invariant says nothing of the turns to come. -/
theorem State.Inv.with_turns {s : State} (h : s.Inv) (ts : List Turn) : ({ s with turns := ts } : State).Inv :=
  ⟨h.opmem, h.aes, h.sha, h.hm, h.errors, h.busy⟩

theorem State.Inv.issue {s : State} (h : s.Inv) (c : Word) : (issue c s).Inv where
  opmem := h.opmem
  aes := h.aes
  sha := h.sha
  hm := h.hm
  errors := ⟨nofun, fun _ => rfl⟩
  busy := fun _ => ⟨rfl, rfl⟩

theorem State.Inv.registerWrite {s : State} (h : s.Inv) (off : Nat) (v : Word) : (registerWrite off v s).Inv := by
  rcases registerWrite_cases off v s with ⟨-, hw⟩ | ⟨-, -, hw⟩ | ⟨r, -, hw⟩ | hw <;> rw [hw]
  · exact h.issue v
  · exact ⟨h.opmem, h.aes, h.sha, h.hm, h.errors, h.busy⟩
  · exact ⟨h.opmem, h.aes, h.sha, h.hm, h.errors, h.busy⟩
  · exact h

theorem idleAccess_keeps_inv {a : Access} {s t : State} (h : s.Inv) (ha : idleAccess a s = .next t) : t.Inv := by
  rcases idleAccess_next ha with ⟨r, rfl⟩ | ⟨off, v, -, rfl⟩ | ⟨k, b, -, hk, rfl⟩
  · exact ⟨h.opmem, h.aes, h.sha, h.hm, h.errors, h.busy⟩
  · exact h.registerWrite off v
  · exact ⟨wf_write b hk h.opmem, h.aes, h.sha, h.hm, h.errors, h.busy⟩

theorem step_keeps_inv {s t : State} (h : s.Inv) (hstep : step s = .next t) : t.Inv := by
  have htail := h.with_turns s.turns.tail
  rcases step_next hstep with ⟨-, rfl⟩ | ⟨-, -, rfl⟩ | ⟨-, -, i, -, hexec⟩ | ⟨-, -, -, rfl⟩ | ⟨a, -, -, ha⟩ |
    ⟨b, -, as, rfl⟩
  · exact inv_applyReset _
  · exact htail
  · exact exec_keeps_inv htail hexec
  · exact htail.partsWf.inv_raise .illegalCommand
  · exact idleAccess_keeps_inv htail ha
  · exact h.with_turns _

end Sys2Proof.Machine

namespace Sys2Proof.Proofs

open Sys2Proof.Machine

/-- Settles O11: the turn was reset's, the core's or the host's; each leaves memory, contexts and flags as the invariant
asks. -/
theorem stepKeepsInvariant : Obligations.StepKeepsInvariant := fun _ _ => step_keeps_inv

/-- Settles O10: everything the invariant speaks of is cleared, at the start and by the reset event. -/
theorem resetMeetsInvariant : Obligations.ResetMeetsInvariant :=
  ⟨inv_start, fun s rest ht => ⟨applyReset { s with turns := rest }, step_of_reset ht, rfl, inv_applyReset _⟩⟩

end Sys2Proof.Proofs
end

section
/-! What a command leaves unchanged: registers, contexts, flags, and the bytes outside its output operands; and the
obligations about the frame of every command. -/

namespace Sys2Proof.Machine

/-! The frame of a command's own assignments -/

section Effect

variable {s u : State} {i : Instr}

theorem CommandEffect.params_eq (h : CommandEffect s i u) : u.params = s.params := by
  cases h <;> simp

theorem CommandEffect.turns_eq (h : CommandEffect s i u) : u.turns = s.turns := by
  cases h <;> simp

theorem CommandEffect.replies_eq (h : CommandEffect s i u) : u.replies = s.replies := by
  cases h <;> simp

theorem CommandEffect.regs_eq (h : CommandEffect s i u) (hi : i ≠ .zeroize) : u.regs = s.regs := by
  cases h with
  | zeroize => exact absurd rfl hi
  | _ => simp

theorem CommandEffect.latch_eq (h : CommandEffect s i u) (hi : i ≠ .zeroize) : u.latch = s.latch := by
  cases h with
  | zeroize => exact absurd rfl hi
  | _ => simp

theorem CommandEffect.aes_eq (h : CommandEffect s i u) (hi : i ≠ .zeroize) (hk : ∀ bits, i ≠ .setKey bits) :
    u.aes = s.aes := by
  cases h with
  | zeroize => exact absurd rfl hi
  | setKey => exact absurd rfl (hk _)
  | _ => simp

theorem CommandEffect.sha_eq (h : CommandEffect s i u) (hi : i ≠ .zeroize) (hs : isShaCommand i = false) :
    u.sha = s.sha := by
  cases h with
  | zeroize => exact absurd rfl hi
  | shaInit | shaUpdate | shaFinal => cases hs
  | _ => simp

theorem CommandEffect.hm_eq (h : CommandEffect s i u) (hi : i ≠ .zeroize) (hh : usesHmac i = false) :
    u.hm = s.hm := by
  cases h with
  | zeroize => exact absurd rfl hi
  | hmac | hmacInit | hmacUpdate | hmacFinal | pbkdf2 => cases hh
  | _ => simp

theorem byteAt_store_outside {o : Operand} {bs : List Byte} (hlen : bs.length = o.len) {a : Nat}
    (ha : a < o.addr ∨ o.addr + o.len ≤ a) (s : State) : (store o bs s).opmem.byteAt a = s.opmem.byteAt a := by
  rw [store_opmem, byteAt_writeBytes_outside _ _ (by omega)]

/-- A command stores to its output operands alone, as many bytes as they hold. -/
theorem CommandEffect.byteAt_eq (h : CommandEffect s i u) (hi : i ≠ .zeroize) {a : Nat}
    (ha : ∀ o ∈ outputOperands i s, a < o.addr ∨ o.addr + o.len ≤ a) : u.opmem.byteAt a = s.opmem.byteAt a := by
  cases h with
  | zeroize => exact absurd rfl hi
  | setKey | shaInit | shaUpdate | hmacInit | hmacUpdate => simp
  | encryptBlock | decryptBlock => exact byteAt_store_outside Vector.length_toList (ha _ List.mem_cons_self) s
  | ctrCrypt hvalid hread hctr =>
    refine (byteAt_store_outside Vector.length_toList (ha _ (List.mem_cons_of_mem _ List.mem_cons_self)) _).trans ?_
    exact byteAt_store_outside ((length_ctrStream _ _ _).trans (read_length hread)) (ha _ List.mem_cons_self) s
  | shaFinal => exact byteAt_store_outside (length_shaFinal _) (ha _ List.mem_cons_self) s
  | hmac => exact byteAt_store_outside (length_hmacTag _ _) (ha _ List.mem_cons_self) s
  | hmacFinal => exact byteAt_store_outside (length_hmacFinal _) (ha _ List.mem_cons_self) s
  | pbkdf2 => exact byteAt_store_outside (length_pbkdf2 _ _ _ _) (ha _ List.mem_cons_self) s

end Effect

/-! The frame of a command that answers a next state -/

/-- What neither completion touches, and a command's assignments do not either, is as before. -/
theorem exec_keeps {α : Type} {i : Instr} {s t : State} (f : State → α) (hcomplete : ∀ u, f (complete u) = f u)
    (hraise : ∀ e u, f (raise e u) = f u) (heffect : ∀ {u}, CommandEffect s i u → f u = f s)
    (h : exec i s = .next t) : f t = f s := by
  rcases exec_next h with ⟨e, -, rfl⟩ | ⟨u, -, hu, rfl⟩
  · exact hraise e s
  · exact (hcomplete u).trans (heffect hu)

section Exec

variable {i : Instr} {s t : State}

theorem exec_keeps_params (h : exec i s = .next t) : t.params = s.params :=
  exec_keeps State.params complete_params raise_params CommandEffect.params_eq h

theorem exec_keeps_turns (h : exec i s = .next t) : t.turns = s.turns :=
  exec_keeps State.turns complete_turns raise_turns CommandEffect.turns_eq h

theorem exec_keeps_replies (h : exec i s = .next t) : t.replies = s.replies :=
  exec_keeps State.replies complete_replies raise_replies CommandEffect.replies_eq h

theorem exec_keeps_regs (hi : i ≠ .zeroize) (h : exec i s = .next t) : t.regs = s.regs :=
  exec_keeps State.regs complete_regs raise_regs (fun hu => hu.regs_eq hi) h

theorem exec_keeps_latch (hi : i ≠ .zeroize) (h : exec i s = .next t) : t.latch = s.latch :=
  exec_keeps State.latch complete_latch raise_latch (fun hu => hu.latch_eq hi) h

theorem exec_keeps_aes (hi : i ≠ .zeroize) (hk : ∀ bits, i ≠ .setKey bits) (h : exec i s = .next t) :
    t.aes = s.aes :=
  exec_keeps State.aes complete_aes raise_aes (fun hu => hu.aes_eq hi hk) h

theorem exec_keeps_sha (hi : i ≠ .zeroize) (hs : isShaCommand i = false) (h : exec i s = .next t) :
    t.sha = s.sha :=
  exec_keeps State.sha complete_sha raise_sha (fun hu => hu.sha_eq hi hs) h

theorem exec_keeps_hm (hi : i ≠ .zeroize) (hh : usesHmac i = false) (h : exec i s = .next t) : t.hm = s.hm :=
  exec_keeps State.hm complete_hm raise_hm (fun hu => hu.hm_eq hi hh) h

theorem exec_keeps_byteAt (hi : i ≠ .zeroize) {a : Nat}
    (ha : ∀ o ∈ outputOperands i s, a < o.addr ∨ o.addr + o.len ≤ a) (h : exec i s = .next t) :
    t.opmem.byteAt a = s.opmem.byteAt a :=
  exec_keeps (fun u => u.opmem.byteAt a) (fun _ => rfl) (fun _ _ => rfl) (fun hu => hu.byteAt_eq hi ha) h

theorem exec_shaUpdate_keeps_phase (h : exec .shaUpdate s = .next t) : t.sha.st = s.sha.st :=
  exec_keeps (fun u => u.sha.st) (fun _ => rfl) (fun _ _ => rfl) (fun hu => by cases hu; rfl) h

theorem exec_hmacUpdate_keeps_phase (h : exec .hmacUpdate s = .next t) :
    t.hm.st = s.hm.st ∧ t.hm.outer = s.hm.outer :=
  Prod.ext_iff.mp (exec_keeps (fun u => (u.hm.st, u.hm.outer)) (fun _ => rfl) (fun _ _ => rfl)
    (fun hu => by cases hu; rfl) h)

/-- The flags at the end of a command (rules R151, R152). -/
theorem exec_flags (h : exec i s = .next t) :
    t.flags.busy = false ∧ t.flags.done = true ∧ t.flags.esticky = (s.flags.esticky || t.flags.err) := by
  rcases exec_completes h with ⟨e, rfl⟩ | ⟨u, hflags, rfl⟩
  · simp
  · simp [hflags]

end Exec

theorem isShaCommand_eq_false {i : Instr} (h1 : i ≠ .shaInit) (h2 : i ≠ .shaUpdate) (h3 : i ≠ .shaFinal) :
    isShaCommand i = false := by
  cases i with
  | shaInit => exact absurd rfl h1
  | shaUpdate => exact absurd rfl h2
  | shaFinal => exact absurd rfl h3
  | _ => rfl

theorem usesHmac_eq_false {i : Instr} (h1 : i ≠ .hmac) (h2 : i ≠ .hmacInit) (h3 : i ≠ .hmacUpdate)
    (h4 : i ≠ .hmacFinal) (h5 : i ≠ .pbkdf2) : usesHmac i = false := by
  cases i with
  | hmac => exact absurd rfl h1
  | hmacInit => exact absurd rfl h2
  | hmacUpdate => exact absurd rfl h3
  | hmacFinal => exact absurd rfl h4
  | pbkdf2 => exact absurd rfl h5
  | _ => rfl

/-! Memories that read the same (rule R26) -/

/-- The canonical form of a memory with a first byte. -/
theorem wf_cons_iff {c : Host.Cell} {m : Memory} {size : Nat} :
    Memory.wf (c :: m) size ↔ (c.1 < size ∧ ∀ d ∈ m, c.1 < d.1) ∧ m.wf size := by
  simp only [Memory.wf, List.pairwise_cons, List.forall_mem_cons]
  tauto

/-- No byte stands below the first address of a canonical memory. -/
theorem byteAt_cons_eq_none {c : Host.Cell} {m : Memory} {k : Nat} (hc : ∀ d ∈ m, c.1 < d.1) (hk : k < c.1) :
    Memory.byteAt (c :: m) k = none :=
  byteAt_none_of_lt (List.forall_mem_cons.mpr ⟨hk, fun d hd => hk.trans (hc d hd)⟩)

theorem byteAt_cons_self (c : Host.Cell) (m : Memory) : Memory.byteAt (c :: m) c.1 = some c.2 := by
  rw [Memory.byteAt, if_pos rfl]

/-- Canonical memories that read the same have the same first address. -/
theorem head_addr_le {c d : Host.Cell} {m m' : Memory} (hd : ∀ e ∈ m', d.1 < e.1)
    (h : ∀ k, Memory.byteAt (c :: m) k = Memory.byteAt (d :: m') k) : d.1 ≤ c.1 := by
  by_contra hlt
  have hc := (byteAt_cons_self c m).symm.trans ((h c.1).trans (byteAt_cons_eq_none hd (Nat.not_le.mp hlt)))
  cases hc

/-- Equal first bytes can be taken off. -/
theorem byteAt_tail_eq {c : Host.Cell} {m m' : Memory} (hm : ∀ d ∈ m, c.1 < d.1) (hm' : ∀ d ∈ m', c.1 < d.1)
    (h : ∀ k, Memory.byteAt (c :: m) k = Memory.byteAt (c :: m') k) (k : Nat) : m.byteAt k = m'.byteAt k := by
  by_cases hk : c.1 = k
  · subst hk
    rw [byteAt_none_of_lt hm, byteAt_none_of_lt hm']
  · have hk' := h k
    rwa [Memory.byteAt, Memory.byteAt, if_neg hk, if_neg hk] at hk'

theorem memory_ext {m m' : Memory} {size : Nat} (hm : m.wf size) (hm' : m'.wf size)
    (h : ∀ k, m.byteAt k = m'.byteAt k) : m = m' := by
  induction m generalizing m' with
  | nil =>
    cases m' with
    | nil => rfl
    | cons d m' => exact absurd ((h d.1).trans (byteAt_cons_self d m')) nofun
  | cons c m ih =>
    cases m' with
    | nil => exact absurd ((h c.1).symm.trans (byteAt_cons_self c m)) nofun
    | cons d m' =>
      obtain ⟨⟨-, hc⟩, htail⟩ := wf_cons_iff.mp hm
      obtain ⟨⟨-, hd⟩, htail'⟩ := wf_cons_iff.mp hm'
      have haddr : c.1 = d.1 := le_antisymm (head_addr_le hc fun k => (h k).symm) (head_addr_le hd h)
      have hbyte : some c.2 = some d.2 := by
        rw [← byteAt_cons_self c m, h, haddr, byteAt_cons_self]
      have hcd : c = d := Prod.ext haddr (Option.some.inj hbyte)
      subst hcd
      rw [ih htail htail' (byteAt_tail_eq hc hd h)]

end Sys2Proof.Machine

namespace Sys2Proof.Proofs

open Sys2Proof.Machine

/-- Settles O26: each part of the state by its own frame lemma, the flags by the two completions. -/
theorem execStateFrame : Obligations.ExecStateFrame := by
  intro i s t h
  obtain ⟨hbusy, hdone, hsticky⟩ := exec_flags h
  refine ⟨fun hi => exec_keeps_regs hi h, fun hi hk => exec_keeps_aes hi hk h,
    fun hi h1 h2 h3 => exec_keeps_sha hi (isShaCommand_eq_false h1 h2 h3) h,
    fun hi h1 h2 h3 h4 h5 => exec_keeps_hm hi (usesHmac_eq_false h1 h2 h3 h4 h5) h, ?_, ?_, hbusy, hdone, hsticky,
    fun hi => exec_keeps_latch hi h, ?_, exec_keeps_params h, exec_keeps_turns h, exec_keeps_replies h⟩
  · rintro rfl
    exact exec_shaUpdate_keeps_phase h
  · rintro rfl
    exact exec_hmacUpdate_keeps_phase h
  · rintro rfl
    cases h
    rfl

/-- Settles O27: a command stores to its output operands; ZEROIZE writes no byte beyond OPMEM. -/
theorem execMemoryFrame : Obligations.ExecMemoryFrame := by
  intro i s t h
  refine ⟨fun hi a ha => exec_keeps_byteAt hi ha h, ?_⟩
  rintro rfl a ha
  cases h
  rw [complete_opmem, zeroizeAll_opmem, byteAt_zeroed, if_neg (Nat.not_lt.mpr ha)]

/-- Settles O42: by induction on the first memory, whose first address and byte are the first of the other. -/
theorem equalMemories : Obligations.EqualMemories := fun _ _ _ => memory_ext

end Sys2Proof.Proofs
end

section
/-! A command as a function of its inputs: which error it reports, or the bytes it reads and the state it makes of them;
so that two states that agree on what a command uses answer alike. The obligations about what does not matter to a
command, and to an access of the host. -/

namespace Sys2Proof.Machine

/-! A command as a function of its inputs -/

/-- Reading the operands of a list, in order (rules R9, R55). -/
def withInputs : List Operand → State → (List (List Byte) → Result) → Result
  | [], _, go => go []
  | o :: os, s, go => withInput o s fun b => withInputs os s fun bs => go (b :: bs)

/-- The state after the last assignment of a command, whose input operands hold the byte strings listed. -/
def assignments (i : Instr) (inputs : List (List Byte)) (s : State) : State :=
  match i with
  | .setKey bits => setAes (AesContext.ofKey (inputs.getD 0 []) bits) s
  | .encryptBlock => store (dstOperand 16 s) (aesEnc s.aes.rk s.aes.nr (fixed 16 (inputs.getD 0 []))).toList s
  | .decryptBlock => store (dstOperand 16 s) (aesDec s.aes.rk s.aes.nr (fixed 16 (inputs.getD 0 []))).toList s
  | .ctrCrypt =>
    let r := ctrStream (aesEnc s.aes.rk s.aes.nr) (fixed 16 (inputs.getD 1 [])) (inputs.getD 0 [])
    store (ctrOperand s) r.2.toList (store (dstOperand (s.reg .srcLen) s) r.1 s)
  | .shaInit => setSha shaInit .active s
  | .shaUpdate => setSha (shaUpdate s.sha.hash (inputs.getD 0 [])) s.sha.st s
  | .shaFinal => setSha HashState.zero .consumed (store (dstOperand 64 s) (shaFinal s.sha.hash) s)
  | .hmac => consumeHmac (store (dstOperand 64 s) (hmacTag (inputs.getD 0 []) (inputs.getD 1 [])) s)
  | .hmacInit => setHmac (hmacInit (inputs.getD 0 [])) .active s
  | .hmacUpdate => setHmac (hmacUpdate (s.hm.inner, s.hm.outer) (inputs.getD 0 [])) s.hm.st s
  | .hmacFinal => consumeHmac (store (dstOperand 64 s) (hmacFinal (s.hm.inner, s.hm.outer)) s)
  | .pbkdf2 =>
    consumeHmac (store (dstOperand (s.reg .dstLen) s)
      (pbkdf2 (inputs.getD 0 []) (inputs.getD 1 []) (s.reg .iter) (s.reg .dstLen)) s)
  | .zeroize => zeroizeAll s

theorem expectedError_eq_some {i : Instr} {s : State} {e : Byte × Byte} (h : expectedError i s = some e) :
    parameterError i s = some e ∨ (parameterError i s = none ∧
      (contextError i s = some e ∨ (contextError i s = none ∧ rangeError i s = some e))) := by
  simpa [expectedError, Option.or_eq_some_iff] using h

/-- A command one of whose error conditions holds fails with the first of them (rule R153). -/
theorem exec_of_expectedError {i : Instr} {s : State} {e : Byte × Byte} (h : expectedError i s = some e) :
    exec i s = .next (failedFrom e.1 e.2 s) := by
  rcases expectedError_eq_some h with hparam | ⟨hparam, hctx | ⟨hctx, hrange⟩⟩
  · exact exec_of_parameterError hparam
  · exact exec_of_contextError hctx
  · exact exec_of_rangeError hparam hctx hrange

/-- A command none of whose error conditions holds reads its inputs and makes its assignments. -/
theorem exec_of_no_error {i : Instr} {s : State} (h : expectedError i s = none) :
    exec i s = withInputs (inputOperands i s) s fun bs => succeed (assignments i bs s) := by
  obtain ⟨hparam, hctx, hrange⟩ := expectedError_eq_none_iff.mp h
  cases i with
  | setKey bits =>
    have hlegal : legalKeyBits bits = true :=
      (legalKeyBits_iff bits).mpr (by simpa [parameterError, or_iff_not_imp_left] using hparam)
    exact (if_neg (by simp [hlegal])).trans (if_neg (hrange.check_passes (.refl _)))
  | encryptBlock | decryptBlock =>
    have hkey : s.aes.valid = true := by simpa [contextError] using hctx
    exact (if_neg (by simp [hkey])).trans (if_neg (hrange.check_passes (.refl _)))
  | ctrCrypt =>
    have hkey : s.aes.valid = true := by simpa [contextError] using hctx
    exact (if_neg (by simp [hkey])).trans (if_neg (hrange.check_passes (by simp [inputOperands, outputOperands])))
  | shaUpdate | shaFinal =>
    have hactive : s.sha.st = .active := by simpa [contextError] using hctx
    exact (if_neg (by simp [hashActive, hactive])).trans (if_neg (hrange.check_passes (.refl _)))
  | hmacUpdate | hmacFinal =>
    have hactive : s.hm.st = .active := by simpa [contextError] using hctx
    exact (if_neg (by simp [hmacActive, hactive])).trans (if_neg (hrange.check_passes (.refl _)))
  | hmac | hmacInit => exact if_neg (hrange.check_passes (.refl _))
  | pbkdf2 =>
    have hiter : s.regs.iter ≠ 0#32 := by simpa [parameterError] using hparam
    exact (if_neg (mt (reg_iter_eq_zero_iff s).mp hiter)).trans (if_neg (hrange.check_passes (.refl _)))
  | shaInit | zeroize => rfl

/-! Two states that answer alike -/

/-- The result with the next state changed by `f`. -/
def mapNext (f : State → State) : Result → Result
  | .next t => .next (f t)
  | .fault r => .fault r
  | .refused r => .refused r

theorem withInputs_map {s s' : State} (hmem : s'.opmem = s.opmem) (f : State → State) (os : List Operand)
    {go go' : List (List Byte) → Result} (hgo : ∀ bs, go' bs = mapNext f (go bs)) :
    withInputs os s' go' = mapNext f (withInputs os s go) := by
  induction os generalizing go go' with
  | nil => exact hgo []
  | cons o os ih =>
    simp only [withInputs, withInput, hmem]
    cases s.opmem.read o.addr o.len with
    | ok b => exact ih fun bs => hgo (b :: bs)
    | error k => rfl

/-- Two states with the same error conditions, the same input operands and the same memory answer alike, up to the map
that relates their next states. -/
theorem exec_map {i : Instr} {s s' : State} (f : State → State) (herror : expectedError i s' = expectedError i s)
    (hinputs : inputOperands i s' = inputOperands i s) (hmem : s'.opmem = s.opmem)
    (hfails : ∀ code detail, failedFrom code detail s' = f (failedFrom code detail s))
    (hends : ∀ bs, complete (assignments i bs s') = f (complete (assignments i bs s))) :
    exec i s' = mapNext f (exec i s) := by
  cases he : expectedError i s with
  | none =>
    rw [exec_of_no_error he, exec_of_no_error (herror.trans he), hinputs]
    exact withInputs_map hmem f _ fun bs => congrArg Host.Outcome.next (hends bs)
  | some e =>
    rw [exec_of_expectedError he, exec_of_expectedError (herror.trans he), hfails]
    rfl

/-! The operand registers a command names (rule R20) -/

section Registers

variable {i : Instr} {s : State} {r : OperandRegs}

theorem reg_congr (h : ∀ name ∈ registersRead i, r.get name = s.regs.get name) {name : OperandReg}
    (hname : name ∈ registersRead i) : ({ s with regs := r } : State).reg name = s.reg name :=
  congrArg BitVec.toNat (h name hname)

theorem operands_congr (h : ∀ name ∈ registersRead i, r.get name = s.regs.get name) :
    inputOperands i { s with regs := r } = inputOperands i s ∧
      outputOperands i { s with regs := r } = outputOperands i s := by
  have hreg := fun name => reg_congr h (name := name)
  cases i with
  | shaInit | zeroize => exact ⟨rfl, rfl⟩
  | _ =>
    simp [registersRead] at hreg
    simp [inputOperands, outputOperands, aesKeyOperand, keyOperand, srcBlockOperand, srcOperand, ctrOperand,
      dstOperand, hreg]

theorem expectedError_congr_regs (h : ∀ name ∈ registersRead i, r.get name = s.regs.get name) :
    expectedError i { s with regs := r } = expectedError i s := by
  have hparam : parameterError i { s with regs := r } = parameterError i s := by
    cases i with
    | pbkdf2 =>
      have hiter : r.iter = s.regs.iter := h .iter (by decide)
      simp only [parameterError, hiter]
    | _ => rfl
  have hctx : contextError i { s with regs := r } = contextError i s := by
    cases i <;> rfl
  have hrange : rangeError i { s with regs := r } = rangeError i s := by
    simp only [rangeError, OperandsInRange, operands_congr h]
  rw [expectedError, hparam, hctx, hrange, expectedError]

theorem assignments_congr_regs (h : ∀ name ∈ registersRead i, r.get name = s.regs.get name) (hi : i ≠ .zeroize)
    (bs : List (List Byte)) :
    assignments i bs { s with regs := r } = { assignments i bs s with regs := r } := by
  have hreg := fun name => reg_congr h (name := name)
  cases i with
  | zeroize => exact absurd rfl hi
  | setKey | shaInit | shaUpdate | hmacInit | hmacUpdate => rfl
  | encryptBlock | decryptBlock | ctrCrypt | shaFinal | hmac | hmacFinal | pbkdf2 =>
    simp [registersRead] at hreg
    simp [assignments, ctrOperand, dstOperand, hreg, setSha, store, consumeHmac]

/-- With other values in the registers it does not name a command other than ZEROIZE does the same and leaves them. -/
theorem exec_with_regs (h : ∀ name ∈ registersRead i, r.get name = s.regs.get name) (hi : i ≠ .zeroize) :
    exec i { s with regs := r } = mapNext (fun t => { t with regs := r }) (exec i s) :=
  exec_map _ (expectedError_congr_regs h) (operands_congr h).1 rfl (fun _ _ => rfl)
    fun bs => congrArg complete (assignments_congr_regs h hi bs)

end Registers

/-! The flags (rule R154) -/

/-- `t` as it would be, had `ESTICKY` been `sticky` when the command that led to it began. -/
def withSticky (sticky : Bool) (t : State) : State :=
  { t with flags := { t.flags with esticky := sticky || t.flags.err } }

theorem assignments_with_flags (i : Instr) (bs : List (List Byte)) (s : State) (f : StatusFlags) (e : ErrInfo) :
    assignments i bs { s with flags := f, errInfo := e } = { assignments i bs s with flags := f, errInfo := e } := by
  cases i with
  | setKey | shaInit | shaUpdate | hmacInit | hmacUpdate | zeroize => rfl
  | encryptBlock | decryptBlock | ctrCrypt | shaFinal | hmac | hmacFinal | pbkdf2 =>
    simp [assignments, ctrOperand, dstOperand, State.reg, setSha, store, consumeHmac]

theorem exec_with_flags (i : Instr) (s : State) (f : StatusFlags) (e : ErrInfo) :
    exec i { s with flags := f, errInfo := e } = mapNext (withSticky f.esticky) (exec i s) := by
  refine exec_map _ ?_ ?_ rfl (fun _ _ => ?_) fun bs => ?_
  · cases i <;> rfl
  · cases i <;> rfl
  · simp [withSticky, failedFrom]
  · rw [assignments_with_flags]
    simp [withSticky, complete]

/-! What the host cannot see (rule R29) -/

/-- The state with other contexts and another `LATCH`. -/
def withHidden (aes : AesContext) (sha : ShaContext) (hm : HmacContext) (latch : Word) (s : State) : State :=
  { s with aes := aes, sha := sha, hm := hm, latch := latch }

section Hidden

variable {s : State} {aes : AesContext} {sha : ShaContext} {hm : HmacContext} (latch : Word)

theorem registerValue_withHidden (ha : aes.valid = s.aes.valid) (hs : sha.st = s.sha.st) (hh : hm.st = s.hm.st)
    (off : Nat) : registerValue (withHidden aes sha hm latch s) off = registerValue s off := by
  have hstatus : statusWord (withHidden aes sha hm latch s) = statusWord s := by
    simp only [statusWord, withHidden, ha, hs, hh]
  rw [registerValue, hstatus]
  rfl

/-- A write may set `LATCH`; what else it does is the same. -/
theorem registerWrite_withHidden (off : Nat) (v : Word) :
    ∃ l, registerWrite off v (withHidden aes sha hm latch s) = withHidden aes sha hm l (registerWrite off v s) := by
  unfold registerWrite
  split
  · exact ⟨v, rfl⟩
  · split
    · split
      · exact ⟨latch, rfl⟩
      · exact ⟨latch, rfl⟩
    · split
      · exact ⟨latch, rfl⟩
      · exact ⟨latch, rfl⟩

theorem withRegister_map (f : State → State) (off : Nat) (t : State) :
    withRegister off (f t) = mapNext f (withRegister off t) := by
  unfold withRegister
  split
  · rfl
  · split <;> rfl

theorem withWindow_map (f : State → State) (k : Nat) {s s' : State} (hp : s'.params = s.params) (t : State) :
    withWindow k s' (f t) = mapNext f (withWindow k s t) := by
  unfold withWindow
  rw [hp]
  split <;> rfl

theorem idleAccess_withHidden (ha : aes.valid = s.aes.valid) (hs : sha.st = s.sha.st) (hh : hm.st = s.hm.st)
    (a : Access) :
    ∃ l, idleAccess a (withHidden aes sha hm latch s) = mapNext (withHidden aes sha hm l) (idleAccess a s) := by
  cases a with
  | regRead off =>
    refine ⟨latch, ?_⟩
    rw [idleAccess, registerValue_withHidden latch ha hs hh]
    exact withRegister_map (withHidden aes sha hm latch) off (reply (.reg off (registerValue s off)) s)
  | regWrite off v =>
    obtain ⟨l, hl⟩ := registerWrite_withHidden (s := s) (aes := aes) (sha := sha) (hm := hm) latch off v
    refine ⟨l, ?_⟩
    rw [idleAccess, hl]
    exact withRegister_map (withHidden aes sha hm l) off _
  | memReadByte k =>
    exact ⟨latch, withWindow_map (withHidden aes sha hm latch) k rfl (reply (.byte k (s.opmem.byteAt k)) s)⟩
  | memWriteByte k b =>
    exact ⟨latch, withWindow_map (withHidden aes sha hm latch) k rfl { s with opmem := s.opmem.write k b }⟩

theorem hostAccess_withHidden (ha : aes.valid = s.aes.valid) (hs : sha.st = s.sha.st) (hh : hm.st = s.hm.st)
    (a : Access) :
    ∃ l, hostAccess a (withHidden aes sha hm latch s) = mapNext (withHidden aes sha hm l) (hostAccess a s) := by
  have hflags : (withHidden aes sha hm latch s).flags = s.flags := rfl
  unfold hostAccess
  rw [hflags]
  split
  · exact ⟨latch, rfl⟩
  · exact idleAccess_withHidden latch ha hs hh a

end Hidden

end Sys2Proof.Machine

namespace Sys2Proof.Proofs

open Sys2Proof.Machine

/-- Settles O30: with an error condition the command fails; with none it reads its inputs, all written, and
succeeds. -/
theorem commandsComplete : Obligations.CommandsComplete := by
  intro i s hwritten
  cases he : expectedError i s with
  | some e => exact ⟨_, exec_of_expectedError he, by simp [failedFrom]⟩
  | none =>
    rcases (exec_readsInputs he).succeeds_or_refused with ⟨-, u, hu⟩ | ⟨o, ho, k, hle, hlt, hnone, -⟩
    · exact ⟨complete u, hu, by simp⟩
    · have hk := hwritten o ho (k - o.addr) (by omega)
      rw [Nat.add_sub_cancel' hle, hnone] at hk
      cases hk

/-- Settles O32: operands, checks and assignments depend on the named registers alone; ZEROIZE reads none and clears
all. -/
theorem onlyNamedRegistersMatter : Obligations.OnlyNamedRegistersMatter := by
  intro i s r h
  by_cases hi : i = .zeroize
  · subst hi
    exact ⟨fun t ht => ht, fun e he => he⟩
  · rw [exec_with_regs h hi]
    exact ⟨fun t ht => by rw [ht, if_neg hi]; rfl, fun e he => by rw [he]; rfl⟩

/-- Settles O33: no check and no assignment of a command reads a flag, and the completions keep `ESTICKY` or set it. -/
theorem flagsDoNotMatter : Obligations.FlagsDoNotMatter := by
  refine ⟨fun i s f e => ?_, fun s rest hb ht => ?_⟩
  · have hexec := exec_with_flags i s f e
    exact ⟨fun t ht => by rw [hexec, ht]; rfl, fun r hr => by rw [hexec, hr]; rfl⟩
  · rw [step_write_register ht hb]
    rfl

/-- Settles O36: the value of a register depends on the contexts through their phases alone, and `LATCH` is only
written. -/
theorem contextsNotReadable : Obligations.ContextsNotReadable := by
  intro s aes' sha' hm' latch' a ha hs hh
  obtain ⟨l, hl⟩ := hostAccess_withHidden latch' ha hs hh a
  refine ⟨fun t ht => ⟨l, hl.trans ?_⟩, fun r hr => hl.trans ?_, fun f _ => nomatch f⟩
  · rw [ht]
    rfl
  · rw [hr]
    rfl

end Sys2Proof.Proofs
end

section
/-! What one step can change, said once in full; the obligations about who writes what, about the flags, and about every
state a run from reset reaches (rules R16, R18, R20, R25, R31, R131, R194). -/

namespace Sys2Proof.Machine

/-! What a step has changed -/

/-- The state with the turn that is taken off the list. -/
abbrev State.afterTurn (s : State) : State := { s with turns := s.turns.tail }

/-- The step completes the command `i`. -/
abbrev State.runs (s : State) (i : Instr) : Prop :=
  s.flags.busy = true ∧ (s.turns = [] ∨ s.turns.head? = some .core) ∧ decode s.latch = .ok i

/-- What a step that answers a next state has changed: one constructor for each assignment that a turn can make. -/
inductive StepChange (s : State) : State → Prop where
  | reset (turn : s.turns.head? = some .reset) : StepChange s (applyReset s.afterTurn)
  | command {i : Instr} {t : State} (runs : s.runs i) (exec : exec i s.afterTurn = .next t) : StepChange s t
  | illegal (busy : s.flags.busy = true) (turn : s.turns = [] ∨ s.turns.head? = some .core) :
      StepChange s (raise .illegalCommand s.afterTurn)
  | issue {c : Word} (idle : s.flags.busy = false) (turn : s.turns.head? = some (.host (.regWrite cmdOffset c))) :
      StepChange s (issue c s.afterTurn)
  | clearSticky {v : Word} (idle : s.flags.busy = false) (bit : v.getLsbD 3 = true)
      (turn : s.turns.head? = some (.host (.regWrite statusOffset v))) : StepChange s (clearSticky s.afterTurn)
  | register {name : OperandReg} {v : Word} (idle : s.flags.busy = false)
      (turn : s.turns.head? = some (.host (.regWrite name.offset v))) :
      StepChange s { s.afterTurn with regs := s.regs.set name v }
  | byte {k : Nat} {b : Byte} (idle : s.flags.busy = false)
      (turn : s.turns.head? = some (.host (.memWriteByte k b))) :
      StepChange s { s.afterTurn with opmem := s.opmem.write k b }
  | silent (turns : List Turn) (replies : List Reply) : StepChange s { s with turns := turns, replies := replies }

theorem stepChange_of_registerWrite {s : State} {off : Nat} {v : Word} (hidle : s.flags.busy = false)
    (hturn : s.turns.head? = some (.host (.regWrite off v))) : StepChange s (registerWrite off v s.afterTurn) := by
  rcases registerWrite_cases off v s.afterTurn with ⟨rfl, hw⟩ | ⟨rfl, hbit, hw⟩ | ⟨name, rfl, hw⟩ | hw <;> rw [hw]
  · exact .issue hidle hturn
  · exact .clearSticky hidle hbit hturn
  · exact .register hidle hturn
  · exact .silent _ _

theorem stepChange_of_step {s t : State} (h : step s = .next t) : StepChange s t := by
  rcases step_next h with ⟨hturn, rfl⟩ | ⟨-, -, rfl⟩ | ⟨hcore, hbusy, i, hi, hexec⟩ | ⟨hcore, hbusy, -, rfl⟩ |
    ⟨a, hturn, hallowed, ha⟩ | ⟨b, -, as, rfl⟩
  · exact .reset hturn
  · exact .silent _ _
  · exact .command ⟨hbusy, hcore, hi⟩ hexec
  · exact .illegal hbusy hcore
  · rcases idleAccess_next ha with ⟨r, rfl⟩ | ⟨off, v, rfl, rfl⟩ | ⟨k, b, rfl, -, rfl⟩
    · exact .silent _ _
    · exact stepChange_of_registerWrite (hallowed.resolve_right nofun) hturn
    · exact .byte (hallowed.resolve_right nofun) hturn
  · exact .silent _ _

/-! Who writes what -/

section Ownership

variable {s t : State}

theorem StepChange.params_eq (h : StepChange s t) : t.params = s.params := by
  cases h with
  | command _ hexec => exact exec_keeps_params (s := s.afterTurn) hexec
  | _ => simp

theorem StepChange.aes_eq_or (h : StepChange s t) :
    t.aes = s.aes ∨ s.turns.head? = some .reset ∨ s.runs .zeroize ∨ ∃ bits, s.runs (.setKey bits) := by
  cases h with
  | reset hturn => exact .inr (.inl hturn)
  | @command i _ hruns hexec =>
    by_cases hz : i = .zeroize
    · exact .inr (.inr (.inl (hz ▸ hruns)))
    · rcases i.eq_setKey_or_ne with ⟨bits, rfl⟩ | hk
      · exact .inr (.inr (.inr ⟨bits, hruns⟩))
      · exact .inl (exec_keeps_aes (s := s.afterTurn) hz hk hexec)
  | _ => exact .inl (by simp)

theorem StepChange.sha_eq_or (h : StepChange s t) :
    t.sha = s.sha ∨ s.turns.head? = some .reset ∨ s.runs .zeroize ∨ s.runs .shaInit ∨ s.runs .shaUpdate ∨
      s.runs .shaFinal := by
  cases h with
  | reset hturn => exact .inr (.inl hturn)
  | command hruns hexec =>
    by_contra hnone
    simp only [not_or] at hnone
    obtain ⟨hne, -, hz, h1, h2, h3⟩ := hnone
    have hi (j : Instr) (hj : ¬s.runs j) : _ ≠ j := fun heq => hj (heq ▸ hruns)
    exact hne (exec_keeps_sha (s := s.afterTurn) (hi _ hz) (isShaCommand_eq_false (hi _ h1) (hi _ h2) (hi _ h3)) hexec)
  | _ => exact .inl (by simp)

theorem StepChange.hm_eq_or (h : StepChange s t) :
    t.hm = s.hm ∨ s.turns.head? = some .reset ∨ s.runs .zeroize ∨ s.runs .hmac ∨ s.runs .hmacInit ∨
      s.runs .hmacUpdate ∨ s.runs .hmacFinal ∨ s.runs .pbkdf2 := by
  cases h with
  | reset hturn => exact .inr (.inl hturn)
  | command hruns hexec =>
    by_contra hnone
    simp only [not_or] at hnone
    obtain ⟨hne, -, hz, h1, h2, h3, h4, h5⟩ := hnone
    have hi (j : Instr) (hj : ¬s.runs j) : _ ≠ j := fun heq => hj (heq ▸ hruns)
    have huses := usesHmac_eq_false (hi _ h1) (hi _ h2) (hi _ h3) (hi _ h4) (hi _ h5)
    exact hne (exec_keeps_hm (s := s.afterTurn) (hi _ hz) huses hexec)
  | _ => exact .inl (by simp)

theorem StepChange.reg_eq_or (h : StepChange s t) (name : OperandReg) :
    t.regs.get name = s.regs.get name ∨ s.turns.head? = some .reset ∨ s.runs .zeroize ∨
      (s.flags.busy = false ∧ s.turns.head? = some (.host (.regWrite name.offset (t.regs.get name)))) := by
  cases h with
  | reset hturn => exact .inr (.inl hturn)
  | @command i _ hruns hexec =>
    by_cases hz : i = .zeroize
    · exact .inr (.inr (.inl (hz ▸ hruns)))
    · exact .inl (by rw [exec_keeps_regs hz hexec])
  | @register written v hidle hturn =>
    by_cases hname : name = written
    · subst hname
      exact .inr (.inr (.inr ⟨hidle, by rw [regs_get_set_same]; exact hturn⟩))
    · exact .inl (regs_get_set_other _ _ hname)
  | _ => exact .inl (by simp)

theorem StepChange.byteAt_eq_or (h : StepChange s t) (k : Nat) :
    t.opmem.byteAt k = s.opmem.byteAt k ∨ s.turns.head? = some .reset ∨ (∃ i, s.runs i) ∨
      (s.flags.busy = false ∧ ∃ b, s.turns.head? = some (.host (.memWriteByte k b))) := by
  cases h with
  | reset hturn => exact .inr (.inl hturn)
  | @command i _ hruns hexec => exact .inr (.inr (.inl ⟨i, hruns⟩))
  | @byte written b hidle hturn =>
    by_cases hk : k = written
    · subst hk
      exact .inr (.inr (.inr ⟨hidle, b, hturn⟩))
    · exact .inl (byteAt_write_other _ _ hk)
  | _ => exact .inl (by simp)

theorem StepChange.latch_eq_or (h : StepChange s t) :
    t.latch = s.latch ∨ s.turns.head? = some .reset ∨ s.runs .zeroize ∨
      (s.flags.busy = false ∧ s.turns.head? = some (.host (.regWrite cmdOffset t.latch))) := by
  cases h with
  | reset hturn => exact .inr (.inl hturn)
  | @command i _ hruns hexec =>
    by_cases hz : i = .zeroize
    · exact .inr (.inr (.inl (hz ▸ hruns)))
    · exact .inl (exec_keeps_latch (s := s.afterTurn) hz hexec)
  | issue hidle hturn => exact .inr (.inr (.inr ⟨hidle, hturn⟩))
  | _ => exact .inl (by simp)

end Ownership

end Sys2Proof.Machine

namespace Sys2Proof.Proofs

open Sys2Proof.Machine

/-- Settles O34: each part of the state by the one assignment of a turn that can reach it. -/
theorem stepOwnership : Obligations.StepOwnership := by
  intro s t h
  have hchange := stepChange_of_step h
  exact ⟨hchange.aes_eq_or.resolve_left, hchange.sha_eq_or.resolve_left, hchange.hm_eq_or.resolve_left,
    fun name => (hchange.reg_eq_or name).resolve_left, fun k => (hchange.byteAt_eq_or k).resolve_left,
    hchange.latch_eq_or.resolve_left, hchange.params_eq⟩

end Sys2Proof.Proofs
end

section
/-! The flags over one step (rule R25): the six ways a step can leave `STATUS`, and what loads, starts, finalises and
clears a context; then the runs from reset (rule R31). The obligations about both. -/

namespace Sys2Proof.Machine

/-! The four flags -/

/-- The core's turn completes the command in flight. -/
abbrev State.completes (s : State) : Prop := s.flags.busy = true ∧ (s.turns = [] ∨ s.turns.head? = some .core)

theorem State.runs.completes {s : State} {i : Instr} (h : s.runs i) : s.completes := ⟨h.1, h.2.1⟩

/-- The ways a step leaves the flags: cleared by reset, as a completion or an issue writes them (rules R22, R151, R152),
with `ESTICKY` cleared by the host (rule R23), or as they were. -/
inductive FlagChange (s t : State) : Prop where
  | reset (turn : s.turns.head? = some .reset)
      (flags : t.flags = { busy := false, done := false, err := false, esticky := false })
  | success (completes : s.completes)
      (flags : t.flags = { busy := false, done := true, err := false, esticky := s.flags.esticky })
  | failure (completes : s.completes) (code : t.errInfo.code ≠ 0#8)
      (flags : t.flags = { busy := false, done := true, err := true, esticky := true })
  | issue (cmdWrite : s.flags.busy = false ∧ ∃ c, s.turns.head? = some (.host (.regWrite 0x00 c)))
      (flags : t.flags = { busy := true, done := false, err := false, esticky := s.flags.esticky })
  | clearSticky
      (clears : s.flags.busy = false ∧
        ∃ v : Word, v.getLsbD 3 = true ∧ s.turns.head? = some (.host (.regWrite 0x04 v)))
      (flags : t.flags = { s.flags with esticky := false })
  | keep (flags : t.flags = s.flags)

theorem StepChange.flagChange {s t : State} (h : StepChange s t) : FlagChange s t := by
  cases h with
  | reset hturn => exact .reset hturn rfl
  | command hruns hexec =>
    rcases exec_completes hexec with ⟨e, rfl⟩ | ⟨u, hflags, rfl⟩
    · exact .failure hruns.completes e.code_ne_zero rfl
    · exact .success hruns.completes (by rw [complete_flags, hflags])
  | illegal hbusy hturn => exact .failure ⟨hbusy, hturn⟩ (CommandError.illegalCommand.code_ne_zero) rfl
  | issue hidle hturn => exact .issue ⟨hidle, _, hturn⟩ rfl
  | clearSticky hidle hbit hturn => exact .clearSticky ⟨hidle, _, hbit, hturn⟩ rfl
  | register | byte | silent => exact .keep rfl

section Flags

variable {s t : State}

theorem FlagChange.busy_set (h : FlagChange s t) (h0 : s.flags.busy = false) (h1 : t.flags.busy = true) :
    s.flags.busy = false ∧ ∃ c, s.turns.head? = some (.host (.regWrite 0x00 c)) := by
  cases h with
  | issue hcmd _ => exact hcmd
  | _ => simp_all

theorem FlagChange.busy_cleared (h : FlagChange s t) (h1 : s.flags.busy = true) (h0 : t.flags.busy = false) :
    s.completes ∨ s.turns.head? = some .reset := by
  cases h with
  | reset hturn _ => exact .inr hturn
  | success hc _ | failure hc _ _ => exact .inl hc
  | _ => simp_all

theorem FlagChange.done_set (h : FlagChange s t) (h0 : s.flags.done = false) (h1 : t.flags.done = true) :
    s.completes := by
  cases h with
  | success hc _ | failure hc _ _ => exact hc
  | _ => simp_all

theorem FlagChange.done_cleared (h : FlagChange s t) (h1 : s.flags.done = true) (h0 : t.flags.done = false) :
    (s.flags.busy = false ∧ ∃ c, s.turns.head? = some (.host (.regWrite 0x00 c))) ∨
      s.turns.head? = some .reset := by
  cases h with
  | reset hturn _ => exact .inr hturn
  | issue hcmd _ => exact .inl hcmd
  | _ => simp_all

theorem FlagChange.err_set (h : FlagChange s t) (h0 : s.flags.err = false) (h1 : t.flags.err = true) :
    s.completes ∧ t.errInfo.code ≠ 0#8 ∧ t.flags.esticky = true := by
  cases h with
  | failure hc hcode hflags => exact ⟨hc, hcode, by rw [hflags]⟩
  | _ => simp_all

/-- While a command is in flight `ERR` is 0, so no completion clears it. -/
theorem FlagChange.err_cleared (h : FlagChange s t) (hbusy : BusyConsistent s) (h1 : s.flags.err = true)
    (h0 : t.flags.err = false) :
    (s.flags.busy = false ∧ ∃ c, s.turns.head? = some (.host (.regWrite 0x00 c))) ∨
      s.turns.head? = some .reset := by
  cases h with
  | reset hturn _ => exact .inr hturn
  | issue hcmd _ => exact .inl hcmd
  | success hc _ => exact absurd ((hbusy hc.1).2.symm.trans h1) nofun
  | _ => simp_all

theorem FlagChange.esticky_set (h : FlagChange s t) (h0 : s.flags.esticky = false) (h1 : t.flags.esticky = true) :
    s.completes ∧ t.flags.err = true := by
  cases h with
  | failure hc _ hflags => exact ⟨hc, by rw [hflags]⟩
  | _ => simp_all

theorem FlagChange.esticky_cleared (h : FlagChange s t) (h1 : s.flags.esticky = true)
    (h0 : t.flags.esticky = false) :
    s.turns.head? = some .reset ∨ (s.flags.busy = false ∧
      ∃ v : Word, v.getLsbD 3 = true ∧ s.turns.head? = some (.host (.regWrite 0x04 v))) := by
  cases h with
  | reset hturn _ => exact .inl hturn
  | clearSticky hclears _ => exact .inr hclears
  | _ => simp_all

end Flags

/-! The contexts -/

/-- A command that changes a context, which no completion does, has had its effect and ended without error. -/
theorem exec_effect_of_ne {α : Type} {i : Instr} {s t : State} (f : State → α) (hraise : ∀ e u, f (raise e u) = f u)
    (h : exec i s = .next t) (hne : f t ≠ f s) : ∃ u, CommandEffect s i u ∧ t = complete u := by
  rcases exec_next h with ⟨e, -, rfl⟩ | ⟨u, -, heffect, ht⟩
  · exact absurd (hraise e s) hne
  · exact ⟨u, heffect, ht⟩

/-- A step that changes `AES` has run SET_KEY on key bytes in OPMEM, or has cleared it. -/
theorem StepChange.aes_loaded_or_cleared {s t : State} (h : StepChange s t) (hne : t.aes ≠ s.aes) :
    (∃ bits key, s.runs (.setKey bits) ∧ (bits = 128 ∨ bits = 192 ∨ bits = 256) ∧
      s.opmem.read s.regs.keyAddr.toNat (bits / 8) = .ok key ∧ t.aes = AesContext.ofKey key bits ∧
      t.flags.err = false) ∨
    (t.aes = AesContext.cleared ∧ (s.runs .zeroize ∨ s.turns.head? = some .reset)) := by
  cases h with
  | reset hturn => exact .inr ⟨rfl, .inr hturn⟩
  | command hruns hexec =>
    obtain ⟨u, heffect, rfl⟩ := exec_effect_of_ne State.aes raise_aes hexec hne
    cases heffect with
    | setKey hlegal hread => exact .inl ⟨_, _, hruns, hlegal, hread, rfl, rfl⟩
    | zeroize => exact .inr ⟨rfl, .inl hruns⟩
    | _ => exact absurd (by simp) hne
  | _ => exact absurd (by simp) hne

theorem StepChange.key_valid_set {s t : State} (h : StepChange s t) (h0 : s.aes.valid = false)
    (h1 : t.aes.valid = true) : ∃ bits, s.runs (.setKey bits) ∧ t.flags.err = false := by
  have hne : t.aes ≠ s.aes := fun heq => by simp [heq, h0] at h1
  rcases h.aes_loaded_or_cleared hne with ⟨bits, key, hruns, -, -, -, herr⟩ | ⟨hcleared, -⟩
  · exact ⟨bits, hruns, herr⟩
  · rw [hcleared] at h1
    cases h1

theorem StepChange.key_valid_cleared {s t : State} (h : StepChange s t) (h1 : s.aes.valid = true)
    (h0 : t.aes.valid = false) : s.runs .zeroize ∨ s.turns.head? = some .reset := by
  have hne : t.aes ≠ s.aes := fun heq => by simp [heq, h1] at h0
  rcases h.aes_loaded_or_cleared hne with ⟨bits, key, -, -, -, hkey, -⟩ | ⟨-, hcause⟩
  · rw [hkey] at h0
    cases h0
  · exact hcause

theorem StepChange.sha_phase {s t : State} (h : StepChange s t) (hne : s.sha.st ≠ t.sha.st) :
    (t.sha.st = .active ∧ s.runs .shaInit) ∨ (t.sha.st = .consumed ∧ s.runs .shaFinal ∧ t.flags.err = false) ∨
      (t.sha.st = .idle ∧ (s.runs .zeroize ∨ s.turns.head? = some .reset)) := by
  cases h with
  | reset hturn => exact .inr (.inr ⟨rfl, .inr hturn⟩)
  | command hruns hexec =>
    obtain ⟨u, heffect, rfl⟩ := exec_effect_of_ne (fun u => u.sha.st) (fun _ _ => rfl) hexec hne.symm
    cases heffect with
    | shaInit => exact .inl ⟨rfl, hruns⟩
    | shaFinal => exact .inr (.inl ⟨rfl, hruns, rfl⟩)
    | zeroize => exact .inr (.inr ⟨rfl, .inl hruns⟩)
    | _ => exact absurd (by simp) hne
  | _ => exact absurd (by simp) hne

theorem StepChange.hmac_phase {s t : State} (h : StepChange s t) (hne : s.hm.st ≠ t.hm.st) :
    (t.hm.st = .active ∧ s.runs .hmacInit ∧ t.flags.err = false) ∨
      (t.hm.st = .consumed ∧ (s.runs .hmacFinal ∨ s.runs .hmac ∨ s.runs .pbkdf2) ∧ t.flags.err = false) ∨
      (t.hm.st = .idle ∧ (s.runs .zeroize ∨ s.turns.head? = some .reset)) := by
  cases h with
  | reset hturn => exact .inr (.inr ⟨rfl, .inr hturn⟩)
  | command hruns hexec =>
    obtain ⟨u, heffect, rfl⟩ := exec_effect_of_ne (fun u => u.hm.st) (fun _ _ => rfl) hexec hne.symm
    cases heffect with
    | hmacInit => exact .inl ⟨rfl, hruns, rfl⟩
    | hmacFinal => exact .inr (.inl ⟨rfl, .inl hruns, rfl⟩)
    | hmac => exact .inr (.inl ⟨rfl, .inr (.inl hruns), rfl⟩)
    | pbkdf2 => exact .inr (.inl ⟨rfl, .inr (.inr hruns), rfl⟩)
    | zeroize => exact .inr (.inr ⟨rfl, .inl hruns⟩)
    | _ => exact absurd (by simp) hne
  | _ => exact absurd (by simp) hne

/-! Runs from reset (rule R31) -/

theorem core_run_succ {k : Nat} {s u : State} (h : Host.Core.run Sys2Proof.core k s = .next u) :
    Host.Core.run Sys2Proof.core (k + 1) s = step u := by
  induction k generalizing s with
  | zero =>
    cases h
    exact core_run_one _
  | succ k ih =>
    cases hs : step s with
    | next s' =>
      rw [core_run_of_step_next hs] at h ⊢
      exact ih h
    | fault f => nomatch f
    | refused r =>
      have hrun : Host.Core.run Sys2Proof.core (k + 1) s = .refused r := by
        have hstep : Sys2Proof.core.step s = .refused r := hs
        simp only [Host.Core.run, hstep]
      cases hrun.symm.trans h

/-- A run of `k + 1` steps is a run of `k` steps and one more. -/
theorem core_run_succ_next {k : Nat} {s t : State} (h : Host.Core.run Sys2Proof.core (k + 1) s = .next t) :
    ∃ u, Host.Core.run Sys2Proof.core k s = .next u ∧ step u = .next t := by
  induction k generalizing s with
  | zero => exact ⟨s, rfl, (core_run_one s).symm.trans h⟩
  | succ k ih =>
    cases hs : step s with
    | next s' =>
      rw [core_run_of_step_next hs] at h
      obtain ⟨u, hu, hstep⟩ := ih h
      exact ⟨u, (core_run_of_step_next hs k).trans hu, hstep⟩
    | fault f => nomatch f
    | refused r =>
      have hstep : Sys2Proof.core.step s = .refused r := hs
      simp only [Host.Core.run, hstep] at h
      cases h

/-- What holds at the start of a run and is kept by every step holds at its end. -/
theorem core_run_keeps {P : State → Prop} (hstep : ∀ {u t}, P u → step u = .next t → P t) {s : State} (hs : P s)
    {k : Nat} {t : State} (h : Host.Core.run Sys2Proof.core k s = .next t) : P t := by
  induction k generalizing t with
  | zero =>
    cases h
    exact hs
  | succ k ih =>
    obtain ⟨u, hu, hstepu⟩ := core_run_succ_next h
    exact hstep (ih hu) hstepu

theorem inv_of_run {p : Params} {ts : List Turn} {k : Nat} {t : State}
    (h : Host.Core.run Sys2Proof.core k (State.start p ts) = .next t) : t.Inv :=
  core_run_keeps step_keeps_inv (inv_start p ts) h

/-- The leading bytes of the stored schedule are the key (rule R82). -/
theorem slice_ofKey {key : List Byte} {bits : Nat} (hb : bits = 128 ∨ bits = 192 ∨ bits = 256)
    (hk : key.length = bits / 8) : slice (AesContext.ofKey key bits).rk.toList 0 (bits / 8) = key := by
  obtain ⟨r, hr⟩ := foldl_appendKeyWord (keyWordCount bits) (masterKeyWords key (keyWordCount bits))
    (keyWordCount bits) (4 * (roundCount bits + 1) - keyWordCount bits)
  have hflat : (keyExpand key bits).flatten = key ++ r.flatten := by
    rw [keyExpand, hr, List.flatten_append, flatten_masterKeyWords (by rw [keyWordCount]; omega)]
  show slice (fixed 240 (keyExpand key bits).flatten).toList 0 (bits / 8) = key
  rw [hflat, slice_fixed (by omega) (by rw [List.length_append]; omega), slice, List.drop_zero, List.take_left' hk]

/-- The key in `aes` was loaded by step `j` of the run, one of its first `k`, and the context has not changed since. -/
def KeyLoadedBefore (start : State) (k : Nat) (aes : AesContext) : Prop :=
  ∃ j < k, (∃ u : State, Host.Core.run Sys2Proof.core j start = .next u ∧ u.flags.busy = true ∧
      (u.turns = [] ∨ u.turns.head? = some .core) ∧ decode u.latch = .ok (.setKey aes.bits) ∧
      u.opmem.read u.regs.keyAddr.toNat (aes.bits / 8) = .ok (slice aes.rk.toList 0 (aes.bits / 8))) ∧
    ∀ m, j < m → m ≤ k → ∃ v : State, Host.Core.run Sys2Proof.core m start = .next v ∧ v.aes = aes

/-- One more step that leaves `AES` alone leaves the key where it was loaded. -/
theorem KeyLoadedBefore.succ {start t : State} {k : Nat} (h : KeyLoadedBefore start k t.aes)
    (hrun : Host.Core.run Sys2Proof.core (k + 1) start = .next t) : KeyLoadedBefore start (k + 1) t.aes := by
  obtain ⟨j, hj, hload, hkeep⟩ := h
  refine ⟨j, hj.trans (Nat.lt_succ_self k), hload, fun m hjm hm => ?_⟩
  rcases Nat.le_succ_iff.mp hm with hmk | rfl
  · exact hkeep m hjm hmk
  · exact ⟨t, hrun, rfl⟩

theorem keyLoaded_of_run {p : Params} {ts : List Turn} {k : Nat} {t : State}
    (h : Host.Core.run Sys2Proof.core k (State.start p ts) = .next t) (hv : t.aes.valid = true) :
    KeyLoadedBefore (State.start p ts) k t.aes := by
  induction k generalizing t with
  | zero =>
    cases h
    cases hv
  | succ k ih =>
    obtain ⟨u, hu, hstep⟩ := core_run_succ_next h
    by_cases hsame : t.aes = u.aes
    · have hbefore := ih hu (hsame ▸ hv)
      rw [← hsame] at hbefore
      exact hbefore.succ h
    · rcases (stepChange_of_step hstep).aes_loaded_or_cleared hsame with
        ⟨bits, key, ⟨hbusy, hturn, hlatch⟩, hlegal, hread, haes, -⟩ | ⟨hcleared, -⟩
      · refine ⟨k, Nat.lt_succ_self k, ⟨u, hu, hbusy, hturn, ?_, ?_⟩, fun m hkm hm => ?_⟩
        · rw [haes]
          exact hlatch
        · rw [haes]
          exact hread.trans (congrArg _ (slice_ofKey hlegal (read_length hread)).symm)
        · obtain rfl : m = k + 1 := Nat.le_antisymm hm hkm
          exact ⟨t, h, rfl⟩
      · rw [hcleared] at hv
        cases hv

/-- A context between operations has at most 127 bytes buffered (rule R31 (2)). -/
theorem ShaContext.Wf.n_le {c : ShaContext} (h : c.Wf) : c.hash.n ≤ 127 := by
  by_cases hst : c.st = .active
  · exact (h.1 hst).1
  · rw [h.2 hst]
    exact Nat.zero_le _

theorem errInfoWord_of_noError {s : State} (h : ErrorsConsistent s) (he : s.flags.err = false) :
    errInfoWord s = 0#32 := by
  rw [errInfoWord, h.2 he]
  rfl

end Sys2Proof.Machine

namespace Sys2Proof.Proofs

open Sys2Proof.Machine

/-- Settles O35: the four flags by the way the step left `STATUS`, the mirrored fields by the effect of the command that
completed. -/
theorem flagsSetAndCleared : Obligations.FlagsSetAndCleared := by
  intro s t hinv h
  have hchange := stepChange_of_step h
  have hflags := hchange.flagChange
  refine ⟨hflags.busy_set, hflags.busy_cleared, hflags.done_set, hflags.done_cleared, fun h0 h1 => ?_,
    hflags.err_cleared hinv.busy, hflags.esticky_set, hflags.esticky_cleared, ?_, ?_, ?_, ?_⟩
  · obtain ⟨hcompletes, hcode, -⟩ := hflags.err_set h0 h1
    exact ⟨hcompletes, hcode⟩
  · simpa only [State.runs, and_assoc] using hchange.key_valid_set
  · simpa only [State.runs, and_assoc] using hchange.key_valid_cleared
  · simpa only [State.runs, and_assoc] using hchange.sha_phase
  · simpa only [State.runs, and_assoc] using hchange.hmac_phase

/-- Settles O12: the invariant holds along the run; the key is followed back to the step that loaded it; `ESTICKY` is
set by the step that sets `ERR`. -/
theorem reachableInvariants : Obligations.ReachableInvariants := by
  intro p ts k t h _
  have hinv := inv_of_run h
  refine ⟨⟨statusWord_keyValid t, statusWord_shaPhase t, statusWord_hmacPhase t⟩, ⟨hinv.sha.n_le, fun hst => ?_⟩,
    fun hv => ?_, ⟨hinv.errors.1, errInfoWord_of_noError hinv.errors, fun j _ u v hu hv h0 h1 => ?_⟩,
    statusWord_reserved t, (errInfoWord_fields t).2.2.2⟩
  · obtain ⟨hinner, -, houter⟩ := hinv.hm.1 hst
    exact ⟨hinner.1, houter⟩
  · obtain ⟨hbits, hnk, hnr, -⟩ := hinv.aes.1 hv
    exact ⟨hbits, hnk, hnr, keyLoaded_of_run h hv⟩
  · have hstep := (core_run_succ hu).symm.trans hv
    obtain ⟨-, -, hsticky⟩ := (stepChange_of_step hstep).flagChange.err_set h0 h1
    exact hsticky

end Sys2Proof.Proofs
end

section
/-! The block functions round by round, and that each undoes the other (rules R83 to R87); the laws of the block
commands (rule R91); and the obligations about them. -/

namespace Sys2Proof.Machine

/-! The four steps (rules R83 to R86) -/

theorem getElem_addRoundKey (S : Block) (rk : RoundKeys) (r : Nat) (i : Fin 16) (h : 16 * r + i.val < 240) :
    (addRoundKey S rk r)[i] = S[i] ^^^ rk[16 * r + i.val] := by
  simp [addRoundKey, h]

@[simp] theorem addRoundKey_addRoundKey (S : Block) (rk : RoundKeys) (r : Nat) :
    addRoundKey (addRoundKey S rk r) rk r = S := by
  ext i hi
  simp [addRoundKey]

@[simp] theorem invSubBytes_subBytes (S : Block) : invSubBytes (subBytes S) = S := by
  ext i hi
  simp [invSubBytes, subBytes]

@[simp] theorem subBytes_invSubBytes (S : Block) : subBytes (invSubBytes S) = S := by
  ext i hi
  simp [invSubBytes, subBytes]

/-- Byte `r + 4c` comes from column `c + r` (rule R85). -/
theorem getElem_shiftRows (S : Block) {i : Nat} (hi : i < 16) :
    (shiftRows S)[i] = S[i % 4 + 4 * ((i / 4 + i % 4) % 4)] := by
  simp [shiftRows]

theorem getElem_invShiftRows (S : Block) {i : Nat} (hi : i < 16) :
    (invShiftRows S)[i] = S[i % 4 + 4 * ((i / 4 + 4 - i % 4) % 4)] := by
  simp [invShiftRows]

@[simp] theorem invShiftRows_shiftRows (S : Block) : invShiftRows (shiftRows S) = S := by
  refine Vector.ext fun i hi => ?_
  rw [getElem_invShiftRows _ hi, getElem_shiftRows]
  congr 1
  omega

@[simp] theorem shiftRows_invShiftRows (S : Block) : shiftRows (invShiftRows S) = S := by
  refine Vector.ext fun i hi => ?_
  rw [getElem_shiftRows _ hi, getElem_invShiftRows]
  congr 1
  omega

theorem shiftRows_eq (S : Block) :
    shiftRows S = #v[S[0], S[5], S[10], S[15], S[4], S[9], S[14], S[3], S[8], S[13], S[2], S[7], S[12], S[1], S[6],
      S[11]] := by
  refine Vector.ext fun i hi => ?_
  rw [getElem_shiftRows S hi]
  interval_cases i <;> rfl

theorem invShiftRows_eq (S : Block) :
    invShiftRows S = #v[S[0], S[13], S[10], S[7], S[4], S[1], S[14], S[11], S[8], S[5], S[2], S[15], S[12], S[9], S[6],
      S[3]] := by
  refine Vector.ext fun i hi => ?_
  rw [getElem_invShiftRows S hi]
  interval_cases i <;> rfl

/-- The product of the two matrices in the other order, seen in one row. -/
theorem mixRow_invMixRow (a b c d : Byte) :
    mixRow (invMixRow a b c d) (invMixRow b c d a) (invMixRow c d a b) (invMixRow d a b c) = a := by
  have ha : gmul 0x02#8 0x0E#8 ^^^ gmul 0x03#8 0x09#8 ^^^ 0x0D#8 ^^^ 0x0B#8 = 0x01#8 := by decide
  have hb : gmul 0x02#8 0x0B#8 ^^^ gmul 0x03#8 0x0E#8 ^^^ 0x09#8 ^^^ 0x0D#8 = 0x00#8 := by decide
  have hc : gmul 0x02#8 0x0D#8 ^^^ gmul 0x03#8 0x0B#8 ^^^ 0x0E#8 ^^^ 0x09#8 = 0x00#8 := by decide
  have hd : gmul 0x02#8 0x09#8 ^^^ gmul 0x03#8 0x0D#8 ^^^ 0x0B#8 ^^^ 0x0E#8 = 0x00#8 := by decide
  calc mixRow (invMixRow a b c d) (invMixRow b c d a) (invMixRow c d a b) (invMixRow d a b c)
      = gmul (gmul 0x02#8 0x0E#8 ^^^ gmul 0x03#8 0x09#8 ^^^ 0x0D#8 ^^^ 0x0B#8) a ^^^
        gmul (gmul 0x02#8 0x0B#8 ^^^ gmul 0x03#8 0x0E#8 ^^^ 0x09#8 ^^^ 0x0D#8) b ^^^
        gmul (gmul 0x02#8 0x0D#8 ^^^ gmul 0x03#8 0x0B#8 ^^^ 0x0E#8 ^^^ 0x09#8) c ^^^
        gmul (gmul 0x02#8 0x09#8 ^^^ gmul 0x03#8 0x0D#8 ^^^ 0x0B#8 ^^^ 0x0E#8) d := by
        simp only [invMixRow, mixRow, gmul_xor, xor_gmul, gmul_assoc]
        ac_rfl
    _ = a := by rw [ha, hb, hc, hd]; simp

theorem mixColumns_invMixColumns (S : Block) : mixColumns (invMixColumns S) = S := by
  apply block_ext_cell
  intro c r
  have h4 : cell S c (r + 4) = cell S c r := cell_add_four S c r
  have h5 : cell S c (r + 5) = cell S c (r + 1) := cell_add_four S c (r + 1)
  have h6 : cell S c (r + 6) = cell S c (r + 2) := cell_add_four S c (r + 2)
  simp only [cell_invMixColumns, cell_mixColumns, Nat.add_assoc, Nat.reduceAdd, h4, h5, h6, mixRow_invMixRow]

/-! The rounds (rule R87) -/

/-- The state of `AES_ENC` after round `r`. -/
def encStateAfter (rk : RoundKeys) (B : Block) (r : Nat) : Block :=
  (List.range' 1 r).foldl (encryptRound rk) (addRoundKey B rk 0)

/-- The state of `AES_DEC` after its rounds `nr - 1` down to `r`. -/
def decStateAfter (rk : RoundKeys) (nr : Nat) (B : Block) (r : Nat) : Block :=
  (List.range' r (nr - r)).reverse.foldl (decryptRound rk) (addRoundKey B rk nr)

theorem encStateAfter_succ (rk : RoundKeys) (B : Block) (r : Nat) :
    encStateAfter rk B (r + 1) = encryptRound rk (encStateAfter rk B r) (r + 1) := by
  rw [encStateAfter, List.range'_1_concat, List.foldl_append, Nat.add_comm 1 r]
  rfl

theorem decStateAfter_self (rk : RoundKeys) (nr : Nat) (B : Block) :
    decStateAfter rk nr B nr = addRoundKey B rk nr := by
  rw [decStateAfter, Nat.sub_self]
  rfl

theorem decStateAfter_of_lt (rk : RoundKeys) {nr r : Nat} (B : Block) (h : r < nr) :
    decStateAfter rk nr B r = decryptRound rk (decStateAfter rk nr B (r + 1)) r := by
  have hcount : nr - r = nr - (r + 1) + 1 := by omega
  rw [decStateAfter, hcount, List.range'_succ, List.reverse_cons, List.foldl_append]
  rfl

theorem aesEnc_eq (rk : RoundKeys) (nr : Nat) (B : Block) :
    aesEnc rk nr B = addRoundKey (shiftRows (subBytes (encStateAfter rk B (nr - 1)))) rk nr := rfl

theorem aesDec_eq (rk : RoundKeys) (nr : Nat) (B : Block) :
    aesDec rk nr B = addRoundKey (invSubBytes (invShiftRows (decStateAfter rk nr B 1))) rk 0 := rfl

/-! The two functions undo each other (rule R87) -/

/-- Steps taken forwards and then, in the picture of the states under `p`, undone in reverse order. -/
theorem foldl_reverse_undoes {α β : Type} {f g : α → β → α} {p : α → α} (h : ∀ S r, g (p (f S r)) r = p S)
    (rs : List β) (S : α) : rs.reverse.foldl g (p (rs.foldl f S)) = p S := by
  induction rs generalizing S with
  | nil => rfl
  | cons r rs ih => rw [List.reverse_cons, List.foldl_append, List.foldl_cons, List.foldl_nil, List.foldl_cons, ih, h]

/-- A round of `AES_DEC` undoes one of `AES_ENC` between the substitution of one round and that of the next. -/
theorem decryptRound_encryptRound (rk : RoundKeys) (S : Block) (r : Nat) :
    decryptRound rk (shiftRows (subBytes (encryptRound rk S r))) r = shiftRows (subBytes S) := by
  simp only [decryptRound, encryptRound, invShiftRows_shiftRows, invSubBytes_subBytes, addRoundKey_addRoundKey,
    invMixColumns_mixColumns]

theorem encryptRound_decryptRound (rk : RoundKeys) (S : Block) (r : Nat) :
    encryptRound rk (invSubBytes (invShiftRows (decryptRound rk S r))) r = invSubBytes (invShiftRows S) := by
  simp only [decryptRound, encryptRound, shiftRows_invShiftRows, subBytes_invSubBytes, addRoundKey_addRoundKey,
    mixColumns_invMixColumns]

theorem aesDec_aesEnc (rk : RoundKeys) (nr : Nat) (B : Block) : aesDec rk nr (aesEnc rk nr B) = B := by
  have hrounds := foldl_reverse_undoes (p := fun S => shiftRows (subBytes S)) (decryptRound_encryptRound rk)
    (List.range' 1 (nr - 1)) (addRoundKey B rk 0)
  simp only [aesDec, aesEnc, addRoundKey_addRoundKey, hrounds, invShiftRows_shiftRows, invSubBytes_subBytes]

theorem aesEnc_aesDec (rk : RoundKeys) (nr : Nat) (B : Block) : aesEnc rk nr (aesDec rk nr B) = B := by
  have hrounds := foldl_reverse_undoes (p := fun S => invSubBytes (invShiftRows S)) (encryptRound_decryptRound rk)
    (List.range' 1 (nr - 1)).reverse (addRoundKey B rk nr)
  rw [List.reverse_reverse] at hrounds
  simp only [aesDec, aesEnc, addRoundKey_addRoundKey, hrounds, shiftRows_invShiftRows, subBytes_invSubBytes]

/-! The commands of the Block Cipher Engine (rule R91) -/

/-- A command that ends without error has had its effect. -/
theorem exec_effect_of_no_error {i : Instr} {s t : State} (h : exec i s = .next t) (herr : t.flags.err = false) :
    ∃ u, OperandsInRange i s ∧ CommandEffect s i u ∧ t = complete u := by
  rcases exec_next h with ⟨e, -, rfl⟩ | heffect
  · cases herr
  · exact heffect

theorem aes_of_exec_setKey {s t : State} {bits : Nat} {key : List Byte}
    (hread : s.opmem.read s.regs.keyAddr.toNat (bits / 8) = .ok key) (h : exec (.setKey bits) s = .next t)
    (herr : t.flags.err = false) : t.aes = AesContext.ofKey key bits := by
  obtain ⟨u, -, heffect, rfl⟩ := exec_effect_of_no_error h herr
  cases heffect with
  | setKey hlegal hread' =>
    cases hread.symm.trans hread'
    rfl

/-- A block command that ends without error has replaced the block at `DST_ADDR` by the image of the one at
`SRC_ADDR`. -/
theorem blockCommand_writes {s t : State} {b : List Byte} (cipher : RoundKeys → Nat → Block → Block)
    (hread : s.opmem.read s.regs.srcAddr.toNat 16 = .ok b) (h : blockCommand cipher s = .next t)
    (herr : t.flags.err = false) :
    t.aes = s.aes ∧
      t.opmem.read s.regs.dstAddr.toNat 16 = .ok (cipher s.aes.rk s.aes.nr (fixed 16 b)).toList := by
  cases hk : s.aes.valid with
  | false =>
    rw [blockCommand_of_noKey cipher hk] at h
    cases h
    cases herr
  | true =>
    by_cases hv : s.regs.srcAddr.toNat + 16 ≤ s.params.opmemBytes ∧ s.regs.dstAddr.toNat + 16 ≤ s.params.opmemBytes
    · rw [blockCommand_of_read cipher hk hv.1 hv.2 hread] at h
      cases h
      have hstored := read_writeBytes s.opmem s.regs.dstAddr.toNat (cipher s.aes.rk s.aes.nr (fixed 16 b)).toList
      rw [Vector.length_toList] at hstored
      exact ⟨rfl, hstored⟩
    · rw [blockCommand_of_badRange cipher hk (by omega)] at h
      cases h
      cases herr

/-- A block read, put through `AES_ENC` and back through `AES_DEC`, is the block. -/
theorem toList_aesDec_aesEnc (rk : RoundKeys) (nr : Nat) {b : List Byte} (hb : b.length = 16) :
    (aesDec rk nr (fixed 16 (aesEnc rk nr (fixed 16 b)).toList)).toList = b := by
  rw [fixed_toList, aesDec_aesEnc, toList_fixed hb]

end Sys2Proof.Machine

namespace Sys2Proof.Proofs

open Sys2Proof.Machine

/-- Settles O47: the steps byte by byte, the states of the folds as the two sequences, and each round undone by the
round of the other function. -/
theorem blockFunctionsInverse : Obligations.BlockFunctionsInverse := by
  refine ⟨getElem_addRoundKey, fun S i => ⟨by simp [subBytes], by simp [invSubBytes]⟩,
    fun S => ⟨shiftRows_eq S, invShiftRows_eq S⟩, fun rk nr B _ => ?_,
    fun rk nr B => ⟨aesDec_aesEnc rk nr B, aesEnc_aesDec rk nr B⟩⟩
  refine ⟨encStateAfter rk B, decStateAfter rk nr B, rfl, fun r hr _ => ?_, aesEnc_eq rk nr B,
    decStateAfter_self rk nr B, fun r _ hr => decStateAfter_of_lt rk B hr, aesDec_eq rk nr B⟩
  obtain ⟨k, rfl⟩ := Nat.exists_eq_add_of_le' hr
  exact encStateAfter_succ rk B k

/-- Settles O48: SET_KEY is a function of the key and its size; each block command writes the image of the block it
read, and the images under the two functions undo each other. -/
theorem blockLaws : Obligations.BlockLaws := by
  refine ⟨fun s s' t t' bits key hs hs' ht ht' herr herr' => ?_, fun i s t hi h => ?_,
    fun s t u r b hread henc herr hsrc hdec herr' => ?_, fun i s b hi hk hs hd hread => ?_⟩
  · rw [aes_of_exec_setKey hs ht herr, aes_of_exec_setKey hs' ht' herr']
  · rcases hi with rfl | rfl
    · exact exec_keeps_aes (i := .encryptBlock) nofun nofun h
    · exact exec_keeps_aes (i := .decryptBlock) nofun nofun h
  · obtain ⟨haes, hstored⟩ := blockCommand_writes aesEnc hread henc herr
    rw [← hsrc] at hstored
    obtain ⟨-, hback⟩ := blockCommand_writes (s := { t with regs := r }) aesDec hstored hdec herr'
    rwa [haes, toList_aesDec_aesEnc _ _ (read_length hread)] at hback
  · rcases hi with rfl | rfl
    · exact ⟨_, blockCommand_of_read aesEnc hk hs hd hread, rfl⟩
    · exact ⟨_, blockCommand_of_read aesDec hk hs hd hread, rfl⟩

end Sys2Proof.Proofs
end

section
/-! The laws of the keystream (rule R103): each byte of the output meets one byte of the keystream, which the counter
and the byte's place determine; and the obligation about them. -/

namespace Sys2Proof.Machine

/-- Byte `i` of the keystream from the counter block `cb` on (rule R102). -/
def keystreamByte (ks : Block → Block) (cb : Block) (i : Nat) : Byte :=
  (ks ((ctrInc^[i / 16]) cb)).toList.getD (i % 16) 0#8

theorem ctrStream_fst (ks : Block → Block) (cb : Block) (inp : List Byte) :
    (ctrStream ks cb inp).1 = (List.range inp.length).map fun i => inp.getD i 0#8 ^^^ keystreamByte ks cb i := by
  rw [ctrStream_eq]
  rfl

theorem ctrStream_snd (ks : Block → Block) (cb : Block) (inp : List Byte) :
    (ctrStream ks cb inp).2 = (ctrInc^[(inp.length + 15) / 16]) cb := by
  rw [ctrStream_eq]

theorem getElem_ctrStream (ks : Block → Block) (cb : Block) {inp : List Byte} {i : Nat} (h : i < inp.length) :
    (ctrStream ks cb inp).1[i]'(by rwa [length_ctrStream]) = inp[i] ^^^ keystreamByte ks cb i := by
  simp [ctrStream_fst, List.getD_eq_getElem?_getD, h]

theorem getD_ctrStream (ks : Block → Block) (cb : Block) {inp : List Byte} {i : Nat} (h : i < inp.length) :
    (ctrStream ks cb inp).1.getD i 0#8 = inp[i] ^^^ keystreamByte ks cb i := by
  rw [List.getD_eq_getElem _ _ (by rwa [length_ctrStream]), getElem_ctrStream ks cb h]

/-- Symmetry: the keystream applied twice gives the input back. -/
theorem ctrStream_ctrStream (ks : Block → Block) (cb : Block) (inp : List Byte) :
    (ctrStream ks cb (ctrStream ks cb inp).1).1 = inp := by
  apply List.ext_getElem
  · rw [length_ctrStream, length_ctrStream]
  · intro i h1 h2
    rw [getElem_ctrStream ks cb (by rwa [length_ctrStream]), getElem_ctrStream ks cb h2, BitVec.xor_assoc,
      BitVec.xor_self, BitVec.xor_zero]

/-- The keystream from a counter block `n` segments on. -/
theorem keystreamByte_iterate (ks : Block → Block) (cb : Block) (n i : Nat) :
    keystreamByte ks ((ctrInc^[n]) cb) i = keystreamByte ks cb (16 * n + i) := by
  rw [keystreamByte, keystreamByte, ← Function.iterate_add_apply, show (16 * n + i) / 16 = i / 16 + n by omega,
    Nat.mul_add_mod]

/-- Continuation after a first piece of whole segments. -/
theorem ctrStream_append_of_whole (ks : Block → Block) (cb : Block) {A : List Byte} (hA : A.length % 16 = 0)
    (B : List Byte) :
    ctrStream ks cb (A ++ B) =
      ((ctrStream ks cb A).1 ++ (ctrStream ks (ctrStream ks cb A).2 B).1,
        (ctrStream ks (ctrStream ks cb A).2 B).2) := by
  have hsegments : 16 * ((A.length + 15) / 16) = A.length := by omega
  apply Prod.ext
  · apply List.ext_getElem
    · simp only [length_ctrStream, List.length_append]
    · intro i h1 h2
      rw [length_ctrStream] at h1
      rw [getElem_ctrStream ks cb h1]
      rcases Nat.lt_or_ge i A.length with hi | hi
      · rw [List.getElem_append_left hi, List.getElem_append_left (by rwa [length_ctrStream]),
          getElem_ctrStream ks cb hi]
      · have hB : i - A.length < B.length := by rw [List.length_append] at h1; omega
        rw [List.getElem_append_right hi, List.getElem_append_right (by rwa [length_ctrStream])]
        simp only [length_ctrStream]
        rw [getElem_ctrStream ks _ hB, ctrStream_snd, keystreamByte_iterate, hsegments, Nat.add_sub_cancel' hi]
  · show (ctrStream ks cb (A ++ B)).2 = (ctrStream ks (ctrStream ks cb A).2 B).2
    rw [ctrStream_snd, ctrStream_snd, ctrStream_snd, ← Function.iterate_add_apply, List.length_append]
    congr 2
    omega

theorem ctrStream_nil (ks : Block → Block) (cb : Block) : ctrStream ks cb [] = ([], cb) := rfl

/-- Two pieces use as many segments as one call, or one more. -/
theorem ctrStream_snd_pieces (ks : Block → Block) (cb : Block) (A B : List Byte) :
    (ctrStream ks (ctrStream ks cb A).2 B).2 = (ctrStream ks cb (A ++ B)).2 ∨
      (ctrStream ks (ctrStream ks cb A).2 B).2 = ctrInc (ctrStream ks cb (A ++ B)).2 := by
  rw [ctrStream_snd, ctrStream_snd, ctrStream_snd, ← Function.iterate_add_apply, List.length_append]
  have hcount : (B.length + 15) / 16 + (A.length + 15) / 16 = (A.length + B.length + 15) / 16 ∨
      (B.length + 15) / 16 + (A.length + 15) / 16 = (A.length + B.length + 15) / 16 + 1 := by omega
  rcases hcount with hcount | hcount
  · exact .inl (by rw [hcount])
  · exact .inr (by rw [hcount, Function.iterate_succ_apply'])

end Sys2Proof.Machine

namespace Sys2Proof.Proofs

open Sys2Proof.Machine

/-- Settles O50: each byte of the output is the input byte and one keystream byte, so the laws are about places in the
keystream and counts of segments. -/
theorem streamLaws : Obligations.StreamLaws := by
  intro ks cb A B
  refine ⟨ctrStream_ctrStream ks cb A, fun i h => ?_, fun h => ?_, fun hA => ⟨fun k hk => ?_,
    ctrStream_snd_pieces ks cb A B⟩⟩
  · rw [getD_ctrStream ks cb h, keystreamByte, ctrInc_iterate]
  · rcases h with hA | rfl
    · exact ctrStream_append_of_whole ks cb hA B
    · simp only [ctrStream_nil, List.append_nil]
  · have hsegments : 16 * ((A.length + 15) / 16) = 16 * (A.length / 16 + 1) := by omega
    rw [getD_ctrStream ks _ hk, ctrStream_snd, keystreamByte_iterate, hsegments, ← keystreamByte_iterate,
      keystreamByte, ← Function.iterate_add_apply, Nat.add_comm (k / 16)]

end Sys2Proof.Proofs
end

section
/-! The hash as a stream and as Merkle-Damgard (rules R115 to R117): feeding pieces is feeding their concatenation, the
128-bit length counter beside it; block by block the feeding is the compression of whole blocks, and the last bytes with
their padding are one block or two. The streamed commands (rules R118 to R120). The obligations about them. -/

namespace Sys2Proof.Machine

/-! The length counter (rules R115, R121) -/

/-- The 128-bit count of message bits. -/
def HashState.bitCount (S : HashState) : Nat := S.lenHi.toNat * 2 ^ 64 + S.lenLo.toNat

theorem HashState.ext_bitCount {S T : HashState} (hh : S.h = T.h) (hbuf : S.buf = T.buf) (hn : S.n = T.n)
    (hcount : S.bitCount = T.bitCount) : S = T := by
  obtain ⟨h, buf, n, lenHi, lenLo⟩ := S
  obtain ⟨h', buf', n', lenHi', lenLo'⟩ := T
  obtain rfl : h = h' := hh
  obtain rfl : buf = buf' := hbuf
  obtain rfl : n = n' := hn
  have hlo := lenLo.isLt
  have hlo' := lenLo'.isLt
  simp only [HashState.bitCount] at hcount
  obtain rfl : lenHi = lenHi' := BitVec.eq_of_toNat_eq (by omega)
  obtain rfl : lenLo = lenLo' := BitVec.eq_of_toNat_eq (by omega)
  rfl

theorem HashState.bitCount_lt (S : HashState) : S.bitCount < 2 ^ 128 := by
  have hhi := S.lenHi.isLt
  have hlo := S.lenLo.isLt
  rw [HashState.bitCount]
  omega

/-- The two halves with their carry count modulo `2^128`. -/
theorem bitCount_addLength (S : HashState) (count : Nat) :
    (addLength S count).bitCount = (S.bitCount + 8 * count) % 2 ^ 128 := by
  simp only [HashState.bitCount, addLength, BitVec.toNat_ofNat]
  omega

theorem addLength_zero (S : HashState) : addLength S 0 = S := by
  refine HashState.ext_bitCount rfl rfl rfl ?_
  rw [bitCount_addLength, Nat.mul_zero, Nat.add_zero, Nat.mod_eq_of_lt S.bitCount_lt]

theorem addLength_addLength (S : HashState) (a b : Nat) : addLength (addLength S a) b = addLength S (a + b) := by
  refine HashState.ext_bitCount rfl rfl rfl ?_
  rw [bitCount_addLength, bitCount_addLength, bitCount_addLength, Nat.mod_add_mod, Nat.mul_add, Nat.add_assoc]

/-! Feeding in pieces (rule R117) -/

/-- The buffer and the hash do not depend on the length counter. -/
theorem feedByte_addLength (S : HashState) (count : Nat) (d : Byte) :
    feedByte (addLength S count) d = addLength (feedByte S d) count := by
  unfold feedByte
  split <;> rename_i hfull
  · rw [if_pos (show S.n + 1 = 128 from hfull)]
    rfl
  · rw [if_neg (show ¬S.n + 1 = 128 from hfull)]
    rfl

theorem foldl_feedByte_addLength (S : HashState) (count : Nat) (D : List Byte) :
    D.foldl feedByte (addLength S count) = addLength (D.foldl feedByte S) count := by
  induction D generalizing S with
  | nil => rfl
  | cons d D ih => rw [List.foldl_cons, feedByte_addLength, ih, List.foldl_cons]

theorem bitCount_feedByte (S : HashState) (d : Byte) : (feedByte S d).bitCount = S.bitCount := by
  unfold feedByte
  split <;> rfl

theorem bitCount_shaUpdate (S : HashState) (D : List Byte) :
    (shaUpdate S D).bitCount = (S.bitCount + 8 * D.length) % 2 ^ 128 := by
  have hfed : (D.foldl feedByte S).bitCount = S.bitCount := by
    induction D generalizing S with
    | nil => rfl
    | cons d D ih => rw [List.foldl_cons, ih, bitCount_feedByte]
  rw [shaUpdate, bitCount_addLength, hfed]

theorem shaUpdate_nil (S : HashState) : shaUpdate S [] = S := addLength_zero S

theorem shaUpdate_shaUpdate (S : HashState) (A B : List Byte) :
    shaUpdate (shaUpdate S A) B = shaUpdate S (A ++ B) := by
  rw [shaUpdate, shaUpdate, foldl_feedByte_addLength, addLength_addLength, ← List.foldl_append, ← List.length_append]
  rfl

theorem foldl_shaUpdate (S : HashState) (pieces : List (List Byte)) :
    pieces.foldl shaUpdate S = shaUpdate S pieces.flatten := by
  induction pieces generalizing S with
  | nil => exact (shaUpdate_nil S).symm
  | cons piece pieces ih => rw [List.foldl_cons, ih, shaUpdate_shaUpdate, List.flatten_cons]

/-! Feeding block by block (rule R115) -/

/-- A hash state with nothing buffered. -/
def emptyBuffer (H : Vector DWord 8) (lenHi lenLo : DWord) : HashState :=
  { h := H, buf := Vector.replicate 128 0x00#8, n := 0, lenHi := lenHi, lenLo := lenLo }

theorem fixed_nil (n : Nat) : fixed n [] = Vector.replicate n 0x00#8 := by
  refine Vector.ext fun i hi => ?_
  rw [getElem_fixed, Vector.getElem_replicate, List.getD_nil]

/-- The byte after the ones stored. -/
theorem fixed_setIfInBounds (D : List Byte) (d : Byte) :
    (fixed 128 D).setIfInBounds D.length d = fixed 128 (D ++ [d]) := by
  refine Vector.ext fun i hi => ?_
  rw [Vector.getElem_setIfInBounds, getElem_fixed, getElem_fixed]
  rcases Nat.lt_trichotomy i D.length with h | h | h
  · rw [if_neg h.ne', List.getD_append _ _ _ _ h]
  · rw [if_pos h.symm, List.getD_append_right _ _ _ _ h.ge, h, Nat.sub_self]
    rfl
  · rw [if_neg h.ne, List.getD_eq_default _ _ h.le, List.getD_eq_default]
    simpa using h

section Feed

variable (H : Vector DWord 8) (lenHi lenLo : DWord)

/-- Fewer bytes than a block are buffered. -/
theorem foldl_feedByte_short {D : List Byte} (hD : D.length < 128) :
    D.foldl feedByte (emptyBuffer H lenHi lenLo) =
      { h := H, buf := fixed 128 D, n := D.length, lenHi := lenHi, lenLo := lenLo } := by
  induction D using List.reverseRecOn with
  | nil => rw [List.foldl_nil, fixed_nil, emptyBuffer, List.length_nil]
  | append_singleton D d ih =>
    rw [List.length_append, List.length_singleton] at hD
    rw [List.foldl_append, ih (by omega), List.foldl_cons, List.foldl_nil, feedByte, if_neg (by simp only; omega),
      List.length_append]
    simp only [fixed_setIfInBounds, List.length_singleton]

/-- A whole block is compressed and the buffer is empty again. -/
theorem foldl_feedByte_block {D : List Byte} (hD : D.length = 128) :
    D.foldl feedByte (emptyBuffer H lenHi lenLo) = emptyBuffer (compress H D) lenHi lenLo := by
  obtain ⟨init, d, rfl⟩ : ∃ init d, D = init ++ [d] := by
    rcases List.eq_nil_or_concat D with rfl | ⟨init, d, h⟩
    · cases hD
    · exact ⟨init, d, by rw [h, List.concat_eq_append]⟩
  have hinit : init.length = 127 := by simpa using hD
  rw [List.foldl_append, foldl_feedByte_short H lenHi lenLo (by omega), List.foldl_cons, List.foldl_nil, feedByte,
    if_pos (by simp only; omega)]
  simp only [fixed_setIfInBounds, toList_fixed hD]
  rfl

end Feed

/-! The padded message (rule R116) -/

/-- A byte string cut into blocks of 128 bytes. -/
def blocksOf (l : List Byte) : List (List Byte) :=
  (List.range (l.length / 128)).map fun j => slice l (128 * j) 128

/-- The message, 0x80, the fewest zeros, and the length field. -/
def padded (M lengthField : List Byte) : List Byte :=
  M ++ [0x80#8] ++ zeros ((239 - M.length % 128) % 128) ++ lengthField

theorem blocksOf_nil : blocksOf [] = [] := rfl

theorem blocksOf_append {b : List Byte} (hb : b.length = 128) (l : List Byte) :
    blocksOf (b ++ l) = b :: blocksOf l := by
  have hcount : (b ++ l).length / 128 = l.length / 128 + 1 := by rw [List.length_append, hb]; omega
  have hnext (j : Nat) : slice (b ++ l) (128 * (j + 1)) 128 = slice l (128 * j) 128 := by
    rw [slice, slice, show 128 * (j + 1) = b.length + 128 * j by omega, List.drop_length_add_append]
  rw [blocksOf, hcount, List.range_succ_eq_map, List.map_cons, List.map_map]
  congr 1
  · exact slice_append_middle (a := []) rfl hb l
  · exact List.map_congr_left fun j _ => hnext j

theorem zeros_add (a b : Nat) : zeros (a + b) = zeros a ++ zeros b := List.replicate_add ..

/-- The fewest zeros that fill whole blocks. -/
theorem length_padded_mod (M : List Byte) {lengthField : List Byte} (hL : lengthField.length = 16) :
    (padded M lengthField).length % 128 = 0 := by
  simp only [padded, List.length_append, List.length_singleton, length_zeros, hL]
  omega

theorem padded_append {b : List Byte} (hb : b.length = 128) (M lengthField : List Byte) :
    padded (b ++ M) lengthField = b ++ padded M lengthField := by
  rw [padded, padded, List.length_append, hb, Nat.add_mod_left]
  simp only [List.append_assoc]

/-- A message shorter than a block, with its padding, is one block, or two where the length does not fit (conflict
C7). -/
theorem blocksOf_padded_short {R lengthField : List Byte} (hR : R.length < 128) (hL : lengthField.length = 16) :
    blocksOf (padded R lengthField) =
      if (R ++ [0x80#8]).length > 112 then
        [R ++ [0x80#8] ++ zeros (128 - (R ++ [0x80#8]).length), zeros 112 ++ lengthField]
      else [R ++ [0x80#8] ++ zeros (112 - (R ++ [0x80#8]).length) ++ lengthField] := by
  rw [padded, List.length_append, List.length_singleton, Nat.mod_eq_of_lt hR]
  split
  · next hlong =>
    have hcount : (239 - R.length) % 128 = (128 - (R.length + 1)) + 112 := by omega
    have hfirst : (R ++ [0x80#8] ++ zeros (128 - (R.length + 1))).length = 128 := by simp; omega
    have hsecond : (zeros 112 ++ lengthField).length = 128 := by simp [hL]
    rw [hcount, zeros_add, ← List.append_assoc (R ++ [0x80#8]), List.append_assoc _ (zeros 112),
      blocksOf_append hfirst, ← List.append_nil (zeros 112 ++ lengthField), blocksOf_append hsecond, blocksOf_nil,
      List.append_nil]
  · next hshort =>
    have hcount : (239 - R.length) % 128 = 112 - (R.length + 1) := by omega
    have honly : (R ++ [0x80#8] ++ zeros (112 - (R.length + 1)) ++ lengthField).length = 128 := by simp [hL]; omega
    rw [hcount, ← List.append_nil (R ++ [0x80#8] ++ zeros (112 - (R.length + 1)) ++ lengthField),
      blocksOf_append honly, blocksOf_nil, List.append_nil]

/-- Closing the hash compresses the buffered bytes with their padding. -/
theorem shaFinal_short (H : Vector DWord 8) (lenHi lenLo : DWord) {R : List Byte} (hR : R.length < 128) :
    shaFinal { h := H, buf := fixed 128 R, n := R.length, lenHi := lenHi, lenLo := lenLo } =
      digestBytes ((blocksOf (padded R (be64 lenHi ++ be64 lenLo))).foldl compress H) := by
  have hbuffered : slice (fixed 128 R).toList 0 R.length = R := by
    rw [slice_fixed (by omega) (by omega), slice, List.drop_zero, List.take_length]
  rw [blocksOf_padded_short hR (by simp), shaFinal]
  simp only [hbuffered]
  split <;> rfl

/-- Feeding a message and closing the hash folds the compression over the padded message. -/
theorem shaFinal_foldl_feedByte (H : Vector DWord 8) (lenHi lenLo : DWord) (M : List Byte) :
    shaFinal (M.foldl feedByte (emptyBuffer H lenHi lenLo)) =
      digestBytes ((blocksOf (padded M (be64 lenHi ++ be64 lenLo))).foldl compress H) := by
  induction hlen : M.length using Nat.strong_induction_on generalizing M H with
  | _ len ih =>
    rcases Nat.lt_or_ge M.length 128 with hshort | hlong
    · rw [foldl_feedByte_short H lenHi lenLo hshort, shaFinal_short H lenHi lenLo hshort]
    · have hblock : (M.take 128).length = 128 := by rw [List.length_take]; omega
      have hrest : (M.drop 128).length < len := by rw [List.length_drop]; omega
      conv_lhs => rw [← List.take_append_drop 128 M]
      conv_rhs => rw [← List.take_append_drop 128 M]
      rw [List.foldl_append, foldl_feedByte_block H lenHi lenLo hblock, ih _ hrest _ _ rfl, padded_append hblock,
        blocksOf_append hblock, List.foldl_cons]

/-- The two halves of the counter, serialised, are the 128-bit length field. -/
theorem be64_append_be64 (S : HashState) : be64 S.lenHi ++ be64 S.lenLo = be128 S.bitCount := by
  have hhi := S.lenHi.isLt
  have hlo := S.lenLo.isLt
  have hvalue : frombe (be64 S.lenHi ++ be64 S.lenLo) = S.bitCount := by
    rw [frombe_append, be64, be64, frombe_beBytes, frombe_beBytes, length_beBytes, HashState.bitCount]
    omega
  have hencode := beBytes_frombe (be64 S.lenHi ++ be64 S.lenLo)
  rw [hvalue] at hencode
  exact hencode.symm

/-- The whole hash (rule R117). -/
theorem sha512_eq_foldl_compress (M : List Byte) :
    sha512 M = digestBytes ((blocksOf (padded M (be128 (8 * M.length % 2 ^ 128)))).foldl compress initialHash) := by
  have hcount : (addLength shaInit M.length).bitCount = 8 * M.length % 2 ^ 128 := by
    rw [bitCount_addLength, show shaInit.bitCount = 0 from rfl, Nat.zero_add]
  rw [sha512, shaUpdate, ← foldl_feedByte_addLength, ← hcount, ← be64_append_be64]
  exact shaFinal_foldl_feedByte initialHash _ _ M

/-! The streamed commands (rules R118 to R120) -/

/-- An output operand read back from the memory it was stored to. -/
theorem read_store {o : Operand} {bs : List Byte} (h : bs.length = o.len) (s : State) :
    (store o bs s).opmem.read o.addr o.len = .ok bs := by
  rw [← h]
  exact read_writeBytes _ _ _

theorem sha_of_exec_shaUpdate {s t : State} {d : List Byte}
    (hread : s.opmem.read s.regs.srcAddr.toNat s.regs.srcLen.toNat = .ok d) (h : exec .shaUpdate s = .next t)
    (herr : t.flags.err = false) : t.sha = { hash := shaUpdate s.sha.hash d, st := s.sha.st } := by
  obtain ⟨u, -, heffect, rfl⟩ := exec_effect_of_no_error h herr
  cases heffect with
  | shaUpdate hactive hread' =>
    cases hread.symm.trans hread'
    rfl

theorem digest_of_exec_shaFinal {s t : State} (h : exec .shaFinal s = .next t) (herr : t.flags.err = false) :
    t.opmem.read s.regs.dstAddr.toNat 64 = .ok (shaFinal s.sha.hash) ∧ t.sha.st = .consumed := by
  obtain ⟨u, -, heffect, rfl⟩ := exec_effect_of_no_error h herr
  cases heffect with
  | shaFinal hactive => exact ⟨read_store (o := dstOperand 64 s) (length_shaFinal _) s, rfl⟩

end Sys2Proof.Machine

namespace Sys2Proof.Proofs

open Sys2Proof.Machine

/-- Settles O52: the bytes fed and the length counted do not meet until the end, and each adds up over the pieces. -/
theorem shaChunking : Obligations.ShaChunking :=
  ⟨foldl_shaUpdate, bitCount_shaUpdate⟩

/-- Settles O53: whole blocks are compressed as they come; the rest with its padding is the last block or the last
two. -/
theorem sha512IsMerkleDamgard : Obligations.Sha512IsMerkleDamgard :=
  fun M => ⟨length_padded_mod M (length_beBytes 16 _), sha512_eq_foldl_compress M⟩

/-- Settles O54: the context holds the state of all bytes fed, by the chunking law, and closing it is `SHA512`. -/
theorem streamedHash : Obligations.StreamedHash := by
  refine ⟨fun s t h => ?_, fun s t fed d hs hread h herr => ?_, fun s t fed hs h herr => ?_⟩
  · have ht : complete (setSha shaInit .active s) = t := Host.Outcome.next.inj h
    rw [← ht, complete_sha, setSha_sha, shaUpdate_nil]
  · rw [sha_of_exec_shaUpdate hread h herr, hs, shaUpdate_shaUpdate]
  · have hdigest := digest_of_exec_shaFinal h herr
    rwa [hs] at hdigest

end Sys2Proof.Proofs
end

section
/-! The laws of HMAC (rules R125, R126, R131): the key as it enters the two pads, the streamed commands beside the
one-shot command, and that the Hash Engine and the MAC Engine do not meet; and the obligation about them. -/

namespace Sys2Proof.Machine

/-! The key (rule R125) -/

theorem hmacKey_of_long {key : List Byte} (h : 128 < key.length) : hmacKey key = sha512 key ++ zeros 64 := if_pos h

theorem hmacKey_of_short {key : List Byte} (h : key.length ≤ 128) :
    hmacKey key = key ++ zeros (128 - key.length) := if_neg (Nat.not_lt.mpr h)

theorem hmacKey_of_block {key : List Byte} (h : key.length = 128) : hmacKey key = key := by
  rw [hmacKey_of_short h.le, h]
  exact List.append_nil key

/-- Zeros at the end of a key that stays within a block are the zeros of its padding. -/
theorem hmacKey_append_zeros {key : List Byte} {n : Nat} (h : key.length + n ≤ 128) :
    hmacKey (key ++ zeros n) = hmacKey key := by
  have hpad : 128 - key.length = n + (128 - (key ++ zeros n).length) := by
    rw [List.length_append, length_zeros]
    omega
  rw [hmacKey_of_short (by rw [List.length_append, length_zeros]; exact h), hmacKey_of_short (by omega), hpad,
    zeros_add, List.append_assoc]

theorem hmacTag_congr {key key' : List Byte} (h : hmacKey key = hmacKey key') (data : List Byte) :
    hmacTag key data = hmacTag key' data := by
  simp only [hmacTag, paddedKey, h]

/-! The streamed commands beside the one-shot command (rule R131 (1)) -/

/-- The context after the key and the bytes fed so far. -/
def hmacContextOf (key fed : List Byte) : HmacContext :=
  { inner := shaUpdate shaInit (paddedKey key ipad ++ fed)
    outer := shaUpdate shaInit (paddedKey key opad)
    st := .active }

theorem hmacFinal_hmacContextOf (key fed : List Byte) :
    hmacFinal ((hmacContextOf key fed).inner, (hmacContextOf key fed).outer) = hmacTag key fed := by
  simp only [hmacFinal, hmacContextOf, shaUpdate_shaUpdate, hmacTag, sha512]

section Commands

variable {s t : State} {key fed d data : List Byte}

theorem hm_of_exec_hmacInit (hread : s.opmem.read s.regs.keyAddr.toNat s.regs.keyLen.toNat = .ok key)
    (h : exec .hmacInit s = .next t) (herr : t.flags.err = false) : t.hm = hmacContextOf key [] := by
  obtain ⟨u, -, heffect, rfl⟩ := exec_effect_of_no_error h herr
  cases heffect with
  | hmacInit hread' =>
    cases hread.symm.trans hread'
    rw [hmacContextOf, List.append_nil]
    rfl

theorem hm_of_exec_hmacUpdate (hs : s.hm = hmacContextOf key fed)
    (hread : s.opmem.read s.regs.srcAddr.toNat s.regs.srcLen.toNat = .ok d) (h : exec .hmacUpdate s = .next t)
    (herr : t.flags.err = false) : t.hm = hmacContextOf key (fed ++ d) := by
  obtain ⟨u, -, heffect, rfl⟩ := exec_effect_of_no_error h herr
  cases heffect with
  | hmacUpdate hactive hread' =>
    cases hread.symm.trans hread'
    simp only [complete_hm, setHmac_hm, hmacUpdate, hs, hmacContextOf, shaUpdate_shaUpdate, List.append_assoc]

theorem tag_of_exec_hmacFinal (hs : s.hm = hmacContextOf key fed) (h : exec .hmacFinal s = .next t)
    (herr : t.flags.err = false) : t.opmem.read s.regs.dstAddr.toNat 64 = .ok (hmacTag key fed) := by
  obtain ⟨u, -, heffect, rfl⟩ := exec_effect_of_no_error h herr
  cases heffect with
  | hmacFinal hactive =>
    rw [hs, hmacFinal_hmacContextOf]
    exact read_store (o := dstOperand 64 s) (length_hmacTag key fed) s

theorem tag_of_exec_hmac (hkey : s.opmem.read s.regs.keyAddr.toNat s.regs.keyLen.toNat = .ok key)
    (hdata : s.opmem.read s.regs.srcAddr.toNat s.regs.srcLen.toNat = .ok data) (h : exec .hmac s = .next t)
    (herr : t.flags.err = false) : t.opmem.read s.regs.dstAddr.toNat 64 = .ok (hmacTag key data) := by
  obtain ⟨u, -, heffect, rfl⟩ := exec_effect_of_no_error h herr
  cases heffect with
  | hmac hkey' hdata' =>
    cases hkey.symm.trans hkey'
    cases hdata.symm.trans hdata'
    exact read_store (o := dstOperand 64 s) (length_hmacTag key data) s

end Commands

/-! The two engines do not meet (rule R131 (2)) -/

section Contexts

variable {i : Instr}

theorem assignments_with_sha (hz : i ≠ .zeroize) (hi : isShaCommand i = false) (bs : List (List Byte)) (s : State)
    (c : ShaContext) : assignments i bs { s with sha := c } = { assignments i bs s with sha := c } := by
  cases i with
  | zeroize => exact absurd rfl hz
  | shaInit | shaUpdate | shaFinal => cases hi
  | setKey | hmacInit | hmacUpdate => rfl
  | encryptBlock | decryptBlock | ctrCrypt | hmac | hmacFinal | pbkdf2 =>
    simp [assignments, ctrOperand, dstOperand, State.reg, store, consumeHmac]

theorem assignments_with_hm (hz : i ≠ .zeroize) (hi : usesHmac i = false) (bs : List (List Byte)) (s : State)
    (c : HmacContext) : assignments i bs { s with hm := c } = { assignments i bs s with hm := c } := by
  cases i with
  | zeroize => exact absurd rfl hz
  | hmac | hmacInit | hmacUpdate | hmacFinal | pbkdf2 => cases hi
  | setKey | shaInit | shaUpdate => rfl
  | encryptBlock | decryptBlock | ctrCrypt | shaFinal =>
    simp [assignments, ctrOperand, dstOperand, State.reg, store, setSha]

/-- A command that is not of the Hash Engine does the same whatever `SHA` holds, and leaves it. -/
theorem exec_with_sha (hz : i ≠ .zeroize) (hi : isShaCommand i = false) (s : State) (c : ShaContext) :
    exec i { s with sha := c } = mapNext (fun t => { t with sha := c }) (exec i s) := by
  refine exec_map _ ?_ ?_ rfl (fun _ _ => rfl) fun bs => by rw [assignments_with_sha hz hi]; rfl
  · cases i with
    | shaInit | shaUpdate | shaFinal => cases hi
    | _ => rfl
  · cases i <;> rfl

/-- A command that does not use `HM` does the same whatever it holds, and leaves it. -/
theorem exec_with_hm (hz : i ≠ .zeroize) (hi : usesHmac i = false) (s : State) (c : HmacContext) :
    exec i { s with hm := c } = mapNext (fun t => { t with hm := c }) (exec i s) := by
  refine exec_map _ ?_ ?_ rfl (fun _ _ => rfl) fun bs => by rw [assignments_with_hm hz hi]; rfl
  · cases i with
    | hmac | hmacInit | hmacUpdate | hmacFinal | pbkdf2 => cases hi
    | _ => rfl
  · cases i <;> rfl

theorem not_sha_of_hmac_command (h : i = .hmac ∨ i = .hmacInit ∨ i = .hmacUpdate ∨ i = .hmacFinal) :
    i ≠ .zeroize ∧ isShaCommand i = false := by
  rcases h with rfl | rfl | rfl | rfl <;> decide

theorem not_hmac_of_sha_command (h : i = .shaInit ∨ i = .shaUpdate ∨ i = .shaFinal) :
    i ≠ .zeroize ∧ usesHmac i = false := by
  rcases h with rfl | rfl | rfl <;> decide

end Contexts

end Sys2Proof.Machine

namespace Sys2Proof.Proofs

open Sys2Proof.Machine

/-- Settles O55: the context holds the key and the bytes fed, by the chunking law; the other engine's context is neither
read nor written; the key enters the tag through `K0` alone. -/
theorem hmacLaws : Obligations.HmacLaws := by
  refine ⟨fun s t key => hm_of_exec_hmacInit, fun s t key fed d => hm_of_exec_hmacUpdate,
    fun s t key fed => tag_of_exec_hmacFinal, fun s t key data => tag_of_exec_hmac, fun i s t c hi h => ?_,
    fun i s t c hi h => ?_, fun key key' data h => hmacTag_congr h data,
    fun key data n h => hmacTag_congr (hmacKey_append_zeros h) data, fun key h => ?_,
    fun key => ⟨hmacKey_of_long, hmacKey_of_short, hmacKey_of_block, length_hmacKey key⟩, fun key data => rfl⟩
  · obtain ⟨hz, hsha⟩ := not_sha_of_hmac_command hi
    refine ⟨exec_keeps_sha hz hsha h, ?_⟩
    rw [exec_with_sha hz hsha, h]
    rfl
  · obtain ⟨hz, hhm⟩ := not_hmac_of_sha_command hi
    refine ⟨exec_keeps_hm hz hhm h, ?_⟩
    rw [exec_with_hm hz hhm, h]
    rfl
  · rw [hmacKey_of_short (by omega), h]

end Sys2Proof.Proofs
end

section
/-! The round trip of the pipelines (rule R182) and what `decrypt` commits (rules R175, R193): which files pass the
checks and whose tag verifies; and the obligations about them. -/

namespace Sys2Proof.Machine

/-! Which files pass the checks (rule R175 steps 2 to 4) -/

/-- The checks pass in one way and fail in one way. -/
theorem checkContainer_cases (file : List Byte) :
    checkContainer file = .error .malformedContainer ∨ ∃ keyBits h, checkContainer file = .ok (keyBits, h) ∧
      Header.decode file = some h ∧ signatureOk h = true ∧ keyBitsOfCode h.keyLengthCode = some keyBits ∧
      104 < file.length := by
  unfold checkContainer
  split
  · exact .inl rfl
  · next h hdecode =>
    split
    · exact .inl rfl
    · next hsig =>
      split
      · exact .inl rfl
      · next keyBits hcode =>
        split
        · exact .inl rfl
        · next hlen => exact .inr ⟨keyBits, h, rfl, hdecode, by simpa using hsig, hcode, Nat.not_le.mp hlen⟩

theorem checkContainer_inversion {file : List Byte} {keyBits : Nat} {h : Header}
    (hc : checkContainer file = .ok (keyBits, h)) :
    Header.decode file = some h ∧ signatureOk h = true ∧ keyBitsOfCode h.keyLengthCode = some keyBits ∧
      104 < file.length := by
  rcases checkContainer_cases file with herr | ⟨keyBits', h', hok, hfacts⟩
  · cases hc.symm.trans herr
  · cases hc.symm.trans hok
    exact hfacts

theorem checkContainer_of_short {file : List Byte} (hlen : file.length ≤ 104) :
    checkContainer file = .error .malformedContainer := by
  rcases checkContainer_cases file with herr | ⟨-, -, -, -, -, -, hlong⟩
  · exact herr
  · exact absurd hlong (Nat.not_lt.mpr hlen)

theorem checkContainer_of_header {file : List Byte} {keyBits : Nat} {h : Header} (hd : Header.decode file = some h)
    (hs : signatureOk h = true) (hk : keyBitsOfCode h.keyLengthCode = some keyBits) (hlen : 104 < file.length) :
    checkContainer file = .ok (keyBits, h) := by
  have hlong : ¬file.length ≤ headerBytes + tagBytes := Nat.not_le.mpr hlen
  simp only [checkContainer, hd, hs, hk, hlong, Bool.not_true, Bool.false_eq_true, if_false]

/-- The codes of rule R170. -/
theorem mem_of_keyBitsOfCode {code : Byte} {keyBits : Nat} (h : keyBitsOfCode code = some keyBits) :
    (code, keyBits) ∈ [(0x01#8, 128), (0x02#8, 192), (0x03#8, 256)] := by
  unfold keyBitsOfCode at h
  split at h
  · next hcode => cases h; simp [hcode]
  · split at h
    · next hcode => cases h; simp [hcode]
    · split at h
      · next hcode => cases h; simp [hcode]
      · cases h

theorem keyBitsOfCode_keyLengthCodeOf {keyBits : Nat} (h : keyBits = 128 ∨ keyBits = 192 ∨ keyBits = 256) :
    keyBitsOfCode (keyLengthCodeOf keyBits) = some keyBits := by
  rcases h with rfl | rfl | rfl <;> decide

/-! Opening a container (rule R175 steps 5 to 9) -/

theorem openContainer_eq_some_iff {p : Params} {keyBits : Nat} {h : Header} {password file plaintext : List Byte} :
    openContainer p keyBits h password file = some plaintext ↔
      decipher p keyBits h password file = plaintext ∧
        hmacTag (deriveKeys p password keyBits).macKey (slice file 0 40 ++ plaintext) = slice file 40 64 := by
  rw [openContainer, headerBytes, tagBytes, Option.ite_none_right_eq_some, Option.some_inj]
  constructor
  · rintro ⟨htag, rfl⟩
    exact ⟨rfl, htag⟩
  · rintro ⟨rfl, htag⟩
    exact ⟨htag, rfl⟩

theorem ctrWithKey_ctrWithKey (aesKey : List Byte) (keyBits : Nat) (cb : Block) (data : List Byte) :
    ctrWithKey aesKey keyBits cb (ctrWithKey aesKey keyBits cb data) = data :=
  ctrStream_ctrStream _ cb data

section Container

variable (p : Params) {keyBits : Nat} (password : List Byte) {nonce : List Byte} (hn : nonce.length = 8)
  (ext plaintext : List Byte)

include hn

/-- A container is read back as its header, its tag and its ciphertext. -/
theorem containerOf_parts :
    let file := containerOf p keyBits password nonce ext plaintext
    let keys := deriveKeys p password keyBits
    slice file 0 40 = (newHeader keyBits nonce ext).encode ∧
      slice file 40 64 = hmacTag keys.macKey ((newHeader keyBits nonce ext).encode ++ plaintext) ∧
      file.drop 104 = ctrWithKey keys.aesKey keyBits (startBlock nonce) plaintext := by
  have hheader := Header.length_encode (newHeader_fieldSizes keyBits hn ext)
  refine ⟨?_, slice_append_middle hheader (length_hmacTag _ _) _, List.drop_left' (by simp [hheader])⟩
  rw [containerOf_eq]
  exact List.take_left' hheader

theorem checkContainer_containerOf (hbits : keyBits = 128 ∨ keyBits = 192 ∨ keyBits = 256) (hne : plaintext ≠ []) :
    checkContainer (containerOf p keyBits password nonce ext plaintext) =
      .ok (keyBits, newHeader keyBits nonce ext) := by
  have hpos := List.length_pos_iff.mpr hne
  refine checkContainer_of_header ?_ rfl (keyBitsOfCode_keyLengthCodeOf hbits) ?_
  · rw [containerOf_eq]
    exact Header.decode_encode_append (newHeader_fieldSizes keyBits hn ext) _
  · rw [length_containerOf p keyBits password hn]
    omega

/-- The tag of a container verifies and its ciphertext is deciphered to the plaintext. -/
theorem openContainer_containerOf :
    openContainer p keyBits (newHeader keyBits nonce ext) password
      (containerOf p keyBits password nonce ext plaintext) = some plaintext := by
  obtain ⟨hheader, htag, hcipher⟩ := containerOf_parts p (keyBits := keyBits) password hn ext plaintext
  refine openContainer_eq_some_iff.mpr ⟨?_, ?_⟩
  · exact (congrArg _ hcipher).trans (ctrWithKey_ctrWithKey _ keyBits (startBlock nonce) plaintext)
  · rw [hheader, htag]

end Container

/-- A file that `encrypt` has completed is the container of its request. -/
theorem containerOf_of_encryptFile {p : Params} {x : EncryptRequest} {file : List Byte}
    (h : (encryptFile p x).destination = .complete file) :
    validatePassword x.password = true ∧ (x.keyBits = 128 ∨ x.keyBits = 192 ∨ x.keyBits = 256) ∧
      file = containerOf p x.keyBits x.password x.nonce x.extension x.source := by
  rcases encryptFile_cases p x with ⟨e, he⟩ | ⟨f, -, hf⟩ | ⟨hp, hk, hnone⟩
  · rw [he] at h
    cases h
  · rw [hf, encryptAborted] at h
    simp only at h
    split at h <;> cases h
  · rw [encryptFile_ok hp hk hnone] at h
    exact ⟨hp, (legalKeyBits_iff _).mp hk, (Destination.complete.inj h).symm⟩

end Sys2Proof.Machine

namespace Sys2Proof.Proofs

open Sys2Proof.Machine

/-- Settles O59: a container of at least one byte passes the checks and its tag verifies; that of an empty plaintext is
too short. -/
theorem decryptAfterEncrypt : Obligations.DecryptAfterEncrypt := by
  intro p x y hn hext hdest hpassword hfailure
  obtain ⟨hp, hbits, hsource⟩ := containerOf_of_encryptFile hdest
  rw [← hpassword] at hp hsource
  refine ⟨fun hne => ?_, fun hempty => ?_⟩
  · have hcheck := checkContainer_containerOf p y.password hn x.extension x.source hbits hne
    have hopen := openContainer_containerOf p (keyBits := x.keyBits) y.password hn x.extension x.source
    rw [← hsource] at hcheck hopen
    have hextension : extensionOf (newHeader x.keyBits x.nonce x.extension).format = x.extension.take 7 :=
      extensionOf_formatField hext
    rw [decryptFile_ok hp hfailure hcheck hopen, hextension]
    exact ⟨rfl, rfl, rfl, rfl⟩
  · have hshort : y.source.length ≤ 104 := by
      rw [hsource, length_containerOf p x.keyBits y.password hn, hempty, List.length_nil]
    have hby : y.failureBy .readHeader = none := by rw [DecryptRequest.failureBy, hfailure, Option.filter_none]
    rw [decryptFile_of_checkContainer_error hp hby (checkContainer_of_short hshort)]
    exact ⟨rfl, rfl, rfl⟩

/-- Settles O60: `decrypt` either fails, with no file, or has passed every check and verified the tag. -/
theorem commitOnlyIfTagMatches : Obligations.CommitOnlyIfTagMatches := by
  intro p x
  rcases decryptFile_cases p x with ⟨e, calls, hfailed⟩ | ⟨hp, hnone, keyBits, h, plaintext, hcheck, hopen⟩
  · rw [hfailed]
    exact ⟨fun out hout => (nomatch hout), fun _ => ⟨rfl, rfl⟩, rfl, fun _ => nofun⟩
  · obtain ⟨hdecode, hsig, hcode, hlen⟩ := checkContainer_inversion hcheck
    obtain ⟨-, -, -, hkeyLength, -, -, hnonce, -, -⟩ := Header.decode_eq_some_iff.mp hdecode
    obtain ⟨hdeciphered, htag⟩ := openContainer_eq_some_iff.mp hopen
    rw [decryptFile_ok hp hnone hcheck hopen]
    refine ⟨fun out hout => ⟨rfl, hp, hnone, keyBits, hlen, slice_of_signatureOk hdecode hsig, ?_, ?_, ?_⟩,
      fun herr => absurd rfl herr, rfl, fun hne => absurd hnone hne⟩
    · rw [hkeyLength]
      exact mem_of_keyBitsOfCode hcode
    · rw [hnonce, ← Destination.complete.inj hout, ← hdeciphered]
      rfl
    · rw [← Destination.complete.inj hout]
      exact htag

end Sys2Proof.Proofs
end
